-- ==== Sys2Proof/Word.lean ====
section
/-! DEFINITION. The two widths of the hardware (`00_scope.md` R6, R11): bytes of 8 bits and words of 16. -/

namespace Sys2Proof

/-- An 8-bit value, `0 .. 0xFF`. -/
abbrev Byte := BitVec 8

/-- A 16-bit value, `0 .. 0xFFFF`. -/
abbrev Word := BitVec 16

end Sys2Proof
end

