-- ==== Sys2Proof/Config.lean ====
section
/-! DEFINITION. What an implementation fixes: the OPEN parameters of `00_scope.md` R6 that are neither launch state
nor a per-step input. A `Config` is held in State and no step changes it, so that a statement about every state is a
statement about every value of the parameters (log 4, 5). -/

namespace Sys2Proof

/-- The parameter `IDIV_MIN_W` (`45_divide.md` R232, D17): the most negative quotient of IDIV that does not fault. -/
inductive IdivLimit where
  /-- `−(2^(W−1) − 1)`: −127 and −32767. The spec's default. -/
  | symmetric
  /-- `−2^(W−1)`: −128 and −32768. The other value that the spec allows. -/
  | full
deriving DecidableEq, Repr

/-- The parameters of the hardware. -/
structure Config where
  /-- `PHYS_BITS − 20` (`20_memory.md` R51, D3): 0 is the spec's default of 20 address bits; "a model may take 21 or
  more". -/
  extraAddressBits : Nat := 0
  /-- `IDIV_MIN_W`. -/
  idivLimit : IdivLimit := .symmetric
deriving DecidableEq, Repr

/-- What a byte of memory reads as that is not listed. The spec gives no launch contents (R40, R301, D25): DESIGN
CHOICE, unsafe (log 3). Every launch memory can be written as a state that lists its non-zero bytes. -/
def Config.unlistedByte : Byte := 0

end Sys2Proof
end

