-- ==== Sys2Proof/Syntax.lean ====
section
/-! DEFINITION. The instructions: one constructor of `Instr` for each of the 45 rows of `spec/opcode_table.json`.
Every encoded bit is kept (`30_encoding.md` R110: "both are accepted and each keeps its own fields"); the width bit
`w` is the choice between the `byte` and `word` constructors of an operand pair, so two operands of different widths
cannot be written (R89). -/

namespace Sys2Proof

/-- The 8-bit registers (`10_state.md` R24). -/
inductive Reg8 where
  | al | cl | dl | bl | ah | ch | dh | bh
deriving DecidableEq, Repr

/-- The 16-bit general registers (`10_state.md` R22, R23). -/
inductive Reg16 where
  | ax | cx | dx | bx | sp | bp | si | di
deriving DecidableEq, Repr

/-- The segment registers (`10_state.md` R32, R33). -/
inductive SegReg where
  | es | cs | ss | ds
deriving DecidableEq, Repr

/-- The eight base combinations of the `rm` field (`30_encoding.md` R85). -/
inductive Base where
  | bxsi | bxdi | bpsi | bpdi | si | di | bp | bx
deriving DecidableEq, Repr

/-- A memory operand: the addressing-mode classes `mod` = 00, 01, 10 and the direct address (R84 to R86). -/
inductive MemOp where
  /-- `mod = 00`, `rm = 110`: the 16-bit direct address `ea`. -/
  | direct (ea : Word)
  /-- `mod = 00`: no displacement. -/
  | noDisp (base : Base)
  /-- `mod = 01`: a displacement byte, sign-extended when used. -/
  | disp8 (base : Base) (disp : Byte)
  /-- `mod = 10`: a 16-bit displacement. -/
  | disp16 (base : Base) (disp : Word)
deriving DecidableEq, Repr

/-- The `rm` operand: a register (`mod = 11`) or a memory operand. -/
inductive Rm (R : Type) where
  | reg (r : R)
  | mem (m : MemOp)
deriving DecidableEq, Repr

/-- The direction bit `d` (R88). -/
inductive Dir where
  /-- `d = 0`: the `rm` operand is the destination. -/
  | toRm
  /-- `d = 1`: the `reg` operand is the destination. -/
  | toReg
deriving DecidableEq, Repr

/-- The operands of formats `RMR` and `RMR0`: `w`, `rm` and `reg`. -/
inductive RmReg where
  | byte (rm : Rm Reg8) (reg : Reg8)
  | word (rm : Rm Reg16) (reg : Reg16)
deriving DecidableEq, Repr

/-- The operands of format `RMI`: `s`, `w`, `rm` and the immediate (R90). -/
inductive RmImmS where
  /-- `w = 0`, either value of `s`: one immediate byte (opcode bytes 0x80 and 0x82). -/
  | byte (s : Bool) (rm : Rm Reg8) (val : Byte)
  /-- `s = 0`, `w = 1`: an immediate word (opcode byte 0x81). -/
  | word (rm : Rm Reg16) (val : Word)
  /-- `s = 1`, `w = 1`: one immediate byte, sign-extended when used (opcode byte 0x83). -/
  | wordSext (rm : Rm Reg16) (val : Byte)
deriving DecidableEq, Repr

/-- The operands of format `RMI0`: `w`, `rm` and an immediate of full width. -/
inductive RmImm where
  | byte (rm : Rm Reg8) (val : Byte)
  | word (rm : Rm Reg16) (val : Word)
deriving DecidableEq, Repr

/-- The operands of format `ACCI`: `w` and an immediate of full width; the destination is AL or AX. -/
inductive AccImm where
  | byte (val : Byte)
  | word (val : Word)
deriving DecidableEq, Repr

/-- The operand of format `RMX` with a `w` field (DIV and IDIV). -/
inductive RmX where
  | byte (rm : Rm Reg8)
  | word (rm : Rm Reg16)
deriving DecidableEq, Repr

/-- The instructions, in the order of the opcode table but for the families' grouping. -/
inductive Instr where
  | addRmReg (d : Dir) (o : RmReg)
  | addAccImm (o : AccImm)
  | addRmImm (o : RmImmS)
  | orRmReg (d : Dir) (o : RmReg)
  | orAccImm (o : AccImm)
  | orRmImm (o : RmImmS)
  | adcRmReg (d : Dir) (o : RmReg)
  | adcAccImm (o : AccImm)
  | adcRmImm (o : RmImmS)
  | sbbRmReg (d : Dir) (o : RmReg)
  | sbbAccImm (o : AccImm)
  | sbbRmImm (o : RmImmS)
  | andRmReg (d : Dir) (o : RmReg)
  | andAccImm (o : AccImm)
  | andRmImm (o : RmImmS)
  | subRmReg (d : Dir) (o : RmReg)
  | subAccImm (o : AccImm)
  | subRmImm (o : RmImmS)
  | xorRmReg (d : Dir) (o : RmReg)
  | xorAccImm (o : AccImm)
  | xorRmImm (o : RmImmS)
  | cmpRmReg (d : Dir) (o : RmReg)
  | cmpAccImm (o : AccImm)
  | cmpRmImm (o : RmImmS)
  | testRmReg (o : RmReg)
  | testAccImm (o : AccImm)
  | testRmImm (o : RmImm)
  | movRmReg (d : Dir) (o : RmReg)
  | movRmImm (o : RmImm)
  | daa
  | das
  | aaa
  | aas
  | aam
  | aad
  | div (o : RmX)
  | idiv (o : RmX)
  | callNear (val : Word)
  | callRm (rm : Rm Reg16)
  | callFar (val val2 : Word)
  | callFarRm (rm : Rm Reg16)
  | jmpNear (val : Word)
  | jmpRm (rm : Rm Reg16)
  | jmpFar (val val2 : Word)
  | jmpFarRm (rm : Rm Reg16)
deriving DecidableEq, Repr

end Sys2Proof
end

