-- ==== Sys2Proof/Machine/State.lean ====
section
/-! DEFINITION. The machine's state: the storage of the CPU collaborator (`10_state.md`), the inputs the host has lined
up for the coming steps (`00_scope.md` R9), and the parameters of R6. -/

namespace Sys2Proof.Machine

/-- The eight 16-bit general registers (R22). The 8-bit registers are halves of the first four (R24). -/
structure Regs where
  AX : Word := 0
  CX : Word := 0
  DX : Word := 0
  BX : Word := 0
  SP : Word := 0
  BP : Word := 0
  SI : Word := 0
  DI : Word := 0
deriving DecidableEq, Repr

/-- The four segment registers (R32). -/
structure Segs where
  ES : Word := 0
  CS : Word := 0
  SS : Word := 0
  DS : Word := 0
deriving DecidableEq, Repr

/-- The nine flags, each on its own (R29); no flags word is defined (N6). -/
structure Flags where
  CF : Bool := false
  ZF : Bool := false
  SF : Bool := false
  OF : Bool := false
  PF : Bool := false
  AF : Bool := false
  IF : Bool := false
  DF : Bool := false
  TF : Bool := false
deriving DecidableEq, Repr

/-- Memory: the bytes that differ from `Config.unlistedByte`, by physical address. -/
abbrev Memory := List Host.Cell

/-- The canonical form: addresses strictly rise, and no entry equals what an unlisted address reads as. -/
abbrev Memory.wf (m : Memory) : Prop :=
  m.Pairwise (fun c d => c.1 < d.1) ∧ ∀ c ∈ m, c.2 ≠ Config.unlistedByte

/-- What the port STREAM is bound to in a step (R6, D6). -/
inductive Stream where
  /-- The default: memory at CS:IP (`20_memory.md` R67). -/
  | memory
  /-- A byte sequence and an offset into it, passed by the host. -/
  | supplied (bytes : List Byte) (offset : Nat)
deriving DecidableEq, Repr

/-- The host's inputs to one step: ports STREAM and SEGOVR (R9). -/
structure StepInput where
  stream : Stream := .memory
  /-- The segment override of this step's memory operand, if any (`40_operand_resolver.md` R147). -/
  segovr : Option SegReg := none
deriving DecidableEq, Repr

/-- Everything the spec gives the machine. -/
structure State where
  regs : Regs := {}
  segs : Segs := {}
  /-- The instruction pointer, an offset into CS (R26). -/
  ip : Word := 0
  flags : Flags := {}
  mem : Memory := []
  /-- The inputs lined up for the coming steps, the next step's first; where the list has ended, a step has the default
  input (log 6). -/
  inputs : List StepInput := []
  /-- The parameters of R6; no step changes them (log 4, 5). -/
  cfg : Config := {}
deriving DecidableEq, Repr

/-- The execution faults: the complete list (`60_exceptions.md` R275). A faulted step gives no state: the machine's
state is that before the step (R274, log 10). -/
inductive Fault where
  /-- Raised by DIV and IDIV when the divisor is zero or the quotient does not fit (R270). The spec's own fault. Safe. -/
  | divideError
  /-- Raised by CALL and JMP far-indirect when the operand is a register (R271). The spec's own fault. Safe. -/
  | unresolvableFarTarget
deriving DecidableEq, Repr

/-- The steps that have no meaning. -/
inductive Refusal where
  /-- Answered by the dispatch for an instruction that has no meaning in the model yet; none is left. Safe. -/
  | notModelled (mnemonic : String)
  /-- Answered by `step` when the bytes match no template (R112, R272): the block gives them no meaning and changes
  nothing. Safe. -/
  | noMatch
  /-- Answered by `step` when decoding gives `MalformedField` (R273, R278). Bytes never do (R102). Safe. -/
  | malformedField
deriving DecidableEq, Repr

/-- Launch. The spec fixes no value (R40, R301): CS = 0xFFFF, IP, DS, SS, ES and the flags zero are the 8086 family's
values that `93_implementation_defined.md` U14 records (PRESUMED, log 1); the general registers, which U14 leaves
undefined, are zero (DESIGN CHOICE, log 2); memory lists nothing (log 3); no input is lined up (log 6); the parameters
have the spec's defaults (log 4, 5). -/
def State.reset : State where
  segs := { CS := 0xFFFF }

end Sys2Proof.Machine
end

