-- ==== Sys2Proof/Machine/Flags.lean ====
section
/-! DEFINITION. The flag computation engine (`41_flag_engine.md`): pure functions of the width `W`, the operands and
the result. -/

namespace Sys2Proof.Machine

/-- The sign bit's weight, `2^(W−1)` (R160). -/
def signMask (W : Nat) : BitVec W := BitVec.ofNat W (2 ^ (W - 1))

/-- ZF: the result is zero (R163). -/
def zeroFlag {W : Nat} (r : BitVec W) : Bool := r == 0#W

/-- SF: bit W−1 of the result (R164). -/
def signFlag {W : Nat} (r : BitVec W) : Bool := r.getLsbD (W - 1)

/-- The number of one bits among bits 7:0 of a result. -/
def lowPopcount {W : Nat} (r : BitVec W) : Nat := (List.range 8).countP (fun i => r.getLsbD i)

/-- PF: an even number of one bits among bits 7:0, whatever the width (R168). -/
def parityFlag {W : Nat} (r : BitVec W) : Bool := lowPopcount r % 2 == 0

/-- `v[3:0]`. -/
def lowNibble {W : Nat} (v : BitVec W) : Nat := v.toNat % 16

/-- `SetSZP(W, r)`: ZF, SF and PF from the result, no other flag (R173). -/
def setSZP {W : Nat} (r : BitVec W) (f : Flags) : Flags :=
  { f with ZF := zeroFlag r, SF := signFlag r, PF := parityFlag r }

/-- The masked result of the add class, `(a + b + c) mod 2^W` (R161). -/
def addResult {W : Nat} (a b : BitVec W) (c : Bool) : BitVec W :=
  BitVec.ofNat W (a.toNat + b.toNat + c.toNat)

/-- The masked result of the sub class, `(a − b − c) mod 2^W` (R161). -/
def subResult {W : Nat} (a b : BitVec W) (c : Bool) : BitVec W :=
  BitVec.ofInt W ((a.toNat : Int) - b.toNat - c.toNat)

/-- The flags of `SetFlags_add(W, a, b, c)` (R170; CF R162, OF R165, AF R169). -/
def flagsAdd {W : Nat} (a b : BitVec W) (c : Bool) (f : Flags) : Flags :=
  let r := addResult a b c
  { setSZP r f with
    CF := decide (a.toNat + b.toNat + c.toNat > 2 ^ W - 1)
    OF := ((a ^^^ b ^^^ signMask W) &&& (r ^^^ a) &&& signMask W) != 0#W
    AF := decide (lowNibble a + lowNibble b + c.toNat > 0xF) }

/-- The flags of `SetFlags_sub(W, a, b, c)` (R171; CF R162, OF R166, AF R169). -/
def flagsSub {W : Nat} (a b : BitVec W) (c : Bool) (f : Flags) : Flags :=
  let r := subResult a b c
  { setSZP r f with
    CF := decide (a.toNat < b.toNat + c.toNat)
    OF := ((a ^^^ b) &&& (a ^^^ r) &&& signMask W) != 0#W
    AF := decide (lowNibble a < lowNibble b + c.toNat) }

/-- The flags of `SetFlags_logic(W, r)` (R172, R167, R169). -/
def flagsLogic {W : Nat} (r : BitVec W) (f : Flags) : Flags :=
  { setSZP r f with CF := false, OF := false, AF := false }

end Sys2Proof.Machine
end

