-- ==== Sys2Proof/WellFormed.lean ====
section
/-! DEFINITION. Which terms of `Instr` some bytes encode. Widths agree by the types; the one check left is that BP
alone has no form without a displacement (`30_encoding.md` R86, R126: "`[BP]` without a displacement has no
encoding"). -/

namespace Sys2Proof

/-- `mod = 00` with the base BP is the direct address, so `[BP]` is not a memory operand. -/
def MemOp.wf : MemOp → Bool
  | .noDisp .bp => false
  | .noDisp _ | .direct _ | .disp8 _ _ | .disp16 _ _ => true

/-- A register, or a memory operand that has an encoding. -/
def Rm.wf {R : Type} : Rm R → Bool
  | .reg _ => true
  | .mem m => m.wf

def RmReg.wf : RmReg → Bool
  | .byte rm _ => rm.wf
  | .word rm _ => rm.wf

def RmImmS.wf : RmImmS → Bool
  | .byte _ rm _ => rm.wf
  | .word rm _ => rm.wf
  | .wordSext rm _ => rm.wf

def RmImm.wf : RmImm → Bool
  | .byte rm _ => rm.wf
  | .word rm _ => rm.wf

def RmX.wf : RmX → Bool
  | .byte rm => rm.wf
  | .word rm => rm.wf

/-- The instruction has an encoding. -/
def Instr.wf : Instr → Bool
  | .addRmReg _ o | .orRmReg _ o | .adcRmReg _ o | .sbbRmReg _ o | .andRmReg _ o | .subRmReg _ o
  | .xorRmReg _ o | .cmpRmReg _ o | .testRmReg o | .movRmReg _ o => o.wf
  | .addRmImm o | .orRmImm o | .adcRmImm o | .sbbRmImm o | .andRmImm o | .subRmImm o
  | .xorRmImm o | .cmpRmImm o => o.wf
  | .testRmImm o | .movRmImm o => o.wf
  | .div o | .idiv o => o.wf
  | .callRm rm | .callFarRm rm | .jmpRm rm | .jmpFarRm rm => rm.wf
  | .addAccImm _ | .orAccImm _ | .adcAccImm _ | .sbbAccImm _ | .andAccImm _ | .subAccImm _
  | .xorAccImm _ | .cmpAccImm _ | .testAccImm _ => true
  | .daa | .das | .aaa | .aas | .aam | .aad => true
  | .callNear _ | .callFar _ _ | .jmpNear _ | .jmpFar _ _ => true

end Sys2Proof
end

