-- ==== Sys2Proof/Decode.lean ====
section
/-! DEFINITION. From bytes to instructions and back: the field values and their names, the opcode table with its
matcher, the field resolver, `decode`, then `encode`, the lengths, and the host's `decodeTableWord`. -/

namespace Sys2Proof

/-! ## Bytes and words (`20_memory.md` R50: the byte at the lower address is the less significant) -/

/-- The word whose less significant byte is `lo`. -/
def wordOf (lo hi : Byte) : Word := BitVec.ofNat 16 (hi.toNat * 256 + lo.toNat)

/-- Bits 7:0. -/
def lowByte (v : Word) : Byte := BitVec.ofNat 8 v.toNat

/-- Bits 15:8. -/
def highByte (v : Word) : Byte := BitVec.ofNat 8 (v.toNat / 256)

/-- `sext_16` of a byte (`00_scope.md` R11). -/
def sext16 (b : Byte) : Word := b.signExtend 16

/-! ## Field codes -/

/-- `10_state.md` R24. -/
def Reg8.code : Reg8 → BitVec 3
  | .al => 0 | .cl => 1 | .dl => 2 | .bl => 3 | .ah => 4 | .ch => 5 | .dh => 6 | .bh => 7

/-- `10_state.md` R24. -/
def Reg8.ofCode (c : BitVec 3) : Reg8 :=
  match c with
  | 0 => .al | 1 => .cl | 2 => .dl | 3 => .bl | 4 => .ah | 5 => .ch | 6 => .dh | 7 => .bh

/-- `10_state.md` R23. -/
def Reg16.code : Reg16 → BitVec 3
  | .ax => 0 | .cx => 1 | .dx => 2 | .bx => 3 | .sp => 4 | .bp => 5 | .si => 6 | .di => 7

/-- `10_state.md` R23. -/
def Reg16.ofCode (c : BitVec 3) : Reg16 :=
  match c with
  | 0 => .ax | 1 => .cx | 2 => .dx | 3 => .bx | 4 => .sp | 5 => .bp | 6 => .si | 7 => .di

/-- The `rm` codes of the base combinations (`30_encoding.md` R85). -/
def Base.code : Base → BitVec 3
  | .bxsi => 0 | .bxdi => 1 | .bpsi => 2 | .bpdi => 3 | .si => 4 | .di => 5 | .bp => 6 | .bx => 7

/-- `30_encoding.md` R85. -/
def Base.ofCode (c : BitVec 3) : Base :=
  match c with
  | 0 => .bxsi | 1 => .bxdi | 2 => .bpsi | 3 => .bpdi | 4 => .si | 5 => .di | 6 => .bp | 7 => .bx

/-- The `seg` codes (`10_state.md` R33). No template in scope holds a `seg` field (R113): the code only names the
override input. -/
def SegReg.code : SegReg → BitVec 2
  | .es => 0 | .cs => 1 | .ss => 2 | .ds => 3

/-- The `d` bit (R88). -/
def Dir.bit : Dir → Bool
  | .toRm => false
  | .toReg => true

/-- The `d` bit (R88). -/
def Dir.ofBit (d : Bool) : Dir := if d then .toReg else .toRm

/-! ## Fields of the first two bytes (R83, R88 to R90) -/

/-- The class bits `mod` of a ModRM byte. -/
def modField (m : Byte) : BitVec 2 := m.extractLsb' 6 2

/-- The `reg` bits of a ModRM byte. -/
def regField (m : Byte) : BitVec 3 := m.extractLsb' 3 3

/-- The `rm` bits of a ModRM byte. -/
def rmField (m : Byte) : BitVec 3 := m.extractLsb' 0 3

/-- `w`, bit 0 of the opcode byte. -/
def wBit (b : Byte) : Bool := b.getLsbD 0

/-- Bit 1 of the opcode byte: `d` or `s`. -/
def dsBit (b : Byte) : Bool := b.getLsbD 1

/-! ## The field resolver: trailing bytes -/

/-- One immediate or displacement byte. -/
def takeByte : List Byte → Option (Byte × List Byte)
  | [] => none
  | b :: bs => some (b, bs)

/-- Two bytes, the low one first (R50, R91, R93). -/
def takeWord : List Byte → Option (Word × List Byte)
  | lo :: hi :: bs => some (wordOf lo hi, bs)
  | [_] | [] => none

/-- The `rm` operand of the ModRM byte `m` with its displacement or direct-address bytes, in the order of variants of
R101: register, direct address, no displacement, displacement byte, displacement word. `none`: the stream ends too
soon (D35). -/
def parseRm {R : Type} (ofCode : BitVec 3 → R) (m : Byte) (bs : List Byte) : Option (Rm R × List Byte) :=
  match modField m with
  | 3 => some (.reg (ofCode (rmField m)), bs)
  | 0 =>
    if rmField m = 6 then (takeWord bs).map fun p => (.mem (.direct p.1), p.2)
    else some (.mem (.noDisp (Base.ofCode (rmField m))), bs)
  | 1 => (takeByte bs).map fun p => (.mem (.disp8 (Base.ofCode (rmField m)) p.1), p.2)
  | 2 => (takeWord bs).map fun p => (.mem (.disp16 (Base.ofCode (rmField m)) p.1), p.2)

/-- A format of R82 together with the instruction that a row of the table makes of its fields. -/
inductive Shape where
  | rmr (mk : Dir → RmReg → Instr)
  | rmr0 (mk : RmReg → Instr)
  | rmi (mk : RmImmS → Instr)
  | rmi0 (mk : RmImm → Instr)
  | acci (mk : AccImm → Instr)
  | rmxw (mk : RmX → Instr)
  | rmx (mk : Rm Reg16 → Instr)
  | none (i : Instr)
  | fix2 (i : Instr)
  | rel16 (mk : Word → Instr)
  | fard (mk : Word → Word → Instr)

/-- `w`, `rm` and `reg` of formats `RMR` and `RMR0`. -/
def parseRmReg (b0 m : Byte) (bs : List Byte) : Option (RmReg × List Byte) :=
  if wBit b0 then
    (parseRm Reg16.ofCode m bs).map fun p => (.word p.1 (Reg16.ofCode (regField m)), p.2)
  else
    (parseRm Reg8.ofCode m bs).map fun p => (.byte p.1 (Reg8.ofCode (regField m)), p.2)

/-- `s`, `w`, `rm` and the immediate of format `RMI` (R90). -/
def parseRmImmS (b0 m : Byte) (bs : List Byte) : Option (RmImmS × List Byte) :=
  if wBit b0 then
    (parseRm Reg16.ofCode m bs).bind fun p =>
      if dsBit b0 then (takeByte p.2).map fun q => (.wordSext p.1 q.1, q.2)
      else (takeWord p.2).map fun q => (.word p.1 q.1, q.2)
  else
    (parseRm Reg8.ofCode m bs).bind fun p =>
      (takeByte p.2).map fun q => (.byte (dsBit b0) p.1 q.1, q.2)

/-- `w`, `rm` and the full-width immediate of format `RMI0` (R93). -/
def parseRmImm (b0 m : Byte) (bs : List Byte) : Option (RmImm × List Byte) :=
  if wBit b0 then
    (parseRm Reg16.ofCode m bs).bind fun p => (takeWord p.2).map fun q => (.word p.1 q.1, q.2)
  else
    (parseRm Reg8.ofCode m bs).bind fun p => (takeByte p.2).map fun q => (.byte p.1 q.1, q.2)

/-- `w` and the immediate of format `ACCI` (R93). -/
def parseAccImm (b0 : Byte) (bs : List Byte) : Option (AccImm × List Byte) :=
  if wBit b0 then (takeWord bs).map fun q => (.word q.1, q.2)
  else (takeByte bs).map fun q => (.byte q.1, q.2)

/-- `w` and `rm` of format `RMX` with a `w` field. -/
def parseRmX (b0 m : Byte) (bs : List Byte) : Option (RmX × List Byte) :=
  if wBit b0 then (parseRm Reg16.ofCode m bs).map fun p => (.word p.1, p.2)
  else (parseRm Reg8.ofCode m bs).map fun p => (.byte p.1, p.2)

/-- The instruction that a shape makes of bytes whose literal bits have matched, and the bytes after it. -/
def Shape.parse (sh : Shape) (bs : List Byte) : Option (Instr × List Byte) :=
  match sh, bs with
  | .rmr mk, b0 :: m :: bs => (parseRmReg b0 m bs).map fun p => (mk (Dir.ofBit (dsBit b0)) p.1, p.2)
  | .rmr0 mk, b0 :: m :: bs => (parseRmReg b0 m bs).map fun p => (mk p.1, p.2)
  | .rmi mk, b0 :: m :: bs => (parseRmImmS b0 m bs).map fun p => (mk p.1, p.2)
  | .rmi0 mk, b0 :: m :: bs => (parseRmImm b0 m bs).map fun p => (mk p.1, p.2)
  | .acci mk, b0 :: bs => (parseAccImm b0 bs).map fun p => (mk p.1, p.2)
  | .rmxw mk, b0 :: m :: bs => (parseRmX b0 m bs).map fun p => (mk p.1, p.2)
  | .rmx mk, _ :: m :: bs => (parseRm Reg16.ofCode m bs).map fun p => (mk p.1, p.2)
  | .none i, _ :: bs => some (i, bs)
  | .fix2 i, _ :: _ :: bs => some (i, bs)
  | .rel16 mk, _ :: bs => (takeWord bs).map fun p => (mk p.1, p.2)
  | .fard mk, _ :: bs => (takeWord bs).bind fun p => (takeWord p.2).map fun q => (mk p.1 q.1, q.2)
  | _, _ => Option.none

/-! ## The opcode table and the matcher (R80, R100, R103, R104) -/

/-- One row of the opcode table. -/
structure Row where
  /-- The bit-pattern templates of the leading bytes (R80), bit 7 first: the opcode byte, and the ModRM byte or the second
  literal byte where the shape has one. Every byte after them has the template `vvvvvvvv`. -/
  templates : List String
  /-- The table's `match` and `mask` for the leading bytes that have literal bits. -/
  fixed : List (Byte × Byte)
  shape : Shape

/-- The rows in registration order, which is the order of `opcode_table.json` (R101, D24). -/
def opcodeTable : List Row :=
  [⟨["000000dw", "mmrrrbbb"], [(0x00, 0xFC)], .rmr .addRmReg⟩,
   ⟨["0000010w"], [(0x04, 0xFE)], .acci .addAccImm⟩,
   ⟨["100000sw", "mm000bbb"], [(0x80, 0xFC), (0x00, 0x38)], .rmi .addRmImm⟩,
   ⟨["000010dw", "mmrrrbbb"], [(0x08, 0xFC)], .rmr .orRmReg⟩,
   ⟨["0000110w"], [(0x0C, 0xFE)], .acci .orAccImm⟩,
   ⟨["100000sw", "mm001bbb"], [(0x80, 0xFC), (0x08, 0x38)], .rmi .orRmImm⟩,
   ⟨["000100dw", "mmrrrbbb"], [(0x10, 0xFC)], .rmr .adcRmReg⟩,
   ⟨["0001010w"], [(0x14, 0xFE)], .acci .adcAccImm⟩,
   ⟨["100000sw", "mm010bbb"], [(0x80, 0xFC), (0x10, 0x38)], .rmi .adcRmImm⟩,
   ⟨["000110dw", "mmrrrbbb"], [(0x18, 0xFC)], .rmr .sbbRmReg⟩,
   ⟨["0001110w"], [(0x1C, 0xFE)], .acci .sbbAccImm⟩,
   ⟨["100000sw", "mm011bbb"], [(0x80, 0xFC), (0x18, 0x38)], .rmi .sbbRmImm⟩] ++
  [⟨["001000dw", "mmrrrbbb"], [(0x20, 0xFC)], .rmr .andRmReg⟩,
   ⟨["0010010w"], [(0x24, 0xFE)], .acci .andAccImm⟩,
   ⟨["100000sw", "mm100bbb"], [(0x80, 0xFC), (0x20, 0x38)], .rmi .andRmImm⟩,
   ⟨["001010dw", "mmrrrbbb"], [(0x28, 0xFC)], .rmr .subRmReg⟩,
   ⟨["0010110w"], [(0x2C, 0xFE)], .acci .subAccImm⟩,
   ⟨["100000sw", "mm101bbb"], [(0x80, 0xFC), (0x28, 0x38)], .rmi .subRmImm⟩,
   ⟨["001100dw", "mmrrrbbb"], [(0x30, 0xFC)], .rmr .xorRmReg⟩,
   ⟨["0011010w"], [(0x34, 0xFE)], .acci .xorAccImm⟩,
   ⟨["100000sw", "mm110bbb"], [(0x80, 0xFC), (0x30, 0x38)], .rmi .xorRmImm⟩,
   ⟨["001110dw", "mmrrrbbb"], [(0x38, 0xFC)], .rmr .cmpRmReg⟩,
   ⟨["0011110w"], [(0x3C, 0xFE)], .acci .cmpAccImm⟩,
   ⟨["100000sw", "mm111bbb"], [(0x80, 0xFC), (0x38, 0x38)], .rmi .cmpRmImm⟩] ++
  [⟨["1000010w", "mmrrrbbb"], [(0x84, 0xFE)], .rmr0 .testRmReg⟩,
   ⟨["1010100w"], [(0xA8, 0xFE)], .acci .testAccImm⟩,
   ⟨["1111011w", "mm000bbb"], [(0xF6, 0xFE), (0x00, 0x38)], .rmi0 .testRmImm⟩,
   ⟨["100010dw", "mmrrrbbb"], [(0x88, 0xFC)], .rmr .movRmReg⟩,
   ⟨["1100011w", "mm000bbb"], [(0xC6, 0xFE), (0x00, 0x38)], .rmi0 .movRmImm⟩,
   ⟨["00100111"], [(0x27, 0xFF)], .none .daa⟩,
   ⟨["00101111"], [(0x2F, 0xFF)], .none .das⟩,
   ⟨["00110111"], [(0x37, 0xFF)], .none .aaa⟩,
   ⟨["00111111"], [(0x3F, 0xFF)], .none .aas⟩,
   ⟨["11010100", "00001010"], [(0xD4, 0xFF), (0x0A, 0xFF)], .fix2 .aam⟩,
   ⟨["11010101", "00001010"], [(0xD5, 0xFF), (0x0A, 0xFF)], .fix2 .aad⟩] ++
  [⟨["1111011w", "mm110bbb"], [(0xF6, 0xFE), (0x30, 0x38)], .rmxw .div⟩,
   ⟨["1111011w", "mm111bbb"], [(0xF6, 0xFE), (0x38, 0x38)], .rmxw .idiv⟩,
   ⟨["11101000"], [(0xE8, 0xFF)], .rel16 .callNear⟩,
   ⟨["11111111", "mm010bbb"], [(0xFF, 0xFF), (0x10, 0x38)], .rmx .callRm⟩,
   ⟨["10011010"], [(0x9A, 0xFF)], .fard .callFar⟩,
   ⟨["11111111", "mm011bbb"], [(0xFF, 0xFF), (0x18, 0x38)], .rmx .callFarRm⟩,
   ⟨["11101001"], [(0xE9, 0xFF)], .rel16 .jmpNear⟩,
   ⟨["11111111", "mm100bbb"], [(0xFF, 0xFF), (0x20, 0x38)], .rmx .jmpRm⟩,
   ⟨["11101010"], [(0xEA, 0xFF)], .fard .jmpFar⟩,
   ⟨["11111111", "mm101bbb"], [(0xFF, 0xFF), (0x28, 0x38)], .rmx .jmpFarRm⟩]

/-- The literal bits of the leading bytes agree; a stream too short for them does not match (R100, R112). -/
def matchesFixed : List (Byte × Byte) → List Byte → Bool
  | [], _ => true
  | _ :: _, [] => false
  | (key, mask) :: fs, b :: bs => (b &&& mask) == key && matchesFixed fs bs

/-- One row tried on a byte stream. -/
def Row.decode (r : Row) (bs : List Byte) : Option (Instr × List Byte) :=
  if matchesFixed r.fixed bs then r.shape.parse bs else none

/-- The outcomes of the decode phase, in either direction (`00_scope.md` R8). -/
inductive DecodeOutcome where
  /-- `Match`: the instruction, and the bytes that follow it. -/
  | matched (i : Instr) (rest : List Byte)
  /-- No template fits (R112, `60_exceptions.md` R272). -/
  | noMatch
  /-- A field outside its enumeration (`60_exceptions.md` R273). Bytes never give it (R102); text can (R126). -/
  | malformedField
deriving DecidableEq, Repr

/-- Decode: the linear probe of the table in registration order (R100, R101). Total on any bytes; what matches no row
is No-Match (R112). -/
def decode (bs : List Byte) : DecodeOutcome :=
  match opcodeTable.findSome? (fun r => r.decode bs) with
  | some (i, rest) => .matched i rest
  | none => .noMatch

/-! ## The encoder -/

/-- One encoded bit. -/
def bit (b : Bool) : BitVec 1 := BitVec.ofBool b

/-- The ModRM byte (R83). -/
def modrm (mod : BitVec 2) (reg rm : BitVec 3) : Byte := mod ++ reg ++ rm

/-- The two bytes of a word, the low one first (R50). -/
def wordBytes (v : Word) : List Byte := [lowByte v, highByte v]

/-- The ModRM byte and the displacement or direct-address bytes (R81, R84, R86); `reg` is the `reg` field or the opcode
extension (R87). -/
def encodeRm {R : Type} (code : R → BitVec 3) (reg : BitVec 3) : Rm R → List Byte
  | .reg r => [modrm 3 reg (code r)]
  | .mem (.direct ea) => modrm 0 reg 6 :: wordBytes ea
  | .mem (.noDisp b) => [modrm 0 reg b.code]
  | .mem (.disp8 b d) => [modrm 1 reg b.code, d]
  | .mem (.disp16 b d) => modrm 2 reg b.code :: wordBytes d

/-- `oooooodw mmrrrbbb` (format `RMR`). -/
def encodeRmr (op : BitVec 6) (d : Dir) : RmReg → List Byte
  | .byte rm reg => (op ++ bit d.bit ++ 0#1) :: encodeRm Reg8.code reg.code rm
  | .word rm reg => (op ++ bit d.bit ++ 1#1) :: encodeRm Reg16.code reg.code rm

/-- `ooooooow mmrrrbbb` (format `RMR0`). -/
def encodeRmr0 (op : BitVec 7) : RmReg → List Byte
  | .byte rm reg => (op ++ 0#1) :: encodeRm Reg8.code reg.code rm
  | .word rm reg => (op ++ 1#1) :: encodeRm Reg16.code reg.code rm

/-- `oooooosw mmeeebbb`, immediate (format `RMI`). -/
def encodeRmi (op : BitVec 6) (ext : BitVec 3) : RmImmS → List Byte
  | .byte s rm v => (op ++ bit s ++ 0#1) :: encodeRm Reg8.code ext rm ++ [v]
  | .word rm v => (op ++ 0#1 ++ 1#1) :: encodeRm Reg16.code ext rm ++ wordBytes v
  | .wordSext rm v => (op ++ 1#1 ++ 1#1) :: encodeRm Reg16.code ext rm ++ [v]

/-- `ooooooow mmeeebbb`, immediate (format `RMI0`). -/
def encodeRmi0 (op : BitVec 7) (ext : BitVec 3) : RmImm → List Byte
  | .byte rm v => (op ++ 0#1) :: encodeRm Reg8.code ext rm ++ [v]
  | .word rm v => (op ++ 1#1) :: encodeRm Reg16.code ext rm ++ wordBytes v

/-- `ooooooow`, immediate (format `ACCI`). -/
def encodeAcci (op : BitVec 7) : AccImm → List Byte
  | .byte v => [op ++ 0#1, v]
  | .word v => (op ++ 1#1) :: wordBytes v

/-- `ooooooow mmeeebbb` (format `RMX` with `w`). -/
def encodeRmxw (op : BitVec 7) (ext : BitVec 3) : RmX → List Byte
  | .byte rm => (op ++ 0#1) :: encodeRm Reg8.code ext rm
  | .word rm => (op ++ 1#1) :: encodeRm Reg16.code ext rm

/-- The bytes of an instruction (`toBinary`), from the encoding line of each instruction's rule. -/
def encode : Instr → List Byte
  | .addRmReg d o => encodeRmr 0b000000 d o
  | .addAccImm o => encodeAcci 0b0000010 o
  | .addRmImm o => encodeRmi 0b100000 0b000 o
  | .orRmReg d o => encodeRmr 0b000010 d o
  | .orAccImm o => encodeAcci 0b0000110 o
  | .orRmImm o => encodeRmi 0b100000 0b001 o
  | .adcRmReg d o => encodeRmr 0b000100 d o
  | .adcAccImm o => encodeAcci 0b0001010 o
  | .adcRmImm o => encodeRmi 0b100000 0b010 o
  | .sbbRmReg d o => encodeRmr 0b000110 d o
  | .sbbAccImm o => encodeAcci 0b0001110 o
  | .sbbRmImm o => encodeRmi 0b100000 0b011 o
  | .andRmReg d o => encodeRmr 0b001000 d o
  | .andAccImm o => encodeAcci 0b0010010 o
  | .andRmImm o => encodeRmi 0b100000 0b100 o
  | .subRmReg d o => encodeRmr 0b001010 d o
  | .subAccImm o => encodeAcci 0b0010110 o
  | .subRmImm o => encodeRmi 0b100000 0b101 o
  | .xorRmReg d o => encodeRmr 0b001100 d o
  | .xorAccImm o => encodeAcci 0b0011010 o
  | .xorRmImm o => encodeRmi 0b100000 0b110 o
  | .cmpRmReg d o => encodeRmr 0b001110 d o
  | .cmpAccImm o => encodeAcci 0b0011110 o
  | .cmpRmImm o => encodeRmi 0b100000 0b111 o
  | .testRmReg o => encodeRmr0 0b1000010 o
  | .testAccImm o => encodeAcci 0b1010100 o
  | .testRmImm o => encodeRmi0 0b1111011 0b000 o
  | .movRmReg d o => encodeRmr 0b100010 d o
  | .movRmImm o => encodeRmi0 0b1100011 0b000 o
  | .daa => [0b00100111]
  | .das => [0b00101111]
  | .aaa => [0b00110111]
  | .aas => [0b00111111]
  | .aam => [0b11010100, 0b00001010]
  | .aad => [0b11010101, 0b00001010]
  | .div o => encodeRmxw 0b1111011 0b110 o
  | .idiv o => encodeRmxw 0b1111011 0b111 o
  | .callNear v => 0b11101000 :: wordBytes v
  | .callRm rm => 0b11111111 :: encodeRm Reg16.code 0b010 rm
  | .callFar v v2 => 0b10011010 :: wordBytes v ++ wordBytes v2
  | .callFarRm rm => 0b11111111 :: encodeRm Reg16.code 0b011 rm
  | .jmpNear v => 0b11101001 :: wordBytes v
  | .jmpRm rm => 0b11111111 :: encodeRm Reg16.code 0b100 rm
  | .jmpFar v v2 => 0b11101010 :: wordBytes v ++ wordBytes v2
  | .jmpFarRm rm => 0b11111111 :: encodeRm Reg16.code 0b101 rm

/-! ## Lengths (R108) -/

/-- `dispbytes(mod, rm)`. -/
def Rm.dispBytes {R : Type} : Rm R → Nat
  | .reg _ => 0
  | .mem (.direct _) => 2
  | .mem (.noDisp _) => 0
  | .mem (.disp8 _ _) => 1
  | .mem (.disp16 _ _) => 2

/-- Formats `RMR` and `RMR0`. -/
def RmReg.len : RmReg → Nat
  | .byte rm _ => 2 + rm.dispBytes
  | .word rm _ => 2 + rm.dispBytes

/-- Format `RMI`: two immediate bytes if `s = 0` and `w = 1`, else one. -/
def RmImmS.len : RmImmS → Nat
  | .byte _ rm _ => 2 + rm.dispBytes + 1
  | .word rm _ => 2 + rm.dispBytes + 2
  | .wordSext rm _ => 2 + rm.dispBytes + 1

/-- Format `RMI0`. -/
def RmImm.len : RmImm → Nat
  | .byte rm _ => 2 + rm.dispBytes + 1
  | .word rm _ => 2 + rm.dispBytes + 2

/-- Format `ACCI`. -/
def AccImm.len : AccImm → Nat
  | .byte _ => 2
  | .word _ => 3

/-- Format `RMX` with `w`. -/
def RmX.len : RmX → Nat
  | .byte rm => 2 + rm.dispBytes
  | .word rm => 2 + rm.dispBytes

/-- The matched byte length of an instruction. -/
def Instr.len : Instr → Nat
  | .addRmReg _ o | .orRmReg _ o | .adcRmReg _ o | .sbbRmReg _ o | .andRmReg _ o | .subRmReg _ o
  | .xorRmReg _ o | .cmpRmReg _ o | .testRmReg o | .movRmReg _ o => o.len
  | .addRmImm o | .orRmImm o | .adcRmImm o | .sbbRmImm o | .andRmImm o | .subRmImm o
  | .xorRmImm o | .cmpRmImm o => o.len
  | .testRmImm o | .movRmImm o => o.len
  | .addAccImm o | .orAccImm o | .adcAccImm o | .sbbAccImm o | .andAccImm o | .subAccImm o
  | .xorAccImm o | .cmpAccImm o | .testAccImm o => o.len
  | .div o | .idiv o => o.len
  | .daa | .das | .aaa | .aas => 1
  | .aam | .aad => 2
  | .callRm rm | .callFarRm rm | .jmpRm rm | .jmpFarRm rm => 2 + rm.dispBytes
  | .callNear _ | .jmpNear _ => 3
  | .callFar _ _ | .jmpFar _ _ => 5

/-! ## The host's words -/

/-- The longest instruction (R108). -/
def maxLen : Nat := 6

/-- The six stream bytes of a table word: the opcode table reads a row's leading bytes as one number "first byte
leftmost", so the first byte is the most significant of the `nbits` bits (log 8); the bytes after them are zero. -/
def tableBytes (nbits w : Nat) : List Byte :=
  let n := (nbits + 7) / 8
  ((List.range n).map fun k => BitVec.ofNat 8 (w >>> (8 * (n - 1 - k)))) ++ List.replicate (maxLen - n) 0

/-- The instruction that `decode` reads from a word numbered as `spec/opcode_table.json` numbers its bits. -/
def decodeTableWord (nbits w : Nat) : Option Instr :=
  match decode (tableBytes nbits w) with
  | .matched i _ => some i
  | .noMatch | .malformedField => none

end Sys2Proof
end

