-- ==== Sys2Proof/Machine/Ops.lean ====
section
/-! DEFINITION. The named operations over registers, memory, the stack, the instruction stream and faults: the
pseudocode primitives of `00_scope.md` R12. -/

/-! ## The halves of the 16-bit registers -/

namespace Sys2Proof

/-- The 16-bit register that an 8-bit register is a half of (R24). -/
def Reg8.parent : Reg8 → Reg16
  | .al | .ah => .ax
  | .cl | .ch => .cx
  | .dl | .dh => .dx
  | .bl | .bh => .bx

/-- The 8-bit register is bits 15:8 of its parent (R24). -/
def Reg8.isHigh : Reg8 → Bool
  | .al | .cl | .dl | .bl => false
  | .ah | .ch | .dh | .bh => true

end Sys2Proof

namespace Sys2Proof.Machine

/-! ## Registers -/

/-- `reg16[n]` (`10_state.md` R23). -/
def State.reg16 (s : State) : Reg16 → Word
  | .ax => s.regs.AX
  | .cx => s.regs.CX
  | .dx => s.regs.DX
  | .bx => s.regs.BX
  | .sp => s.regs.SP
  | .bp => s.regs.BP
  | .si => s.regs.SI
  | .di => s.regs.DI

/-- The registers with `r` holding `v`. -/
def Regs.set (g : Regs) (r : Reg16) (v : Word) : Regs :=
  match r with
  | .ax => { g with AX := v }
  | .cx => { g with CX := v }
  | .dx => { g with DX := v }
  | .bx => { g with BX := v }
  | .sp => { g with SP := v }
  | .bp => { g with BP := v }
  | .si => { g with SI := v }
  | .di => { g with DI := v }

/-- `reg16[n] <- v` (R23). -/
def State.setReg16 (s : State) (r : Reg16) (v : Word) : State := { s with regs := s.regs.set r v }

/-- `reg8[n]` (R24). -/
def State.reg8 (s : State) (r : Reg8) : Byte :=
  if r.isHigh then highByte (s.reg16 r.parent) else lowByte (s.reg16 r.parent)

/-- `reg8[n] <- v`: the other half stays (R24). -/
def State.setReg8 (s : State) (r : Reg8) (v : Byte) : State :=
  let old := s.reg16 r.parent
  s.setReg16 r.parent
    (if r.isHigh then wordOf (lowByte old) v else wordOf v (highByte old))

/-- The current value of a segment register (R32). -/
def State.seg (s : State) : SegReg → Word
  | .es => s.segs.ES
  | .cs => s.segs.CS
  | .ss => s.segs.SS
  | .ds => s.segs.DS

/-- `CS <- v`; no other segment register is ever written (R32). -/
def State.setCS (s : State) (v : Word) : State := { s with segs := { s.segs with CS := v } }

/-- `IP <- v` (R27). -/
def State.setIP (s : State) (v : Word) : State := { s with ip := v }

/-- The offset of the following instruction, `(IP + len) mod 2^16` (R28, `46_control_transfer.md` R240). -/
def State.nextIP (s : State) (len : Nat) : Word := s.ip + BitVec.ofNat 16 len

/-- `IP <- (IP + len) mod 2^16` (R28). -/
def State.advance (s : State) (len : Nat) : State := s.setIP (s.nextIP len)

/-- The flags replaced. -/
def State.setFlags (s : State) (f : Flags) : State := { s with flags := f }

/-! ## Memory cells -/

/-- The byte at a physical address. -/
def Memory.read : Memory → Nat → Byte
  | [], _ => Config.unlistedByte
  | (k, v) :: m, a => if k = a then v else Memory.read m a

/-- No entry for the address. -/
def Memory.remove (m : Memory) (a : Nat) : Memory := m.filter (fun c => c.1 != a)

/-- An entry put before the first entry of a higher address. -/
def Memory.insertCell : Memory → Nat → Byte → Memory
  | [], a, v => [(a, v)]
  | (k, w) :: m, a, v => if a < k then (a, v) :: (k, w) :: m else (k, w) :: Memory.insertCell m a v

/-- The byte at a physical address replaced, in canonical form. -/
def Memory.write (m : Memory) (a : Nat) (v : Byte) : Memory :=
  if v = Config.unlistedByte then Memory.remove m a else Memory.insertCell (Memory.remove m a) a v

/-! ## Memory through segment and offset -/

/-- `PHYS_BITS` (R6, D3). -/
def State.physBits (s : State) : Nat := 20 + s.cfg.extraAddressBits

/-- `Phys(seg, off)` (`20_memory.md` R51). -/
def State.phys (s : State) (seg off : Word) : Nat := (seg.toNat * 0x10 + off.toNat) % 2 ^ s.physBits

/-- `MemRead(seg, off, 1)` (R55). -/
def State.memRead8 (s : State) (seg off : Word) : Byte := Memory.read s.mem (s.phys seg off)

/-- `MemRead(seg, off, 2)`: the high byte's offset wraps inside the segment (R55). -/
def State.memRead16 (s : State) (seg off : Word) : Word :=
  wordOf (s.memRead8 seg off) (s.memRead8 seg (off + 1))

/-- `MemWrite(seg, off, 1, v)` (R56). -/
def State.memWrite8 (s : State) (seg off : Word) (v : Byte) : State :=
  { s with mem := Memory.write s.mem (s.phys seg off) v }

/-- `MemWrite(seg, off, 2, v)`: the low byte first (R56). -/
def State.memWrite16 (s : State) (seg off : Word) (v : Word) : State :=
  (s.memWrite8 seg off (lowByte v)).memWrite8 seg (off + 1) (highByte v)

/-! ## The stack (R66) -/

/-- `Push16(v)`: SP falls by 2, then the word is stored at SS:SP. -/
def State.push16 (s : State) (v : Word) : State :=
  let sp := s.reg16 .sp - 2
  (s.setReg16 .sp sp).memWrite16 (s.seg .ss) sp v

/-! ## Host inputs and the instruction stream -/

/-- The inputs of the coming step: the first of those lined up, or the default ones. -/
def State.input (s : State) : StepInput := s.inputs.headD {}

/-- The step's input has been used. -/
def State.dropInput (s : State) : State := { s with inputs := s.inputs.tail }

/-- `Fetch(k)`: absent past the end of a supplied stream (R67, `00_scope.md` R9). -/
def State.fetch (s : State) (k : Nat) : Option Byte :=
  match s.input.stream with
  | .memory => some (s.memRead8 (s.seg .cs) (s.ip + BitVec.ofNat 16 k))
  | .supplied bytes offset => bytes[offset + k]?

/-- The bytes that the decoder may look at: up to six (R67). Reading them has no effect. -/
def State.fetchBytes (s : State) : List Byte := (List.range maxLen).filterMap s.fetch

/-! ## Taking a fault -/

/-- `raise Fault(cause)` (`60_exceptions.md` R274, R279): the step ends with the cause. Nothing is saved, masked, pushed
or vectored to, and no state changes. There is no return from a fault (R280). -/
def raise (cause : Fault) (_s : State) : Host.Outcome State Fault Refusal := .fault cause

end Sys2Proof.Machine
end

