-- ==== Sys2Proof/Machine/Operands.lean ====
section
/-! DEFINITION. The operand resolver (`40_operand_resolver.md`): from operand fields to locations, and reading and
writing a location. A location holds the recipe of an address, not the address, so every access recomputes it. -/

namespace Sys2Proof

/-- The registers that a base combination sums (`30_encoding.md` R85). -/
def Base.regs : Base → List Reg16
  | .bxsi => [.bx, .si]
  | .bxdi => [.bx, .di]
  | .bpsi => [.bp, .si]
  | .bpdi => [.bp, .di]
  | .si => [.si]
  | .di => [.di]
  | .bp => [.bp]
  | .bx => [.bx]

/-- "default segment is DS unless the base combination includes BP, then SS" (R146). -/
def Base.defaultSeg (b : Base) : SegReg := if .bp ∈ b.regs then .ss else .ds

/-- The base combination of a memory operand; a direct address has none (R144). -/
def MemOp.base : MemOp → Option Base
  | .direct _ => none
  | .noDisp b | .disp8 b _ | .disp16 b _ => some b

/-- The addend: the direct address, zero, the sign-extended displacement byte or the displacement word (R143). -/
def MemOp.addend : MemOp → Word
  | .direct ea => ea
  | .noDisp _ => 0
  | .disp8 _ d => sext16 d
  | .disp16 _ d => d

/-- The default segment selector of a memory operand (R146). -/
def MemOp.defaultSeg (m : MemOp) : SegReg :=
  match m.base with
  | none => .ds
  | some b => b.defaultSeg

end Sys2Proof

namespace Sys2Proof.Machine

/-- An operand location (R140): `Loc Reg8` is `Reg8(n)` or `Mem8(segsel, base, addend)`, `Loc Reg16` is `Reg16(n)` or
`Mem16(segsel, base, addend)`. -/
inductive Loc (R : Type) where
  | reg (r : R)
  | mem (segsel : SegReg) (base : Option Base) (addend : Word)
deriving DecidableEq, Repr

/-- The location of a memory operand under the step's override, if there is one (R147). -/
def memLoc {R : Type} (segovr : Option SegReg) (m : MemOp) : Loc R :=
  .mem (segovr.getD m.defaultSeg) m.base m.addend

/-- The location of an `rm` operand (R142, R143). -/
def State.rmLoc {R : Type} (s : State) : Rm R → Loc R
  | .reg r => .reg r
  | .mem m => memLoc s.input.segovr m

/-- The sum, mod 2^16, of the current values of the registers of a base (R143). -/
def State.baseSum (s : State) : Option Base → Word
  | none => 0
  | some b => (b.regs.map s.reg16).foldl (· + ·) 0

/-- `EA` of a memory location (R143). -/
def State.ea (s : State) (base : Option Base) (addend : Word) : Word := s.baseSum base + addend

/-- `Get(loc)` of a byte location (R150). -/
def State.get8 (s : State) : Loc Reg8 → Byte
  | .reg r => s.reg8 r
  | .mem sel base addend => s.memRead8 (s.seg sel) (s.ea base addend)

/-- `Get(loc)` of a word location (R150). -/
def State.get16 (s : State) : Loc Reg16 → Word
  | .reg r => s.reg16 r
  | .mem sel base addend => s.memRead16 (s.seg sel) (s.ea base addend)

/-- `Set(loc, v)` of a byte location (R151). -/
def State.set8 (s : State) (l : Loc Reg8) (v : Byte) : State :=
  match l with
  | .reg r => s.setReg8 r v
  | .mem sel base addend => s.memWrite8 (s.seg sel) (s.ea base addend) v

/-- `Set(loc, v)` of a word location (R151). -/
def State.set16 (s : State) (l : Loc Reg16) (v : Word) : State :=
  match l with
  | .reg r => s.setReg16 r v
  | .mem sel base addend => s.memWrite16 (s.seg sel) (s.ea base addend) v

/-- `Next(loc)` of a word location: the word two bytes further on in the same segment; absent for a register (R152). -/
def Loc.next : Loc Reg16 → Option (Loc Reg16)
  | .reg _ => none
  | .mem sel base addend => some (.mem sel base (addend + 2))

/-- `Next(loc)` of a byte location: absent (R152). -/
def Loc.next8 : Loc Reg8 → Option (Loc Reg8)
  | .reg _ => none
  | .mem _ _ _ => none

end Sys2Proof.Machine
end

