-- ==== Sys2Proof/Machine/Adjust.lean ====
section
/-! DEFINITION. Decimal and ASCII adjust (`44_decimal_adjust.md`), the strict convention of R209: all arithmetic on AL
and AH is done separately on 8 bits. -/

namespace Sys2Proof.Machine

/-- "low nibble>9 or AF set": the test of the first correction of AAA, AAS, DAA and DAS. -/
def needsNibbleAdjust (s : State) : Bool := decide (lowNibble (s.reg8 .al) > 9) || s.flags.AF

/-- AAA and AAS after their test: AL and AH written, CF and AF both written with `adj` (R210, R211). -/
def asciiAdjust (adj : Bool) (al ah : Byte) (s : State) : State :=
  (((s.setReg8 .al (al &&& 0x0F)).setReg8 .ah ah).setFlags
    { s.flags with CF := adj, AF := adj }).advance 1

/-- DAA and DAS after their algorithm: AL written, CF and AF as computed, ZF, SF and PF from the new AL (R212, R213). -/
def decimalAdjust (al : Byte) (cf af : Bool) (s : State) : State :=
  ((s.setReg8 .al al).setFlags { setSZP al s.flags with CF := cf, AF := af }).advance 1

/-- AAM and AAD after their arithmetic: AL and AH written, ZF, SF and PF from the new AL (R214, R215). -/
def radixAdjust (al ah : Byte) (s : State) : State :=
  (((s.setReg8 .al al).setReg8 .ah ah).setFlags (setSZP al s.flags)).advance 2

/-- AAA, ASCII adjust AL after addition (R210). -/
def execAaa (s : State) : Host.Outcome State Fault Refusal :=
  .next <|
    if needsNibbleAdjust s then asciiAdjust true (s.reg8 .al + 6) (s.reg8 .ah + 1) s
    else asciiAdjust false (s.reg8 .al) (s.reg8 .ah) s

/-- AAS, ASCII adjust AL after subtraction (R211). -/
def execAas (s : State) : Host.Outcome State Fault Refusal :=
  .next <|
    if needsNibbleAdjust s then asciiAdjust true (s.reg8 .al - 6) (s.reg8 .ah - 1) s
    else asciiAdjust false (s.reg8 .al) (s.reg8 .ah) s

/-- DAA, decimal adjust AL after addition (R212). The second test sets or clears CF, so the carry of the first step does
not outlive it. -/
def execDaa (s : State) : Host.Outcome State Fault Refusal :=
  let old := s.reg8 .al
  let low := needsNibbleAdjust s
  let high := decide (old.toNat > 0x99) || s.flags.CF
  let al1 := if low then old + 6 else old
  .next (decimalAdjust (if high then al1 + 0x60 else al1) high low s)

/-- DAS, decimal adjust AL after subtraction (R213). The second test only sets CF: where it is not taken, CF keeps what
the first step gave it, `old_CF | (AL < 6)` or 0. -/
def execDas (s : State) : Host.Outcome State Fault Refusal :=
  let old := s.reg8 .al
  let low := needsNibbleAdjust s
  let high := decide (old.toNat > 0x99) || s.flags.CF
  let al1 := if low then old - 6 else old
  let cf1 := low && (s.flags.CF || decide (old.toNat < 6))
  .next (decimalAdjust (if high then al1 - 0x60 else al1) (high || cf1) low s)

/-- AAM, ASCII adjust AX after multiply: the base-10 quotient and remainder of AL (R214). -/
def execAam (s : State) : Host.Outcome State Fault Refusal :=
  let t := (s.reg8 .al).toNat
  .next (radixAdjust (BitVec.ofNat 8 (t % 10)) (BitVec.ofNat 8 (t / 10)) s)

/-- AAD, ASCII adjust AX before division (R215). -/
def execAad (s : State) : Host.Outcome State Fault Refusal :=
  .next (radixAdjust (BitVec.ofNat 8 ((s.reg8 .ah).toNat * 10 + (s.reg8 .al).toNat)) 0 s)

end Sys2Proof.Machine
end

