-- ==== Sys2Proof/Machine/Alu.lean ====
section
/-! DEFINITION. Two-operand arithmetic and logic (`42_alu.md`): ADD, OR, ADC, SBB, AND, SUB, XOR, CMP in the formats
`RMR`, `ACCI`, `RMI`, and TEST in `RMR0`, `ACCI`, `RMI0`. -/

namespace Sys2Proof.Machine

/-- The operations that the common handler of R183 runs. -/
inductive AluOp where
  | add | or | adc | sbb | and | sub | xor | cmp | test
deriving DecidableEq, Repr

/-- The masked result of an operation on `a` (the destination) and `b` (the source), with the old CF (R184 to R192). -/
def AluOp.result {W : Nat} (op : AluOp) (a b : BitVec W) (f : Flags) : BitVec W :=
  match op with
  | .add => addResult a b false
  | .adc => addResult a b f.CF
  | .sub | .cmp => subResult a b false
  | .sbb => subResult a b f.CF
  | .and | .test => a &&& b
  | .or => a ||| b
  | .xor => a ^^^ b

/-- The flags after an operation (R184 to R192; `10_state.md` R30). -/
def AluOp.flags {W : Nat} (op : AluOp) (a b : BitVec W) (f : Flags) : Flags :=
  match op with
  | .add => flagsAdd a b false f
  | .adc => flagsAdd a b f.CF f
  | .sub | .cmp => flagsSub a b false f
  | .sbb => flagsSub a b f.CF f
  | .and | .test => flagsLogic (a &&& b) f
  | .or => flagsLogic (a ||| b) f
  | .xor => flagsLogic (a ^^^ b) f

/-- "write back (except CMP/TEST, which discard the result)". -/
def AluOp.writesBack : AluOp → Bool
  | .add | .or | .adc | .sbb | .and | .sub | .xor => true
  | .cmp | .test => false

/-- The common handler of R183 for a byte destination: `b` has been read already; `a` is read, then the flags and the
result are written, then IP. -/
def aluTo8 (op : AluOp) (dst : Loc Reg8) (b : Byte) (len : Nat) (s : State) : State :=
  let a := s.get8 dst
  let t := s.setFlags (op.flags a b s.flags)
  (if op.writesBack then t.set8 dst (op.result a b s.flags) else t).advance len

/-- The common handler of R183 for a word destination. -/
def aluTo16 (op : AluOp) (dst : Loc Reg16) (b : Word) (len : Nat) (s : State) : State :=
  let a := s.get16 dst
  let t := s.setFlags (op.flags a b s.flags)
  (if op.writesBack then t.set16 dst (op.result a b s.flags) else t).advance len

/-- Format `RMR` (R180): `d` says which of the two operands is the destination. -/
def aluRmReg (op : AluOp) (d : Dir) (o : RmReg) (s : State) : State :=
  match d, o with
  | .toRm, .byte rm reg => aluTo8 op (s.rmLoc rm) (s.reg8 reg) o.len s
  | .toReg, .byte rm reg => aluTo8 op (.reg reg) (s.get8 (s.rmLoc rm)) o.len s
  | .toRm, .word rm reg => aluTo16 op (s.rmLoc rm) (s.reg16 reg) o.len s
  | .toReg, .word rm reg => aluTo16 op (.reg reg) (s.get16 (s.rmLoc rm)) o.len s

/-- Format `ACCI` (R182): the destination is AL or AX. -/
def aluAccImm (op : AluOp) (o : AccImm) (s : State) : State :=
  match o with
  | .byte v => aluTo8 op (.reg .al) v o.len s
  | .word v => aluTo16 op (.reg .ax) v o.len s

/-- Format `RMI` (R181): the immediate of `30_encoding.md` R90. -/
def aluRmImmS (op : AluOp) (o : RmImmS) (s : State) : State :=
  match o with
  | .byte _ rm v => aluTo8 op (s.rmLoc rm) v o.len s
  | .word rm v => aluTo16 op (s.rmLoc rm) v o.len s
  | .wordSext rm v => aluTo16 op (s.rmLoc rm) (sext16 v) o.len s

/-- Format `RMI0` (R192): an immediate of full width. -/
def aluRmImm (op : AluOp) (o : RmImm) (s : State) : State :=
  match o with
  | .byte rm v => aluTo8 op (s.rmLoc rm) v o.len s
  | .word rm v => aluTo16 op (s.rmLoc rm) v o.len s

/-- ADD with register and register or memory (R184). -/
def execAddRmReg (d : Dir) (o : RmReg) (s : State) : Host.Outcome State Fault Refusal := .next (aluRmReg .add d o s)

/-- ADD of an immediate to AL or AX (R184). -/
def execAddAccImm (o : AccImm) (s : State) : Host.Outcome State Fault Refusal := .next (aluAccImm .add o s)

/-- ADD of an immediate to a register or memory (R184). -/
def execAddRmImm (o : RmImmS) (s : State) : Host.Outcome State Fault Refusal := .next (aluRmImmS .add o s)

/-- OR with register and register or memory (R185). -/
def execOrRmReg (d : Dir) (o : RmReg) (s : State) : Host.Outcome State Fault Refusal := .next (aluRmReg .or d o s)

/-- OR of an immediate to AL or AX (R185). -/
def execOrAccImm (o : AccImm) (s : State) : Host.Outcome State Fault Refusal := .next (aluAccImm .or o s)

/-- OR of an immediate to a register or memory (R185). -/
def execOrRmImm (o : RmImmS) (s : State) : Host.Outcome State Fault Refusal := .next (aluRmImmS .or o s)

/-- ADC with register and register or memory (R186). -/
def execAdcRmReg (d : Dir) (o : RmReg) (s : State) : Host.Outcome State Fault Refusal := .next (aluRmReg .adc d o s)

/-- ADC of an immediate to AL or AX (R186). -/
def execAdcAccImm (o : AccImm) (s : State) : Host.Outcome State Fault Refusal := .next (aluAccImm .adc o s)

/-- ADC of an immediate to a register or memory (R186). -/
def execAdcRmImm (o : RmImmS) (s : State) : Host.Outcome State Fault Refusal := .next (aluRmImmS .adc o s)

/-- SBB with register and register or memory (R187). -/
def execSbbRmReg (d : Dir) (o : RmReg) (s : State) : Host.Outcome State Fault Refusal := .next (aluRmReg .sbb d o s)

/-- SBB of an immediate to AL or AX (R187). -/
def execSbbAccImm (o : AccImm) (s : State) : Host.Outcome State Fault Refusal := .next (aluAccImm .sbb o s)

/-- SBB of an immediate to a register or memory (R187). -/
def execSbbRmImm (o : RmImmS) (s : State) : Host.Outcome State Fault Refusal := .next (aluRmImmS .sbb o s)

/-- AND with register and register or memory (R188). -/
def execAndRmReg (d : Dir) (o : RmReg) (s : State) : Host.Outcome State Fault Refusal := .next (aluRmReg .and d o s)

/-- AND of an immediate to AL or AX (R188). -/
def execAndAccImm (o : AccImm) (s : State) : Host.Outcome State Fault Refusal := .next (aluAccImm .and o s)

/-- AND of an immediate to a register or memory (R188). -/
def execAndRmImm (o : RmImmS) (s : State) : Host.Outcome State Fault Refusal := .next (aluRmImmS .and o s)

/-- SUB with register and register or memory (R189). -/
def execSubRmReg (d : Dir) (o : RmReg) (s : State) : Host.Outcome State Fault Refusal := .next (aluRmReg .sub d o s)

/-- SUB of an immediate to AL or AX (R189). -/
def execSubAccImm (o : AccImm) (s : State) : Host.Outcome State Fault Refusal := .next (aluAccImm .sub o s)

/-- SUB of an immediate to a register or memory (R189). -/
def execSubRmImm (o : RmImmS) (s : State) : Host.Outcome State Fault Refusal := .next (aluRmImmS .sub o s)

/-- XOR with register and register or memory (R190). -/
def execXorRmReg (d : Dir) (o : RmReg) (s : State) : Host.Outcome State Fault Refusal := .next (aluRmReg .xor d o s)

/-- XOR of an immediate to AL or AX (R190). -/
def execXorAccImm (o : AccImm) (s : State) : Host.Outcome State Fault Refusal := .next (aluAccImm .xor o s)

/-- XOR of an immediate to a register or memory (R190). -/
def execXorRmImm (o : RmImmS) (s : State) : Host.Outcome State Fault Refusal := .next (aluRmImmS .xor o s)

/-- CMP with register and register or memory (R191). -/
def execCmpRmReg (d : Dir) (o : RmReg) (s : State) : Host.Outcome State Fault Refusal := .next (aluRmReg .cmp d o s)

/-- CMP of an immediate to AL or AX (R191). -/
def execCmpAccImm (o : AccImm) (s : State) : Host.Outcome State Fault Refusal := .next (aluAccImm .cmp o s)

/-- CMP of an immediate to a register or memory (R191). -/
def execCmpRmImm (o : RmImmS) (s : State) : Host.Outcome State Fault Refusal := .next (aluRmImmS .cmp o s)

/-- TEST with register and register or memory: `a` is the `rm` operand, `b` the `reg` operand (R192). -/
def execTestRmReg (o : RmReg) (s : State) : Host.Outcome State Fault Refusal := .next (aluRmReg .test .toRm o s)

/-- TEST of AL or AX with an immediate (R192). -/
def execTestAccImm (o : AccImm) (s : State) : Host.Outcome State Fault Refusal := .next (aluAccImm .test o s)

/-- TEST of a register or memory with an immediate (R192). -/
def execTestRmImm (o : RmImm) (s : State) : Host.Outcome State Fault Refusal := .next (aluRmImm .test o s)

end Sys2Proof.Machine
end

