-- ==== Sys2Proof/Machine/Control.lean ====
section
/-! DEFINITION. Control transfer (`46_control_transfer.md`): CALL and JMP in four forms each. The target is obtained
first, then the pushes are made, CS before the return offset, then CS and IP are written (R241). -/

namespace Sys2Proof.Machine

/-- A near CALL of a known target: the return address is pushed, then IP written (R241, R243, R245). -/
def callNearTo (target : Word) (len : Nat) (s : State) : State := (s.push16 (s.nextIP len)).setIP target

/-- A far CALL of a known target: CS is pushed, then the return offset; then CS and IP are written (R241, R247, R249). -/
def callFarTo (off seg : Word) (len : Nat) (s : State) : State :=
  (((s.push16 (s.seg .cs)).push16 (s.nextIP len)).setCS seg).setIP off

/-- A far JMP of a known target (R248, R250). -/
def jmpFarTo (off seg : Word) (s : State) : State := (s.setCS seg).setIP off

/-- The far target in memory, "offset then segment"; `none` where `Next` is absent, that is for a register (R249,
R250, `40_operand_resolver.md` R152). -/
def State.farTarget (s : State) (l : Loc Reg16) : Option (Word × Word) :=
  l.next.map fun n => (s.get16 l, s.get16 n)

/-- CALL near-relative (R243). -/
def execCallNear (val : Word) (s : State) : Host.Outcome State Fault Refusal :=
  .next (callNearTo (s.nextIP 3 + val) 3 s)

/-- CALL near-indirect: the target is read before the push (R245). -/
def execCallRm (rm : Rm Reg16) (s : State) : Host.Outcome State Fault Refusal :=
  .next (callNearTo (s.get16 (s.rmLoc rm)) (2 + rm.dispBytes) s)

/-- CALL far-direct: `val` is the offset, `val2` the segment (R247). -/
def execCallFar (val val2 : Word) (s : State) : Host.Outcome State Fault Refusal :=
  .next (callFarTo val val2 5 s)

/-- CALL far-indirect: a register operand has no `Next` and faults (R249, `60_exceptions.md` R271). -/
def execCallFarRm (rm : Rm Reg16) (s : State) : Host.Outcome State Fault Refusal :=
  match s.farTarget (s.rmLoc rm) with
  | none => raise .unresolvableFarTarget s
  | some (off, seg) => .next (callFarTo off seg (2 + rm.dispBytes) s)

/-- JMP near-relative (R244). -/
def execJmpNear (val : Word) (s : State) : Host.Outcome State Fault Refusal :=
  .next (s.setIP (s.nextIP 3 + val))

/-- JMP near-indirect (R246). -/
def execJmpRm (rm : Rm Reg16) (s : State) : Host.Outcome State Fault Refusal :=
  .next (s.setIP (s.get16 (s.rmLoc rm)))

/-- JMP far-direct (R248). -/
def execJmpFar (val val2 : Word) (s : State) : Host.Outcome State Fault Refusal :=
  .next (jmpFarTo val val2 s)

/-- JMP far-indirect (R250). -/
def execJmpFarRm (rm : Rm Reg16) (s : State) : Host.Outcome State Fault Refusal :=
  match s.farTarget (s.rmLoc rm) with
  | none => raise .unresolvableFarTarget s
  | some (off, seg) => .next (jmpFarTo off seg s)

end Sys2Proof.Machine
end

