-- ==== Sys2Proof/Machine/Divide.lean ====
section
/-! DEFINITION. Division (`45_divide.md`): DIV and IDIV in the format `RMX`. -/

namespace Sys2Proof.Machine

/-- Quotient and remainder of R231, or `none` where it raises `DivideError`: the divisor is zero, or the quotient does
not fit in `W` bits. -/
def unsignedDivide (W n v : Nat) : Option (BitVec W × BitVec W) :=
  if v = 0 then none
  else if n / v > 2 ^ W - 1 then none
  else some (BitVec.ofNat W (n / v), BitVec.ofNat W (n % v))

/-- `IDIV_MIN_W` (`00_scope.md` R6, D17). -/
def idivMin (limit : IdivLimit) (W : Nat) : Int :=
  match limit with
  | .symmetric => -(2 ^ (W - 1) - 1)
  | .full => -2 ^ (W - 1)

/-- Quotient truncated toward zero and remainder of R232, or `none` where it raises `DivideError`. -/
def signedDivide (limit : IdivLimit) (W : Nat) (n v : Int) : Option (BitVec W × BitVec W) :=
  if v = 0 then none
  else if n.tdiv v > 2 ^ (W - 1) - 1 ∨ n.tdiv v < idivMin limit W then none
  else some (BitVec.ofInt W (n.tdiv v), BitVec.ofInt W (n.tmod v))

/-- The dividend of a word division, `DX * 2^16 + AX` (R230). -/
def State.dxax (s : State) : BitVec 32 := BitVec.ofNat 32 ((s.reg16 .dx).toNat * 65536 + (s.reg16 .ax).toNat)

/-- A byte division ends: AL the quotient, AH the remainder, or the fault (R231, R232). -/
def finishDivide8 (r : Option (Byte × Byte)) (len : Nat) (s : State) : Host.Outcome State Fault Refusal :=
  match r with
  | none => raise .divideError s
  | some (q, m) => .next (((s.setReg8 .al q).setReg8 .ah m).advance len)

/-- A word division ends: AX the quotient, DX the remainder, or the fault (R231, R232). -/
def finishDivide16 (r : Option (Word × Word)) (len : Nat) (s : State) : Host.Outcome State Fault Refusal :=
  match r with
  | none => raise .divideError s
  | some (q, m) => .next (((s.setReg16 .ax q).setReg16 .dx m).advance len)

/-- DIV, unsigned divide (R231). No flag is written. -/
def execDiv (o : RmX) (s : State) : Host.Outcome State Fault Refusal :=
  match o with
  | .byte rm =>
    finishDivide8 (unsignedDivide 8 (s.reg16 .ax).toNat (s.get8 (s.rmLoc rm)).toNat) o.len s
  | .word rm =>
    finishDivide16 (unsignedDivide 16 s.dxax.toNat (s.get16 (s.rmLoc rm)).toNat) o.len s

/-- IDIV, signed divide (R232). No flag is written. -/
def execIdiv (o : RmX) (s : State) : Host.Outcome State Fault Refusal :=
  match o with
  | .byte rm =>
    finishDivide8 (signedDivide s.cfg.idivLimit 8 (s.reg16 .ax).toInt (s.get8 (s.rmLoc rm)).toInt) o.len s
  | .word rm =>
    finishDivide16 (signedDivide s.cfg.idivLimit 16 s.dxax.toInt (s.get16 (s.rmLoc rm)).toInt) o.len s

end Sys2Proof.Machine
end

