-- ==== Sys2Proof/Machine/Mov.lean ====
section
/-! DEFINITION. Data movement (`43_mov.md`): MOV in the formats `RMR` and `RMI0`. -/

namespace Sys2Proof.Machine

/-- MOV with register and register or memory (R200). The destination is not read; no flag is written. -/
def execMovRmReg (d : Dir) (o : RmReg) (s : State) : Host.Outcome State Fault Refusal :=
  .next <|
    (match d, o with
      | .toRm, .byte rm reg => s.set8 (s.rmLoc rm) (s.reg8 reg)
      | .toReg, .byte rm reg => s.set8 (.reg reg) (s.get8 (s.rmLoc rm))
      | .toRm, .word rm reg => s.set16 (s.rmLoc rm) (s.reg16 reg)
      | .toReg, .word rm reg => s.set16 (.reg reg) (s.get16 (s.rmLoc rm))).advance o.len

/-- MOV of an immediate to a register or memory (R201). -/
def execMovRmImm (o : RmImm) (s : State) : Host.Outcome State Fault Refusal :=
  .next <|
    (match o with
      | .byte rm v => s.set8 (s.rmLoc rm) v
      | .word rm v => s.set16 (s.rmLoc rm) v).advance o.len

end Sys2Proof.Machine
end

