-- ==== Sys2Proof/Machine/Dispatch.lean ====
section
/-! DEFINITION. The execute phase of a step (`00_scope.md` R8): each instruction's meaning. -/

namespace Sys2Proof.Machine

def exec (i : Instr) (s : State) : Host.Outcome State Fault Refusal :=
  match i with
  | .addRmReg d o => Sys2Proof.Machine.execAddRmReg d o s
  | .addAccImm o => Sys2Proof.Machine.execAddAccImm o s
  | .addRmImm o => Sys2Proof.Machine.execAddRmImm o s
  | .orRmReg d o => Sys2Proof.Machine.execOrRmReg d o s
  | .orAccImm o => Sys2Proof.Machine.execOrAccImm o s
  | .orRmImm o => Sys2Proof.Machine.execOrRmImm o s
  | .adcRmReg d o => Sys2Proof.Machine.execAdcRmReg d o s
  | .adcAccImm o => Sys2Proof.Machine.execAdcAccImm o s
  | .adcRmImm o => Sys2Proof.Machine.execAdcRmImm o s
  | .sbbRmReg d o => Sys2Proof.Machine.execSbbRmReg d o s
  | .sbbAccImm o => Sys2Proof.Machine.execSbbAccImm o s
  | .sbbRmImm o => Sys2Proof.Machine.execSbbRmImm o s
  | .andRmReg d o => Sys2Proof.Machine.execAndRmReg d o s
  | .andAccImm o => Sys2Proof.Machine.execAndAccImm o s
  | .andRmImm o => Sys2Proof.Machine.execAndRmImm o s
  | .subRmReg d o => Sys2Proof.Machine.execSubRmReg d o s
  | .subAccImm o => Sys2Proof.Machine.execSubAccImm o s
  | .subRmImm o => Sys2Proof.Machine.execSubRmImm o s
  | .xorRmReg d o => Sys2Proof.Machine.execXorRmReg d o s
  | .xorAccImm o => Sys2Proof.Machine.execXorAccImm o s
  | .xorRmImm o => Sys2Proof.Machine.execXorRmImm o s
  | .cmpRmReg d o => Sys2Proof.Machine.execCmpRmReg d o s
  | .cmpAccImm o => Sys2Proof.Machine.execCmpAccImm o s
  | .cmpRmImm o => Sys2Proof.Machine.execCmpRmImm o s
  | .testRmReg o => Sys2Proof.Machine.execTestRmReg o s
  | .testAccImm o => Sys2Proof.Machine.execTestAccImm o s
  | .testRmImm o => Sys2Proof.Machine.execTestRmImm o s
  | .movRmReg d o => Sys2Proof.Machine.execMovRmReg d o s
  | .movRmImm o => Sys2Proof.Machine.execMovRmImm o s
  | .daa => Sys2Proof.Machine.execDaa s
  | .das => Sys2Proof.Machine.execDas s
  | .aaa => Sys2Proof.Machine.execAaa s
  | .aas => Sys2Proof.Machine.execAas s
  | .aam => Sys2Proof.Machine.execAam s
  | .aad => Sys2Proof.Machine.execAad s
  | .div o => Sys2Proof.Machine.execDiv o s
  | .idiv o => Sys2Proof.Machine.execIdiv o s
  | .callNear val => Sys2Proof.Machine.execCallNear val s
  | .callRm rm => Sys2Proof.Machine.execCallRm rm s
  | .callFar val val2 => Sys2Proof.Machine.execCallFar val val2 s
  | .callFarRm rm => Sys2Proof.Machine.execCallFarRm rm s
  | .jmpNear val => Sys2Proof.Machine.execJmpNear val s
  | .jmpRm rm => Sys2Proof.Machine.execJmpRm rm s
  | .jmpFar val val2 => Sys2Proof.Machine.execJmpFar val val2 s
  | .jmpFarRm rm => Sys2Proof.Machine.execJmpFarRm rm s

end Sys2Proof.Machine
end

