-- ==== Sys2Proof/Machine/Step.lean ====
section
/-! DEFINITION. One step (`00_scope.md` R7): decode one instruction from the byte stream, then execute it. -/

namespace Sys2Proof.Machine

/-- What a step makes of an execute outcome: a completed step has used up its input (log 6). -/
def finishStep : Host.Outcome State Fault Refusal → Host.Outcome State Fault Refusal
  | .next t => .next t.dropInput
  | .fault r => .fault r
  | .refused r => .refused r

/-- One step. A decode outcome other than `Match` ends it (R8, `60_exceptions.md` R278); IP holds the offset of the
instruction's first byte while it executes (`10_state.md` R27). -/
def step (s : State) : Host.Outcome State Fault Refusal :=
  match decode s.fetchBytes with
  | .matched i _ => finishStep (exec i s)
  | .noMatch => .refused .noMatch
  | .malformedField => .refused .malformedField

/-- The bytes stored at CS:IP onwards, the offset wrapping inside the segment (`20_memory.md` R67). -/
def State.storeAtIP (s : State) : List Byte → Nat → State
  | [], _ => s
  | b :: bs, k => State.storeAtIP (s.memWrite8 (s.seg .cs) (s.ip + BitVec.ofNat 16 k) b) bs (k + 1)

/-- The state with the instruction of a table word (numbered as for `decodeTableWord`) where the next step fetches it:
in memory at CS:IP, or in the byte sequence that the host supplies for the next step (log 7). -/
def State.withFetchWord (s : State) (nbits w : Nat) : State :=
  match s.input.stream with
  | .memory => s.storeAtIP (tableBytes nbits w) 0
  | .supplied _ _ =>
    { s with inputs := { s.input with stream := .supplied (tableBytes nbits w) 0 } :: s.inputs.tail }

end Sys2Proof.Machine
end

