-- ==== Sys2Proof/Machine/Codec.lean ====
section
/-! DEFINITION. The bit value codec (`30_encoding.md` R96) and the matcher on binary strings (R80, R100). Text is a list
of characters throughout. -/

namespace Sys2Proof.Machine

/-! ## Bytes as text -/

/-- A byte as 8 characters, bit 7 first (R80, `00_scope.md` R10). -/
def binaryText (b : Byte) : List Char :=
  (List.range 8).map fun i => if b.getLsbD (7 - i) then '1' else '0'

/-- The value of a binary digit. -/
def binaryDigit (c : Char) : Option Nat :=
  if c = '0' then some 0 else if c = '1' then some 1 else none

/-- The value of a hexadecimal digit, upper case. -/
def hexDigit (c : Char) : Option Nat :=
  if '0' ≤ c ∧ c ≤ '9' then some (c.toNat - '0'.toNat)
  else if 'A' ≤ c ∧ c ≤ 'F' then some (c.toNat - 'A'.toNat + 10)
  else none

/-- The number that digits write in a base, the most significant first; `none` where a character is no digit. -/
def digitsValue (digit : Char → Option Nat) (base : Nat) (cs : List Char) : Option Nat :=
  cs.foldl (fun acc c => acc.bind fun n => (digit c).map fun d => n * base + d) (some 0)

/-- The byte of an 8-character binary string. -/
def byteOfBinary (cs : List Char) : Option Byte :=
  if cs.length = 8 then (digitsValue binaryDigit 2 cs).map (BitVec.ofNat 8) else none

/-- The hexadecimal digit of a value below 16, upper case. -/
def hexChar (n : Nat) : Char := "0123456789ABCDEF".toList.getD n '0'

/-- A byte as two hexadecimal digits, upper case, the most significant first. -/
def hexByte (b : Byte) : List Char := [hexChar (b.toNat / 16), hexChar (b.toNat % 16)]

/-- A word as four hexadecimal digits. -/
def hexWord (v : Word) : List Char := hexByte (highByte v) ++ hexByte (lowByte v)

/-- The byte of two hexadecimal digits. -/
def byteOfHex (cs : List Char) : Option Byte :=
  if cs.length = 2 then (digitsValue hexDigit 16 cs).map (BitVec.ofNat 8) else none

/-- The byte of an unsigned value `0 .. 255`. -/
def byteOfDecimal (n : Nat) : Option Byte := if n < 256 then some (BitVec.ofNat 8 n) else none

/-! ## Templates against binary strings -/

/-- One template against one binary string: "A literal character must equal the byte's bit at that position; a field
letter accepts either bit" (R100). -/
def templateMatches : List Char → List Char → Bool
  | [], [] => true
  | t :: ts, c :: cs => (t == c || (t != '0' && t != '1')) && templateMatches ts cs
  | _, _ => false

/-- Templates against the first bytes of a stream, in order; "any byte mismatch fails the whole match". -/
def templatesMatch : List String → List Byte → Bool
  | [], _ => true
  | _ :: _, [] => false
  | t :: ts, b :: bs => templateMatches t.toList (binaryText b) && templatesMatch ts bs

/-! ## Raw fields -/

/-- The fields of R83 to R94; `ext` is the opcode extension of R87. -/
inductive FieldName where
  | d | w | s | mod | reg | ext | rm | disp | ea | val | val2
deriving DecidableEq, Repr

/-- The field that a letter of a template of the leading bytes stands for (R80); a literal stands for none. -/
def FieldName.ofLetter (c : Char) : Option FieldName :=
  if c = 'd' then some .d
  else if c = 'w' then some .w
  else if c = 's' then some .s
  else if c = 'm' then some .mod
  else if c = 'r' then some .reg
  else if c = 'b' then some .rm
  else none

/-- The raw field map: "field name → captured text, plus defaults injected by the owning family builder" (`00_scope.md`
R14). -/
abbrev RawFieldMap := List (FieldName × List Char)

/-- Captured text put at the end of its field's text. -/
def capture : RawFieldMap → FieldName → List Char → RawFieldMap
  | [], f, cs => [(f, cs)]
  | (g, t) :: m, f, cs => if g = f then (g, t ++ cs) :: m else (g, t) :: capture m f cs

/-- The field bits that one template captures of a binary string: a field letter "accepts either bit and captures it"
(R100). -/
def captureTemplate (m : RawFieldMap) : List Char → List Char → RawFieldMap
  | t :: ts, c :: cs =>
    captureTemplate (match FieldName.ofLetter t with
      | some f => capture m f [c]
      | none => m) ts cs
  | _, _ => m

/-- The field bits that templates capture of the leading bytes. -/
def captureTemplates (m : RawFieldMap) : List String → List Byte → RawFieldMap
  | t :: ts, b :: bs => captureTemplates (captureTemplate m t.toList (binaryText b)) ts bs
  | _, _ => m

/-- Whole bytes captured, each for the field named in its place, in the order of the stream (log 15). -/
def captureBytes (m : RawFieldMap) : List FieldName → List Byte → RawFieldMap
  | f :: fs, b :: bs => captureBytes (capture m f (binaryText b)) fs bs
  | _, _ => m

/-- What the leading bytes of a row give. -/
def Row.leadingFields (r : Row) (bs : List Byte) : RawFieldMap := captureTemplates [] r.templates bs

/-! ## Trailing bytes -/

/-- A variant of a row with a ModRM byte (R101): the `mod` it is for, the `rm` it is for if it is for one only, and the
fields of the bytes after the ModRM byte. -/
structure RmVariant where
  mod : List Char
  rm : Option (List Char)
  trailing : List FieldName

/-- The variants in registration order: "`mod = 11`; `mod = 00` with `rm = 110` (direct address); `mod = 00`;
`mod = 01`; `mod = 10`" (R101), with the trailing bytes of R84 and R86. -/
def rmVariants : List RmVariant :=
  [⟨['1', '1'], none, []⟩,
   ⟨['0', '0'], some ['1', '1', '0'], [.ea, .ea]⟩,
   ⟨['0', '0'], none, []⟩,
   ⟨['0', '1'], none, [.disp]⟩,
   ⟨['1', '0'], none, [.disp, .disp]⟩]

/-- The variant fits the raw fields of the leading bytes. -/
def RmVariant.fits (v : RmVariant) (m : RawFieldMap) : Bool :=
  m.lookup .mod == some v.mod && (v.rm == none || m.lookup .rm == v.rm)

/-- The fields of the displacement or direct-address bytes, one name for each byte: those of the first variant that fits;
none without a ModRM byte. -/
def dispFields (m : RawFieldMap) : List FieldName :=
  match rmVariants.find? (RmVariant.fits · m) with
  | some v => v.trailing
  | none => []

/-- The fields of the immediate bytes, one name for each byte (R93, R94). -/
def Shape.immFields (sh : Shape) (m : RawFieldMap) : List FieldName :=
  match sh with
  | .rmi _ => if m.lookup .s = some ['0'] ∧ m.lookup .w = some ['1'] then [.val, .val] else [.val]
  | .rmi0 _ | .acci _ => if m.lookup .w = some ['1'] then [.val, .val] else [.val]
  | .rel16 _ => [.val, .val]
  | .fard _ => [.val, .val, .val2, .val2]
  | .rmr _ | .rmr0 _ | .rmxw _ | .rmx _ | .none _ | .fix2 _ => []

/-- The fields of the bytes after the leading ones, one name for each byte, in the order of R81: displacement or direct
address, then immediate. -/
def Row.trailing (r : Row) (bs : List Byte) : List FieldName :=
  dispFields (Row.leadingFields r bs) ++ Shape.immFields r.shape (Row.leadingFields r bs)

/-! ## The matcher -/

/-- The templates of all bytes of the shape, "including conditional displacement/immediate bytes implied by mod/s/w"
(R108). -/
def Row.allTemplates (r : Row) (bs : List Byte) : List String :=
  r.templates ++ (Row.trailing r bs).map fun _ => "vvvvvvvv"

/-- `test(bytes)` of R100. A stream that ends before the last template does not match (D35). -/
def Row.test (r : Row) (bs : List Byte) : Bool := templatesMatch (Row.allTemplates r bs) bs

/-- The default fields that the family injects: the opcode extension, "a literal in the template", in the formats `RMI`,
`RMI0` and `RMX` (R87). -/
def Row.defaults (r : Row) : RawFieldMap :=
  match r.shape, r.templates with
  | .rmi _, [_, t] | .rmi0 _, [_, t] | .rmxw _, [_, t] | .rmx _, [_, t] => [(.ext, (t.toList.drop 2).take 3)]
  | _, _ => []

/-- `rawFields(bytes)` of R100: the defaults, what the leading bytes give, and the trailing bytes. -/
def Row.rawFields (r : Row) (bs : List Byte) : Option RawFieldMap :=
  if Row.test r bs then
    some (Row.defaults r ++ captureBytes (Row.leadingFields r bs) (Row.trailing r bs) (bs.drop r.templates.length))
  else none

end Sys2Proof.Machine
end

