-- ==== Sys2Proof/Machine/Text.lean ====
section
/-! DEFINITION. `toText`: the canonical assembly text of an instruction (`30_encoding.md` R120, R121). It depends on the
instruction alone, never on CPU state. -/

namespace Sys2Proof

/-- The register's name (`10_state.md` R24). -/
def Reg8.name : Reg8 → String
  | .al => "AL" | .cl => "CL" | .dl => "DL" | .bl => "BL" | .ah => "AH" | .ch => "CH" | .dh => "DH" | .bh => "BH"

/-- The register's name (`10_state.md` R23). -/
def Reg16.name : Reg16 → String
  | .ax => "AX" | .cx => "CX" | .dx => "DX" | .bx => "BX" | .sp => "SP" | .bp => "BP" | .si => "SI" | .di => "DI"

/-- The base combination's name (R85). -/
def Base.name : Base → String
  | .bxsi => "BX+SI" | .bxdi => "BX+DI" | .bpsi => "BP+SI" | .bpdi => "BP+DI"
  | .si => "SI" | .di => "DI" | .bp => "BP" | .bx => "BX"

/-- The mnemonic, in upper case. -/
def Instr.mnemonic : Instr → String
  | .addRmReg _ _ | .addAccImm _ | .addRmImm _ => "ADD"
  | .orRmReg _ _ | .orAccImm _ | .orRmImm _ => "OR"
  | .adcRmReg _ _ | .adcAccImm _ | .adcRmImm _ => "ADC"
  | .sbbRmReg _ _ | .sbbAccImm _ | .sbbRmImm _ => "SBB"
  | .andRmReg _ _ | .andAccImm _ | .andRmImm _ => "AND"
  | .subRmReg _ _ | .subAccImm _ | .subRmImm _ => "SUB"
  | .xorRmReg _ _ | .xorAccImm _ | .xorRmImm _ => "XOR"
  | .cmpRmReg _ _ | .cmpAccImm _ | .cmpRmImm _ => "CMP"
  | .testRmReg _ | .testAccImm _ | .testRmImm _ => "TEST"
  | .movRmReg _ _ | .movRmImm _ => "MOV"
  | .daa => "DAA" | .das => "DAS" | .aaa => "AAA" | .aas => "AAS" | .aam => "AAM" | .aad => "AAD"
  | .div _ => "DIV" | .idiv _ => "IDIV"
  | .callNear _ | .callRm _ | .callFar _ _ | .callFarRm _ => "CALL"
  | .jmpNear _ | .jmpRm _ | .jmpFar _ _ | .jmpFarRm _ => "JMP"

end Sys2Proof

namespace Sys2Proof.Machine

/-- A sign and the magnitude of `signed_8(b)` in two hexadecimal digits: the rendering of an 8-bit displacement and of
an immediate with `s = 1` (R121). -/
def signedByteText (b : Byte) : List Char :=
  (if b.msb then '-' else '+') :: hexByte (BitVec.ofNat 8 b.toInt.natAbs)

/-- A memory operand between brackets (R121). -/
def memText (m : MemOp) : List Char :=
  '[' :: (match m with
    | .direct ea => hexWord ea
    | .noDisp b => b.name.toList
    | .disp8 b d => b.name.toList ++ signedByteText d
    | .disp16 b d => b.name.toList ++ '+' :: hexWord d) ++ [']']

/-- The width prefix (R121). -/
def widthPrefix (word : Bool) : List Char := if word then "WORD PTR ".toList else "BYTE PTR ".toList

/-- An `rm` operand, with `pre` before a memory operand and never before a register. -/
def rmText {R : Type} (name : R → String) (pre : List Char) : Rm R → List Char
  | .reg r => (name r).toList
  | .mem m => pre ++ memText m

/-- `M rm, reg` for `d = 0`, `M reg, rm` for `d = 1` (R123); no width prefix. -/
def rmRegTexts (d : Dir) (o : RmReg) : List (List Char) :=
  let (rm, reg) :=
    match o with
    | .byte rm reg => (rmText Reg8.name [] rm, reg.name.toList)
    | .word rm reg => (rmText Reg16.name [] rm, reg.name.toList)
  match d with
  | .toRm => [rm, reg]
  | .toReg => [reg, rm]

/-- `M AL, val` or `M AX, val`. -/
def accImmTexts : AccImm → List (List Char)
  | .byte v => ["AL".toList, hexByte v]
  | .word v => ["AX".toList, hexWord v]

/-- `M rm, val` in format `RMI`: an immediate with `s = 1` carries a sign. -/
def rmImmSTexts : RmImmS → List (List Char)
  | .byte false rm v => [rmText Reg8.name (widthPrefix false) rm, hexByte v]
  | .byte true rm v => [rmText Reg8.name (widthPrefix false) rm, signedByteText v]
  | .word rm v => [rmText Reg16.name (widthPrefix true) rm, hexWord v]
  | .wordSext rm v => [rmText Reg16.name (widthPrefix true) rm, signedByteText v]

/-- `M rm, val` in format `RMI0`. -/
def rmImmTexts : RmImm → List (List Char)
  | .byte rm v => [rmText Reg8.name (widthPrefix false) rm, hexByte v]
  | .word rm v => [rmText Reg16.name (widthPrefix true) rm, hexWord v]

/-- `M rm` in DIV and IDIV. -/
def rmXTexts : RmX → List (List Char)
  | .byte rm => [rmText Reg8.name (widthPrefix false) rm]
  | .word rm => [rmText Reg16.name (widthPrefix true) rm]

/-- The operands' texts, in order (R121, R123). -/
def operandTexts : Instr → List (List Char)
  | .addRmReg d o | .orRmReg d o | .adcRmReg d o | .sbbRmReg d o | .andRmReg d o | .subRmReg d o
  | .xorRmReg d o | .cmpRmReg d o | .movRmReg d o => rmRegTexts d o
  | .testRmReg o => rmRegTexts .toRm o
  | .addAccImm o | .orAccImm o | .adcAccImm o | .sbbAccImm o | .andAccImm o | .subAccImm o
  | .xorAccImm o | .cmpAccImm o | .testAccImm o => accImmTexts o
  | .addRmImm o | .orRmImm o | .adcRmImm o | .sbbRmImm o | .andRmImm o | .subRmImm o
  | .xorRmImm o | .cmpRmImm o => rmImmSTexts o
  | .testRmImm o | .movRmImm o => rmImmTexts o
  | .daa | .das | .aaa | .aas | .aam | .aad => []
  | .div o | .idiv o => rmXTexts o
  | .callNear v | .jmpNear v => [hexWord v]
  | .callRm rm | .jmpRm rm => [rmText Reg16.name [] rm]
  | .callFar v v2 | .jmpFar v v2 => [hexWord v2 ++ ':' :: hexWord v]
  | .callFarRm rm | .jmpFarRm rm => ["FAR ".toList ++ rmText Reg16.name [] rm]

/-- "the mnemonic in upper case; if there are operands, one space, then the operands separated by a comma and one
space" (R121). -/
def toText (i : Instr) : List Char :=
  match operandTexts i with
  | [] => i.mnemonic.toList
  | ops => i.mnemonic.toList ++ ' ' :: (List.intersperse ", ".toList ops).flatten

end Sys2Proof.Machine
end

