-- ==== Sys2Proof/Machine/Assembler.lean ====
section
/-! DEFINITION. The text direction: from one assembly line to an instruction, or `NoMatch`, or `MalformedField`
(`30_encoding.md` R120, R122 to R126). -/

namespace Sys2Proof.Machine

/-! ## Words and punctuation (R120) -/

/-- The tokens of a line. A word is a run of letters and digits, in upper case. -/
inductive Tok where
  | word (cs : List Char)
  | comma | lbr | rbr | plus | minus | colon
deriving DecidableEq, Repr

/-- The punctuation of the text, around which spaces and tabs are free. -/
def punctuation (c : Char) : Option Tok :=
  if c = ',' then some .comma
  else if c = '[' then some .lbr
  else if c = ']' then some .rbr
  else if c = '+' then some .plus
  else if c = '-' then some .minus
  else if c = ':' then some .colon
  else none

/-- The word read so far, before the tokens after it. -/
def endWord (acc : List Char) (rest : List Tok) : List Tok := if acc = [] then rest else .word acc :: rest

/-- The tokens of a line; `none` where a character belongs to no line. `acc` is the word read so far. -/
def lexFrom (acc : List Char) : List Char → Option (List Tok)
  | [] => some (endWord acc [])
  | c :: cs =>
    if c = ' ' ∨ c = '\t' then (lexFrom [] cs).map (endWord acc)
    else match punctuation c with
      | some t => (lexFrom [] cs).map fun ts => endWord acc (t :: ts)
      | none => if c.isAlphanum then lexFrom (acc ++ [c.toUpper]) cs else none

/-! ## Operands -/

/-- A parsed operand: what a line can write in an operand's place. -/
inductive TextOp where
  | reg8 (r : Reg8)
  | reg16 (r : Reg16)
  | mem (m : MemOp)
  /-- `BYTE PTR` (false) or `WORD PTR` (true) and a memory operand. -/
  | sized (word : Bool) (m : MemOp)
  | farReg8 (r : Reg8)
  | farReg16 (r : Reg16)
  | farMem (m : MemOp)
  /-- A number without a sign: how many digits, and the value. -/
  | num (digits v : Nat)
  /-- An immediate byte written with a sign. -/
  | signed (b : Byte)
  /-- `ssss:oooo`. -/
  | segOff (seg off : Word)
  /-- A register name or base combination outside its enumeration (R126). -/
  | malformed
deriving DecidableEq, Repr

/-- All 8-bit registers. -/
def allReg8 : List Reg8 := [.al, .cl, .dl, .bl, .ah, .ch, .dh, .bh]

/-- All 16-bit registers. -/
def allReg16 : List Reg16 := [.ax, .cx, .dx, .bx, .sp, .bp, .si, .di]

/-- All base combinations. -/
def allBases : List Base := [.bxsi, .bxdi, .bpsi, .bpdi, .si, .di, .bp, .bx]

/-- A hexadecimal number: how many digits, and the value. -/
def hexNumber (cs : List Char) : Option (Nat × Nat) :=
  if cs = [] then none else (digitsValue hexDigit 16 cs).map fun v => (cs.length, v)

/-- The byte that a sign and one or two digits write: `+00` to `+7F`, `-01` to `-80`, the range that R121 renders
(log 13). -/
def signedByte (neg : Bool) (cs : List Char) : Option Byte :=
  (hexNumber cs).bind fun (digits, v) =>
    if digits ≤ 2 then
      if neg then (if 1 ≤ v ∧ v ≤ 0x80 then some (-(BitVec.ofNat 8 v)) else none)
      else (if v ≤ 0x7F then some (BitVec.ofNat 8 v) else none)
    else none

/-- A word written with at most four digits and padded on the left with zeros. -/
def wordNumber (cs : List Char) : Option Word :=
  (hexNumber cs).bind fun (digits, v) => if digits ≤ 4 then some (BitVec.ofNat 16 v) else none

/-- A memory operand of a named base and a displacement: "1 or 2 hex digits after its sign selects `mod = 01`; of 3 or 4
hex digits selects `mod = 10` and must have the sign `+`" (R122). -/
def displaced (base : Base) (neg : Bool) (cs : List Char) : Option MemOp :=
  match signedByte neg cs with
  | some d => some (.disp8 base d)
  | none =>
    if neg = false ∧ (cs.length = 3 ∨ cs.length = 4) then (wordNumber cs).map (.disp16 base) else none

/-- A base combination by its name (R85). -/
def baseNamed (cs : List Char) : Option Base := allBases.find? fun b => b.name.toList == cs

/-- The name is no hexadecimal number, so it stands for a register. -/
def isName (cs : List Char) : Bool := (hexNumber cs).isNone

/-- A memory operand whose base is written as `cs`: outside the enumeration of R85 it is malformed (R126). -/
def withBase (cs : List Char) (f : Base → Option MemOp) : Option TextOp :=
  match baseNamed cs with
  | some b => (f b).map .mem
  | none => if (f .bx).isSome then some .malformed else none

/-- The names that `+` joins to a base at the front of the tokens, and the tokens after them. -/
def joinedNames : List Tok → List (List Char) × List Tok
  | .plus :: .word b :: ts =>
    if isName b then ((b :: (joinedNames ts).1), (joinedNames ts).2) else ([], .plus :: .word b :: ts)
  | ts => ([], ts)

/-- A base combination as it is written: the names with `+` between them. -/
def joinNames (a : List Char) (bs : List (List Char)) : List Char := bs.foldl (fun acc b => acc ++ '+' :: b) a

/-- What stands between brackets: a base of any number of names, with or without a displacement, or a number. `[BP]` has
no encoding and matches nothing; a base outside R85 is malformed (R126). -/
def parseInner : List Tok → Option TextOp
  | .word a :: ts =>
    if isName a then
      let base := joinNames a (joinedNames ts).1
      match (joinedNames ts).2 with
      | [] => withBase base fun b => if b = .bp then none else some (.noDisp b)
      | [.plus, .word n] => withBase base fun b => displaced b false n
      | [.minus, .word n] => withBase base fun b => displaced b true n
      | _ => none
    else if ts = [] then (wordNumber a).map fun ea => .mem (.direct ea)
    else none
  | _ => none

/-- A memory operand between brackets. -/
def parseMem : List Tok → Option TextOp
  | .lbr :: ts => if ts.getLast? = some .rbr then parseInner ts.dropLast else none
  | _ => none

/-- A register name, a number, or a name outside the enumerations (R126). -/
def parseWord (cs : List Char) : TextOp :=
  match allReg8.find? fun r => r.name.toList == cs with
  | some r => .reg8 r
  | none =>
    match allReg16.find? fun r => r.name.toList == cs with
    | some r => .reg16 r
    | none =>
      match hexNumber cs with
      | some (digits, v) => .num digits v
      | none => .malformed

/-- An operand after `FAR`. -/
def farOperand : TextOp → Option TextOp
  | .reg8 r => some (.farReg8 r)
  | .reg16 r => some (.farReg16 r)
  | .mem m => some (.farMem m)
  | .malformed => some .malformed
  | .sized _ _ | .farReg8 _ | .farReg16 _ | .farMem _ | .num _ _ | .signed _ | .segOff _ _ => none

/-- A memory operand after a width prefix. -/
def sizedOperand (word : Bool) : TextOp → Option TextOp
  | .mem m => some (.sized word m)
  | .malformed => some .malformed
  | .reg8 _ | .reg16 _ | .sized _ _ | .farReg8 _ | .farReg16 _ | .farMem _ | .num _ _ | .signed _ | .segOff _ _ => none

/-- One operand; `none` where the tokens have no operand's form. -/
def parseOperand (ts : List Tok) : Option TextOp :=
  match ts with
  | [.word cs] => some (parseWord cs)
  | [.plus, .word cs] => (signedByte false cs).map .signed
  | [.minus, .word cs] => (signedByte true cs).map .signed
  | [.word a, .colon, .word b] => (wordNumber a).bind fun seg => (wordNumber b).map fun off => .segOff seg off
  | [.word a, .word b] => if a = "FAR".toList then farOperand (parseWord b) else none
  | .word a :: .lbr :: rest => if a = "FAR".toList then (parseMem (.lbr :: rest)).bind farOperand else none
  | .word a :: .word b :: rest =>
    if b = "PTR".toList then
      if a = "BYTE".toList then (parseMem rest).bind (sizedOperand false)
      else if a = "WORD".toList then (parseMem rest).bind (sizedOperand true)
      else none
    else none
  | _ => parseMem ts

/-- The tokens between commas. -/
def splitCommas : List Tok → List (List Tok)
  | [] => [[]]
  | t :: ts =>
    match splitCommas ts with
    | [] => [[t]]
    | o :: os => if t = .comma then [] :: o :: os else (t :: o) :: os

/-! ## Templates of the families (R123), tried in the order of R124 -/

/-- An immediate byte without a sign: one or two digits. -/
def immByte : TextOp → Option Byte
  | .num digits v => if digits ≤ 2 then some (BitVec.ofNat 8 v) else none
  | _ => none

/-- An immediate word without a sign: one to four digits. -/
def immWord : TextOp → Option Word
  | .num digits v => if digits ≤ 4 then some (BitVec.ofNat 16 v) else none
  | _ => none

/-- Formats `RMR` and `RMR0`: `M rm, reg`, then `M reg, rm`. -/
def textRmReg : TextOp → TextOp → Option (Dir × RmReg)
  | .reg8 r, .reg8 q => some (.toRm, .byte (.reg r) q)
  | .reg16 r, .reg16 q => some (.toRm, .word (.reg r) q)
  | .mem m, .reg8 q => some (.toRm, .byte (.mem m) q)
  | .mem m, .reg16 q => some (.toRm, .word (.mem m) q)
  | .reg8 q, .mem m => some (.toReg, .byte (.mem m) q)
  | .reg16 q, .mem m => some (.toReg, .word (.mem m) q)
  | _, _ => none

/-- Format `ACCI`: `M AL, val` or `M AX, val`. -/
def textAccImm (x y : TextOp) : Option AccImm :=
  match x with
  | .reg8 .al => (immByte y).map .byte
  | .reg16 .ax => (immWord y).map .word
  | _ => none

/-- Formats `RMI0`, and `RMI` without a sign: `M rm, val`. -/
def textRmImm (x y : TextOp) : Option RmImm :=
  match x with
  | .reg8 r => (immByte y).map (.byte (.reg r))
  | .reg16 r => (immWord y).map (.word (.reg r))
  | .sized false m => (immByte y).map (.byte (.mem m))
  | .sized true m => (immWord y).map (.word (.mem m))
  | _ => none

/-- Format `RMI`: "An immediate with a sign selects `s = 1` in format `RMI`" (R122). -/
def textRmImmS (x y : TextOp) : Option RmImmS :=
  match x, y with
  | .reg8 r, .signed b => some (.byte true (.reg r) b)
  | .reg16 r, .signed b => some (.wordSext (.reg r) b)
  | .sized false m, .signed b => some (.byte true (.mem m) b)
  | .sized true m, .signed b => some (.wordSext (.mem m) b)
  | _, _ =>
    (textRmImm x y).map fun o =>
      match o with
      | .byte rm v => .byte false rm v
      | .word rm v => .word rm v

/-- The families of one mnemonic. -/
inductive Family where
  | alu (rmReg : Dir → RmReg → Instr) (accImm : AccImm → Instr) (rmImm : RmImmS → Instr)
  | test
  | mov
  | nullary (i : Instr)
  | divide (mk : RmX → Instr)
  | transfer (near : Word → Instr) (rm : Rm Reg16 → Instr) (far : Word → Word → Instr) (farRm : Rm Reg16 → Instr)

/-- The families by mnemonic. -/
def families : List (String × Family) :=
  [("ADD", .alu .addRmReg .addAccImm .addRmImm),
   ("OR", .alu .orRmReg .orAccImm .orRmImm),
   ("ADC", .alu .adcRmReg .adcAccImm .adcRmImm),
   ("SBB", .alu .sbbRmReg .sbbAccImm .sbbRmImm),
   ("AND", .alu .andRmReg .andAccImm .andRmImm),
   ("SUB", .alu .subRmReg .subAccImm .subRmImm),
   ("XOR", .alu .xorRmReg .xorAccImm .xorRmImm),
   ("CMP", .alu .cmpRmReg .cmpAccImm .cmpRmImm),
   ("TEST", .test),
   ("MOV", .mov),
   ("DAA", .nullary .daa),
   ("DAS", .nullary .das),
   ("AAA", .nullary .aaa),
   ("AAS", .nullary .aas),
   ("AAM", .nullary .aam),
   ("AAD", .nullary .aad),
   ("DIV", .divide .div),
   ("IDIV", .divide .idiv),
   ("CALL", .transfer .callNear .callRm .callFar .callFarRm),
   ("JMP", .transfer .jmpNear .jmpRm .jmpFar .jmpFarRm)]

/-- The first template of a two-operand mnemonic that the operands fit. -/
def textBinary (f : Family) (x y : TextOp) : Option Instr :=
  match f with
  | .alu rmReg accImm rmImm =>
    ((textRmReg x y).map fun p => rmReg p.1 p.2).or
      (((textAccImm x y).map accImm).or ((textRmImmS x y).map rmImm))
  | .test =>
    ((textRmReg x y).bind fun p => if p.1 = .toRm then some (.testRmReg p.2) else none).or
      (((textAccImm x y).map .testAccImm).or ((textRmImm x y).map .testRmImm))
  | .mov =>
    ((textRmReg x y).map fun p => .movRmReg p.1 p.2).or ((textRmImm x y).map .movRmImm)
  | .nullary _ | .divide _ | .transfer _ _ _ _ => none

/-- The template of a one-operand mnemonic that the operand fits. -/
def textUnary (f : Family) (x : TextOp) : Option Instr :=
  match f, x with
  | .divide mk, .reg8 r => some (mk (.byte (.reg r)))
  | .divide mk, .reg16 r => some (mk (.word (.reg r)))
  | .divide mk, .sized false m => some (mk (.byte (.mem m)))
  | .divide mk, .sized true m => some (mk (.word (.mem m)))
  | .transfer near _ _ _, .num digits v => if digits ≤ 4 then some (near (BitVec.ofNat 16 v)) else none
  | .transfer _ rm _ _, .reg16 r => some (rm (.reg r))
  | .transfer _ rm _ _, .mem m => some (rm (.mem m))
  | .transfer _ _ far _, .segOff seg off => some (far off seg)
  | .transfer _ _ _ farRm, .farReg16 r => some (farRm (.reg r))
  | .transfer _ _ _ farRm, .farMem m => some (farRm (.mem m))
  | _, _ => none

/-- The width that an operand states, `true` for a word: a register's, or a width prefix's (R122). -/
def TextOp.width : TextOp → Option Bool
  | .reg8 _ => some false
  | .reg16 _ => some true
  | .sized word _ => some word
  | .mem _ | .farReg8 _ | .farReg16 _ | .farMem _ | .num _ _ | .signed _ | .segOff _ _ | .malformed => none

/-- Two operands that state different widths. -/
def widthsDiffer (x y : TextOp) : Bool :=
  match x.width, y.width with
  | some a, some b => a != b
  | _, _ => false

/-- A two-operand mnemonic whose operands name something outside an enumeration, or have two widths (R126). -/
def malformedBinary (f : Family) (x y : TextOp) : Bool :=
  match f with
  | .alu _ _ _ | .test | .mov => x == .malformed || y == .malformed || widthsDiffer x y
  | .nullary _ | .divide _ | .transfer _ _ _ _ => false

/-- A one-operand mnemonic whose operand names something outside an enumeration; a transfer's register operand is a
16-bit register (R126, R142). -/
def malformedUnary (f : Family) (x : TextOp) : Bool :=
  match f, x with
  | .divide _, .malformed | .transfer _ _ _ _, .malformed => true
  | .transfer _ _ _ _, .reg8 _ | .transfer _ _ _ _, .farReg8 _ => true
  | _, _ => false

/-- The outcome of a template, or of the test for a field outside its enumeration. -/
def textOutcome (hit : Option Instr) (bad : Bool) : DecodeOutcome :=
  match hit with
  | some i => .matched i []
  | none => if bad then .malformedField else .noMatch

/-- The families of a mnemonic tried on its operands. Where none of them takes so many operands the outcome is NoMatch,
whatever the operands name: the model's choice (log 14). -/
def matchOperands (f : Family) (ops : List TextOp) : DecodeOutcome :=
  match ops with
  | [] =>
    match f with
    | .nullary i => .matched i []
    | .alu _ _ _ | .test | .mov | .divide _ | .transfer _ _ _ _ => .noMatch
  | [x] => textOutcome (textUnary f x) (malformedUnary f x)
  | [x, y] => textOutcome (textBinary f x y) (malformedBinary f x y)
  | _ => .noMatch

/-- The operands after the mnemonic; `none` where some operand has no operand's form. -/
def parseOperands (ts : List Tok) : Option (List TextOp) :=
  if ts = [] then some [] else (splitCommas ts).mapM parseOperand

/-- The text matcher: one line to an instruction (R122 to R126). -/
def assemble (line : List Char) : DecodeOutcome :=
  match lexFrom [] line with
  | some (.word m :: ts) =>
    match families.find? fun p => p.1.toList == m, parseOperands ts with
    | some (_, f), some ops => matchOperands f ops
    | _, _ => .noMatch
  | _ => .noMatch

end Sys2Proof.Machine
end

