-- ==== Sys2Proof/Machine/Facade.lean ====
section
/-! DEFINITION. The instruction facade: typed fields (`30_encoding.md` R95) and what the port RESULT gives for a matched
instruction (R128, `00_scope.md` R9). -/

namespace Sys2Proof.Machine

/-- A typed field, "assemblyText, binaryText, numericArg?". R95 gives no assembly text for `d`, `w`, `s`, `mod`
and `ext`: they have none (log 15). -/
structure TypedField where
  name : FieldName
  assemblyText : Option (List Char)
  /-- The bits matched, in the order of the bytes. -/
  binaryText : List Char
  /-- The value of a numeric field. -/
  numericArg : Option Nat
deriving DecidableEq, Repr

/-- A field's bits, the most significant first. -/
def bitsText {n : Nat} (v : BitVec n) : List Char :=
  (List.range n).map fun i => if v.getLsbD (n - 1 - i) then '1' else '0'

/-- The two bytes of a word as binary text, the low one first (C4). -/
def wordBinaryText (v : Word) : List Char := binaryText (lowByte v) ++ binaryText (highByte v)

/-- A one-bit field. -/
def bitField (name : FieldName) (b : Bool) : TypedField := ⟨name, none, [if b then '1' else '0'], none⟩

/-- The field `w`. -/
def wField (word : Bool) : TypedField := bitField .w word

/-- A field without assembly text and value. -/
def plainField {n : Nat} (name : FieldName) (v : BitVec n) : TypedField := ⟨name, none, bitsText v, none⟩

/-- A field whose assembly text is a name of its enumeration. -/
def namedField {n : Nat} (name : FieldName) (text : String) (code : BitVec n) : TypedField :=
  ⟨name, some text.toList, bitsText code, none⟩

/-- The fields of an operand with a ModRM byte: `mod`, then `reg` where the format has it, `rm`, and `disp` or `ea`. -/
def rmFields {R : Type} (name : R → String) (code : R → BitVec 3) (reg : List TypedField) : Rm R → List TypedField
  | .reg r => plainField .mod 3#2 :: reg ++ [namedField .rm (name r) (code r)]
  | .mem (.direct ea) =>
    plainField .mod 0#2 :: reg ++ [plainField .rm 6#3, ⟨.ea, some (hexWord ea), wordBinaryText ea, some ea.toNat⟩]
  | .mem (.noDisp b) => plainField .mod 0#2 :: reg ++ [namedField .rm b.name b.code]
  | .mem (.disp8 b d) =>
    plainField .mod 1#2 :: reg ++
      [namedField .rm b.name b.code, ⟨.disp, some (signedByteText d), binaryText d, some (sext16 d).toNat⟩]
  | .mem (.disp16 b d) =>
    plainField .mod 2#2 :: reg ++
      [namedField .rm b.name b.code, ⟨.disp, some ('+' :: hexWord d), wordBinaryText d, some d.toNat⟩]

/-- The `rm` fields of a byte operand. -/
def rm8Fields : Rm Reg8 → List TypedField := rmFields Reg8.name Reg8.code []

/-- The `rm` fields of a word operand. -/
def rm16Fields : Rm Reg16 → List TypedField := rmFields Reg16.name Reg16.code []

/-- The field `val` of one byte. -/
def valByte (signed : Bool) (v : Byte) : TypedField :=
  ⟨.val, some (if signed then signedByteText v else hexByte v), binaryText v, some v.toNat⟩

/-- A field of one word. -/
def wordField (name : FieldName) (v : Word) : TypedField := ⟨name, some (hexWord v), wordBinaryText v, some v.toNat⟩

/-- The fields of formats `RMR` and `RMR0` but for `d`. -/
def rmRegFields : RmReg → List TypedField
  | .byte rm reg => wField false :: rmFields Reg8.name Reg8.code [namedField .reg reg.name reg.code] rm
  | .word rm reg => wField true :: rmFields Reg16.name Reg16.code [namedField .reg reg.name reg.code] rm

/-- The fields of format `ACCI`. -/
def accImmFields : AccImm → List TypedField
  | .byte v => [wField false, valByte false v]
  | .word v => [wField true, wordField .val v]

/-- The opcode extension, the family's default field (R87). -/
def extField (k : BitVec 3) : TypedField := plainField .ext k

/-- The fields of format `RMI` but for `ext`. -/
def rmImmSFields : RmImmS → List TypedField
  | .byte s rm v => bitField .s s :: wField false :: rm8Fields rm ++ [valByte s v]
  | .word rm v => bitField .s false :: wField true :: rm16Fields rm ++ [wordField .val v]
  | .wordSext rm v => bitField .s true :: wField true :: rm16Fields rm ++ [valByte true v]

/-- The fields of format `RMI0` but for `ext`. -/
def rmImmFields : RmImm → List TypedField
  | .byte rm v => wField false :: rm8Fields rm ++ [valByte false v]
  | .word rm v => wField true :: rm16Fields rm ++ [wordField .val v]

/-- The fields of format `RMX` with `w`, but for `ext`. -/
def rmXFields : RmX → List TypedField
  | .byte rm => wField false :: rm8Fields rm
  | .word rm => wField true :: rm16Fields rm

/-- The typed field map of an instruction: the family's default field first, then the fields in the order of the bits.
The extensions are those of R103 and R104. -/
def typedFields : Instr → List TypedField
  | .addRmReg d o | .orRmReg d o | .adcRmReg d o | .sbbRmReg d o | .andRmReg d o | .subRmReg d o
  | .xorRmReg d o | .cmpRmReg d o | .movRmReg d o => bitField .d d.bit :: rmRegFields o
  | .testRmReg o => rmRegFields o
  | .addAccImm o | .orAccImm o | .adcAccImm o | .sbbAccImm o | .andAccImm o | .subAccImm o
  | .xorAccImm o | .cmpAccImm o | .testAccImm o => accImmFields o
  | .addRmImm o => extField 0 :: rmImmSFields o
  | .orRmImm o => extField 1 :: rmImmSFields o
  | .adcRmImm o => extField 2 :: rmImmSFields o
  | .sbbRmImm o => extField 3 :: rmImmSFields o
  | .andRmImm o => extField 4 :: rmImmSFields o
  | .subRmImm o => extField 5 :: rmImmSFields o
  | .xorRmImm o => extField 6 :: rmImmSFields o
  | .cmpRmImm o => extField 7 :: rmImmSFields o
  | .testRmImm o | .movRmImm o => extField 0 :: rmImmFields o
  | .daa | .das | .aaa | .aas | .aam | .aad => []
  | .div o => extField 6 :: rmXFields o
  | .idiv o => extField 7 :: rmXFields o
  | .callNear v | .jmpNear v => [wordField .val v]
  | .callRm rm => extField 2 :: rm16Fields rm
  | .callFarRm rm => extField 3 :: rm16Fields rm
  | .jmpRm rm => extField 4 :: rm16Fields rm
  | .jmpFarRm rm => extField 5 :: rm16Fields rm
  | .callFar v v2 | .jmpFar v v2 => [wordField .val v, wordField .val2 v2]

/-- What the port RESULT gives beside the executable action, which is `exec` of the instruction. -/
structure Result where
  text : List Char
  binary : List (List Char)
  decimal : List Nat
  hex : List (List Char)
  size : Nat
  fields : List TypedField
deriving DecidableEq, Repr

/-- The views of a matched instruction (R128). -/
def result (i : Instr) : Result where
  text := toText i
  binary := (encode i).map binaryText
  decimal := (encode i).map BitVec.toNat
  hex := (encode i).map hexByte
  size := (encode i).length
  fields := typedFields i

/-- `exec(cpu)`: the bound executable action of a matched instruction, "whose only effect is mutating the supplied
CPU". -/
def Result.action (i : Instr) : State → Host.Outcome State Fault Refusal := exec i

end Sys2Proof.Machine
end

