-- ==== Sys2Proof/Safety.lean ====
section
/-! DEFINITION. The terms claims are stated in: the invariant of the machine, what an instruction leaves unchanged, and
what counts as a safe run. -/

namespace Sys2Proof.Machine

/-! ## The invariant -/

/-- Memory is in canonical form and lies inside the physical address space. -/
abbrev State.Inv (s : State) : Prop :=
  Memory.wf s.mem ∧ ∀ c ∈ s.mem, c.1 < 2 ^ s.physBits

/-! ## Frames -/

/-- The physical addresses of the byte that a location names; none for a register. -/
def State.cells8 (s : State) : Loc Reg8 → List Nat
  | .reg _ => []
  | .mem sel base addend => [s.phys (s.seg sel) (s.ea base addend)]

/-- The physical addresses of a word in memory: the offset wraps inside the segment (`20_memory.md` R56). -/
def State.wordCells (s : State) (g o : Word) : List Nat := [s.phys g o, s.phys g (o + 1)]

/-- The physical addresses of the word that a location names; none for a register. -/
def State.cells16 (s : State) : Loc Reg16 → List Nat
  | .reg _ => []
  | .mem sel base addend => s.wordCells (s.seg sel) (s.ea base addend)

/-- Every byte of memory outside the addresses reads as before. -/
def MemKept (s t : State) (cells : List Nat) : Prop :=
  ∀ a, a ∉ cells → Memory.read t.mem a = Memory.read s.mem a

/-- Every general register outside the list is unchanged. -/
def RegsKept (s t : State) (written : List Reg16) : Prop := ∀ q, q ∉ written → t.reg16 q = s.reg16 q

/-- Every segment register is unchanged. -/
def SegsKept (s t : State) : Prop := ∀ g, t.seg g = s.seg g

/-- The host's inputs and the parameters are unchanged. -/
def HostKept (s t : State) : Prop := t.inputs = s.inputs ∧ t.cfg = s.cfg

/-- Of registers and memory, only the byte location `l` is written: every other 8-bit register, SP, BP, SI and DI, the
segment registers and every other byte of memory are unchanged. -/
def OnlyByte (s t : State) (l : Loc Reg8) : Prop :=
  (∀ q, l ≠ .reg q → t.reg8 q = s.reg8 q) ∧ RegsKept s t [.ax, .cx, .dx, .bx] ∧ SegsKept s t ∧
    MemKept s t (s.cells8 l) ∧ HostKept s t

/-- Of registers and memory, only the word location `l` is written. -/
def OnlyWord (s t : State) (l : Loc Reg16) : Prop :=
  (∀ q, l ≠ .reg q → t.reg16 q = s.reg16 q) ∧ SegsKept s t ∧ MemKept s t (s.cells16 l) ∧ HostKept s t

/-- No register, segment register or byte of memory is written. -/
def NothingWritten (s t : State) : Prop := RegsKept s t [] ∧ SegsKept s t ∧ MemKept s t [] ∧ HostKept s t

/-- Of registers, segment registers and memory, only general registers of the list are written. -/
def OnlyRegs (s t : State) (written : List Reg16) : Prop :=
  RegsKept s t written ∧ SegsKept s t ∧ MemKept s t [] ∧ HostKept s t

/-! ## Operand bindings (`42_alu.md` R180 to R182) -/

/-- `AluByte rr ai ri s i dst b`: the instruction `i` of a mnemonic with the forms `rr` (`RMR`), `ai` (`ACCI`) and `ri`
(`RMI`) has the byte destination `dst` and the source value `b` in the state `s`. -/
inductive AluByte (rr : Dir → RmReg → Instr) (ai : AccImm → Instr) (ri : RmImmS → Instr) (s : State) :
    Instr → Loc Reg8 → Byte → Prop where
  | toRm (rm : Rm Reg8) (reg : Reg8) : AluByte rr ai ri s (rr .toRm (.byte rm reg)) (s.rmLoc rm) (s.reg8 reg)
  | toReg (rm : Rm Reg8) (reg : Reg8) :
    AluByte rr ai ri s (rr .toReg (.byte rm reg)) (.reg reg) (s.get8 (s.rmLoc rm))
  | acc (v : Byte) : AluByte rr ai ri s (ai (.byte v)) (.reg .al) v
  | imm (sx : Bool) (rm : Rm Reg8) (v : Byte) : AluByte rr ai ri s (ri (.byte sx rm v)) (s.rmLoc rm) v

/-- The same for a word destination; with `s = 1` the immediate byte is sign-extended (`30_encoding.md` R90). -/
inductive AluWord (rr : Dir → RmReg → Instr) (ai : AccImm → Instr) (ri : RmImmS → Instr) (s : State) :
    Instr → Loc Reg16 → Word → Prop where
  | toRm (rm : Rm Reg16) (reg : Reg16) : AluWord rr ai ri s (rr .toRm (.word rm reg)) (s.rmLoc rm) (s.reg16 reg)
  | toReg (rm : Rm Reg16) (reg : Reg16) :
    AluWord rr ai ri s (rr .toReg (.word rm reg)) (.reg reg) (s.get16 (s.rmLoc rm))
  | acc (v : Word) : AluWord rr ai ri s (ai (.word v)) (.reg .ax) v
  | imm (rm : Rm Reg16) (v : Word) : AluWord rr ai ri s (ri (.word rm v)) (s.rmLoc rm) v
  | immSext (rm : Rm Reg16) (v : Byte) : AluWord rr ai ri s (ri (.wordSext rm v)) (s.rmLoc rm) (sext16 v)

/-! ## Runs -/

/-- The outcome is a completed step (`Done` of `00_scope.md` R8). -/
def completes : Host.Outcome State Fault Refusal → Prop
  | .next _ => True
  | .fault _ | .refused _ => False

/-- `k` steps complete, with neither a fault nor an end of the run by No-Match (`70_reset_and_hazards.md` R303). -/
def SafeRun : Nat → State → Prop
  | 0, _ => True
  | k + 1, s => ∃ t, step s = .next t ∧ SafeRun k t

/-- The instruction transfers control (`10_state.md` R28). -/
def isTransfer : Instr → Bool
  | .callNear _ | .callRm _ | .callFar _ _ | .callFarRm _ | .jmpNear _ | .jmpRm _ | .jmpFar _ _ | .jmpFarRm _ => true
  | .addRmReg _ _ | .addAccImm _ | .addRmImm _ | .orRmReg _ _ | .orAccImm _ | .orRmImm _
  | .adcRmReg _ _ | .adcAccImm _ | .adcRmImm _ | .sbbRmReg _ _ | .sbbAccImm _ | .sbbRmImm _
  | .andRmReg _ _ | .andAccImm _ | .andRmImm _ | .subRmReg _ _ | .subAccImm _ | .subRmImm _
  | .xorRmReg _ _ | .xorAccImm _ | .xorRmImm _ | .cmpRmReg _ _ | .cmpAccImm _ | .cmpRmImm _
  | .testRmReg _ | .testAccImm _ | .testRmImm _ | .movRmReg _ _ | .movRmImm _
  | .daa | .das | .aaa | .aas | .aam | .aad | .div _ | .idiv _ => false

end Sys2Proof.Machine
end

