-- ==== Sys2Proof/Certificates/Slice0/Obligations.lean ====
section
/-! DEFINITION. The statements for the provers, from the numbered rules of spec/. -/

/-! # Terms of the statements -/

namespace Sys2Proof.Machine

/-! ## Encoding -/

/-- Exactly the byte streams whose leading bytes have the `match` and `mask` of a row decode to the row's form. -/
def EncodedBy (form : Instr → Prop) (fixed : List (Byte × Byte)) : Prop :=
  ∀ bs i rest, decode bs = .matched i rest → (form i ↔ matchesFixed fixed bs = true)

/-- The three forms of a group-1 mnemonic have the opcode bytes `00kkk0dw`, `00kkk10w`, and `100000sw` with `kkk` as
the opcode extension (`30_encoding.md` R104). -/
def Group1Encoding (k : Byte) (rr : Dir → RmReg → Instr) (ai : AccImm → Instr) (ri : RmImmS → Instr) : Prop :=
  EncodedBy (fun i => ∃ d o, i = rr d o) [(k <<< 3, 0xFC)] ∧
    EncodedBy (fun i => ∃ o, i = ai o) [(k <<< 3 ||| 0x04, 0xFE)] ∧
    EncodedBy (fun i => ∃ o, i = ri o) [(0x80, 0xFC), (k <<< 3, 0x38)]

/-- `dispbytes(mod, rm)` of R108, from a ModRM byte. -/
def specDispBytes (m : Byte) : Nat :=
  if (modField m = 0 ∧ rmField m = 6) ∨ modField m = 2 then 2 else if modField m = 1 then 1 else 0

/-- The length table of R108, from the first byte and the ModRM byte. -/
def specLength (b m : Byte) : Nat :=
  if b &&& 0xC4 = 0x00 ∨ b &&& 0xFC = 0x88 ∨ b &&& 0xFE = 0x84 then 2 + specDispBytes m
  else if b &&& 0xFC = 0x80 then 2 + specDispBytes m + (if b = 0x81 then 2 else 1)
  else if b &&& 0xFE = 0xC6 ∨ (b &&& 0xFE = 0xF6 ∧ regField m = 0) then
    2 + specDispBytes m + 1 + (wBit b).toNat
  else if b &&& 0xC6 = 0x04 ∨ b &&& 0xFE = 0xA8 then 2 + (wBit b).toNat
  else if b = 0x27 ∨ b = 0x2F ∨ b = 0x37 ∨ b = 0x3F then 1
  else if b = 0xD4 ∨ b = 0xD5 then 2
  else if b = 0xE8 ∨ b = 0xE9 then 3
  else if b = 0x9A ∨ b = 0xEA then 5
  else 2 + specDispBytes m

/-- The first byte is one of R103, and the byte after it is none of those that R112 lists. -/
def inScope (b m : Byte) : Bool :=
  if b &&& 0xC4 = 0x00 ∨ b &&& 0xC6 = 0x04 then true
  else if b = 0x27 ∨ b = 0x2F ∨ b = 0x37 ∨ b = 0x3F then true
  else if b &&& 0xFC = 0x80 ∨ b = 0x84 ∨ b = 0x85 ∨ b &&& 0xFC = 0x88 then true
  else if b = 0x9A ∨ b = 0xA8 ∨ b = 0xA9 ∨ b = 0xE8 ∨ b = 0xE9 ∨ b = 0xEA then true
  else if b = 0xC6 ∨ b = 0xC7 then regField m = 0
  else if b = 0xF6 ∨ b = 0xF7 then regField m = 0 ∨ regField m = 6 ∨ regField m = 7
  else if b = 0xFF then regField m = 2 ∨ regField m = 3 ∨ regField m = 4 ∨ regField m = 5
  else if b = 0xD4 ∨ b = 0xD5 then m = 0x0A
  else false

/-- The base combination of an `rm` code by the table of R85. -/
def specBase (rm : BitVec 3) : Base :=
  match rm with
  | 0b000 => .bxsi
  | 0b001 => .bxdi
  | 0b010 => .bpsi
  | 0b011 => .bpdi
  | 0b100 => .si
  | 0b101 => .di
  | 0b110 => .bp
  | 0b111 => .bx

/-- The operand that R84, R85 and R86 read from a ModRM byte and the two bytes after it; `ofCode` is the register enumeration
of the operand's width. -/
def specRm {R : Type} (ofCode : BitVec 3 → R) (m x y : Byte) : Rm R :=
  if modField m = 3 then .reg (ofCode (rmField m))
  else if modField m = 0 ∧ rmField m = 6 then .mem (.direct (y ++ x))
  else if modField m = 0 then .mem (.noDisp (specBase (rmField m)))
  else if modField m = 1 then .mem (.disp8 (specBase (rmField m)) x)
  else .mem (.disp16 (specBase (rmField m)) (y ++ x))

/-! ## Text -/

/-- The instruction whose encoding is registered first among those with one canonical text: the alias classes (a) and
(c) of R110. Every other instruction stands for itself. -/
def registeredFirst : Instr → Instr :=
  let rr (mk : Dir → RmReg → Instr) (d : Dir) (o : RmReg) : Instr :=
    match d, o with
    | .toReg, .byte (.reg r) q => mk .toRm (.byte (.reg q) r)
    | .toReg, .word (.reg r) q => mk .toRm (.word (.reg q) r)
    | .toReg, .byte (.mem m) q => mk .toReg (.byte (.mem m) q)
    | .toReg, .word (.mem m) q => mk .toReg (.word (.mem m) q)
    | .toRm, o => mk .toRm o
  let ri (mk : RmImmS → Instr) (acc : AccImm → Instr) (o : RmImmS) : Instr :=
    match o with
    | .byte false (.reg .al) v => acc (.byte v)
    | .word (.reg .ax) v => acc (.word v)
    | o => mk o
  fun i =>
    match i with
    | .addRmReg d o => rr .addRmReg d o
    | .orRmReg d o => rr .orRmReg d o
    | .adcRmReg d o => rr .adcRmReg d o
    | .sbbRmReg d o => rr .sbbRmReg d o
    | .andRmReg d o => rr .andRmReg d o
    | .subRmReg d o => rr .subRmReg d o
    | .xorRmReg d o => rr .xorRmReg d o
    | .cmpRmReg d o => rr .cmpRmReg d o
    | .movRmReg d o => rr .movRmReg d o
    | .addRmImm o => ri .addRmImm .addAccImm o
    | .orRmImm o => ri .orRmImm .orAccImm o
    | .adcRmImm o => ri .adcRmImm .adcAccImm o
    | .sbbRmImm o => ri .sbbRmImm .sbbAccImm o
    | .andRmImm o => ri .andRmImm .andAccImm o
    | .subRmImm o => ri .subRmImm .subAccImm o
    | .xorRmImm o => ri .xorRmImm .xorAccImm o
    | .cmpRmImm o => ri .cmpRmImm .cmpAccImm o
    | .testRmImm (.byte (.reg .al) v) => .testAccImm (.byte v)
    | .testRmImm (.word (.reg .ax) v) => .testAccImm (.word v)
    | i => i

/-- The fields of whole bytes after the leading ones (`30_encoding.md` R91 to R94). -/
def FieldName.isTrailing (f : FieldName) : Bool := f ∈ [.disp, .ea, .val, .val2]

/-! ## Flags -/

/-- The number of one bits among bits 7:0. -/
def popcount8 (n : Nat) : Nat :=
  n % 2 + n / 2 % 2 + n / 4 % 2 + n / 8 % 2 + n / 16 % 2 + n / 32 % 2 + n / 64 % 2 + n / 128 % 2

/-- A value lies in the two's-complement range of `W` bits. -/
def InRange (W : Nat) (x : Int) : Prop := -(2 ^ (W - 1) : Int) ≤ x ∧ x ≤ 2 ^ (W - 1) - 1

/-- ZF, SF and PF follow a result (R163, R164, R168). -/
def FlagsOfResult {W : Nat} (r : BitVec W) (f : Flags) : Prop :=
  (f.ZF = true ↔ r.toNat = 0) ∧ (f.SF = true ↔ 2 ^ (W - 1) ≤ r.toNat) ∧
    (f.PF = true ↔ popcount8 r.toNat % 2 = 0)

/-- IF, DF and TF are the same. -/
def ControlFlagsKept (f g : Flags) : Prop := g.IF = f.IF ∧ g.DF = f.DF ∧ g.TF = f.TF

/-- The flags that the table of `10_state.md` R30 gives a mnemonic to write. -/
def flagsWritten (m : String) : Flags :=
  if m ∈ ["ADD", "ADC", "SUB", "SBB", "CMP", "AND", "OR", "XOR", "TEST"] then
    { CF := true, ZF := true, SF := true, OF := true, PF := true, AF := true }
  else if m ∈ ["AAA", "AAS"] then { CF := true, AF := true }
  else if m ∈ ["DAA", "DAS"] then { CF := true, ZF := true, SF := true, PF := true, AF := true }
  else if m ∈ ["AAM", "AAD"] then { ZF := true, SF := true, PF := true }
  else {}

/-- The mnemonics that read CF (R30). -/
def readsCF (m : String) : Prop := m ∈ ["ADC", "SBB", "DAA", "DAS"]

/-- The mnemonics that read AF (R30). -/
def readsAF (m : String) : Prop := m ∈ ["AAA", "AAS", "DAA", "DAS"]

/-- The flags of `new` where `written` is set, and of `old` elsewhere. -/
def mergeFlags (written new old : Flags) : Flags where
  CF := if written.CF then new.CF else old.CF
  ZF := if written.ZF then new.ZF else old.ZF
  SF := if written.SF then new.SF else old.SF
  OF := if written.OF then new.OF else old.OF
  PF := if written.PF then new.PF else old.PF
  AF := if written.AF then new.AF else old.AF
  IF := if written.IF then new.IF else old.IF
  DF := if written.DF then new.DF else old.DF
  TF := if written.TF then new.TF else old.TF

/-- The state with other values of IF, DF and TF. -/
def State.withControl (s : State) (x y z : Bool) : State :=
  s.setFlags { s.flags with IF := x, DF := y, TF := z }

/-- A function applied to the next state of an outcome. -/
def mapNext (f : State → State) : Host.Outcome State Fault Refusal → Host.Outcome State Fault Refusal
  | .next t => .next (f t)
  | .fault r => .fault r
  | .refused r => .refused r

/-! ## Operands -/

/-- The default segment of a memory operand by the table of `30_encoding.md` R85. -/
def specSegment : MemOp → SegReg
  | .direct _ => .ds
  | .noDisp b | .disp8 b _ | .disp16 b _ =>
    match b with
    | .bpsi | .bpdi | .bp => .ss
    | .bxsi | .bxdi | .si | .di | .bx => .ds

/-- The effective offset of a memory operand (`40_operand_resolver.md` R143, the table of R85, R144). -/
def specOffset (s : State) (m : MemOp) : Word :=
  let sum (b : Base) : Word :=
    match b with
    | .bxsi => s.regs.BX + s.regs.SI
    | .bxdi => s.regs.BX + s.regs.DI
    | .bpsi => s.regs.BP + s.regs.SI
    | .bpdi => s.regs.BP + s.regs.DI
    | .si => s.regs.SI
    | .di => s.regs.DI
    | .bp => s.regs.BP
    | .bx => s.regs.BX
  match m with
  | .direct ea => ea
  | .noDisp b => sum b
  | .disp8 b d => sum b + d.signExtend 16
  | .disp16 b d => sum b + d

/-- The state whose next step has the segment override `o`. -/
def State.withOverride (s : State) (o : Option SegReg) : State :=
  { s with inputs := { s.input with segovr := o } :: s.inputs.tail }

/-! ## What an instruction does -/

/-- The instruction completes: the byte location `dst` then holds `r`, the flags are `f`, IP has advanced past the
instruction, and nothing else is written. -/
def ByteRuns (i : Instr) (s : State) (dst : Loc Reg8) (r : Byte) (f : Flags) : Prop :=
  ∃ t, exec i s = .next t ∧ t.get8 dst = r ∧ t.flags = f ∧ t.ip = s.ip + BitVec.ofNat 16 i.len ∧ OnlyByte s t dst

/-- The same for a word location. -/
def WordRuns (i : Instr) (s : State) (dst : Loc Reg16) (r : Word) (f : Flags) : Prop :=
  ∃ t, exec i s = .next t ∧ t.get16 dst = r ∧ t.flags = f ∧ t.ip = s.ip + BitVec.ofNat 16 i.len ∧ OnlyWord s t dst

/-- The instruction completes and writes the flags `f` and IP only. -/
def FlagsRun (i : Instr) (s : State) (f : Flags) : Prop :=
  ∃ t, exec i s = .next t ∧ t.flags = f ∧ t.ip = s.ip + BitVec.ofNat 16 i.len ∧ NothingWritten s t

/-- Every form of a mnemonic, byte and word, completes with the result `r a b flags` in its destination and the flags
`f a b flags`, where `a` is the destination's value and `b` the source's before the instruction. -/
def AluRuns (rr : Dir → RmReg → Instr) (ai : AccImm → Instr) (ri : RmImmS → Instr)
    (r : (W : Nat) → BitVec W → BitVec W → Flags → BitVec W)
    (f : (W : Nat) → BitVec W → BitVec W → Flags → Flags) : Prop :=
  (∀ s i dst b, AluByte rr ai ri s i dst b →
      ByteRuns i s dst (r 8 (s.get8 dst) b s.flags) (f 8 (s.get8 dst) b s.flags)) ∧
    ∀ s i dst b, AluWord rr ai ri s i dst b →
      WordRuns i s dst (r 16 (s.get16 dst) b s.flags) (f 16 (s.get16 dst) b s.flags)

/-- A near CALL completes: SP falls by 2, the word at SS:SP is the return address, IP is the target, and nothing else
is written. -/
def NearCallRuns (i : Instr) (s : State) (target : Word) : Prop :=
  ∃ t, exec i s = .next t ∧ t.ip = target ∧ t.reg16 .sp = s.reg16 .sp - 2 ∧
    t.memRead16 (s.seg .ss) (s.reg16 .sp - 2) = s.ip + BitVec.ofNat 16 i.len ∧
    RegsKept s t [.sp] ∧ SegsKept s t ∧ t.flags = s.flags ∧
    MemKept s t (s.wordCells (s.seg .ss) (s.reg16 .sp - 2)) ∧ HostKept s t

/-- A far CALL completes: SP falls by 4, the old CS lies above the return offset, CS and IP are the target, and nothing
else is written. -/
def FarCallRuns (i : Instr) (s : State) (off seg : Word) : Prop :=
  ∃ t, exec i s = .next t ∧ t.ip = off ∧ t.seg .cs = seg ∧ t.reg16 .sp = s.reg16 .sp - 4 ∧
    t.memRead16 (s.seg .ss) (s.reg16 .sp - 2) = s.seg .cs ∧
    t.memRead16 (s.seg .ss) (s.reg16 .sp - 4) = s.ip + BitVec.ofNat 16 i.len ∧
    RegsKept s t [.sp] ∧ (∀ g, g ≠ .cs → t.seg g = s.seg g) ∧ t.flags = s.flags ∧
    MemKept s t (s.wordCells (s.seg .ss) (s.reg16 .sp - 2) ++ s.wordCells (s.seg .ss) (s.reg16 .sp - 4)) ∧
    HostKept s t

/-- The four far transfers. -/
def isFar : Instr → Prop
  | .callFar _ _ | .callFarRm _ | .jmpFar _ _ | .jmpFarRm _ => True
  | _ => False

/-- DIV and IDIV. -/
def isDivision : Instr → Prop
  | .div _ | .idiv _ => True
  | _ => False

/-- A far-indirect transfer whose operand is a register. -/
def isFarRegister : Instr → Prop
  | .callFarRm (.reg _) | .jmpFarRm (.reg _) => True
  | _ => False

/-! ## What an instruction stores -/

/-- The cells of a word at an offset: its bytes at the offset and, wrapping, the next one. The last written comes first. -/
def wordStore (s : State) (g o v : Word) : List Host.Cell :=
  [(s.phys g (o + 1), v.extractLsb' 8 8), (s.phys g o, v.extractLsb' 0 8)]

/-- The cell of a byte written to an `rm` operand; none for a register. -/
def rmStore8 (s : State) (rm : Rm Reg8) (v : Byte) : List Host.Cell :=
  match rm with
  | .reg _ => []
  | .mem m => [(s.phys (s.seg (s.input.segovr.getD (specSegment m))) (specOffset s m), v)]

/-- The cells of a word written to an `rm` operand. -/
def rmStore16 (s : State) (rm : Rm Reg16) (v : Word) : List Host.Cell :=
  match rm with
  | .reg _ => []
  | .mem m => wordStore s (s.seg (s.input.segovr.getD (specSegment m))) (specOffset s m) v

/-- The cells that a two-operand form of format `RMR` writes back, with the result `f` of destination and source. -/
def rmRegStores (s : State) (f : (W : Nat) → BitVec W → BitVec W → BitVec W) : Dir → RmReg → List Host.Cell
  | .toRm, .byte rm reg => rmStore8 s rm (f 8 (s.get8 (s.rmLoc rm)) (s.reg8 reg))
  | .toRm, .word rm reg => rmStore16 s rm (f 16 (s.get16 (s.rmLoc rm)) (s.reg16 reg))
  | .toReg, _ => []

/-- The same for format `RMI`. -/
def rmImmStores (s : State) (f : (W : Nat) → BitVec W → BitVec W → BitVec W) : RmImmS → List Host.Cell
  | .byte _ rm v => rmStore8 s rm (f 8 (s.get8 (s.rmLoc rm)) v)
  | .word rm v => rmStore16 s rm (f 16 (s.get16 (s.rmLoc rm)) v)
  | .wordSext rm v => rmStore16 s rm (f 16 (s.get16 (s.rmLoc rm)) (v.signExtend 16))

/-- The word that a near CALL pushes (`20_memory.md` R66, `46_control_transfer.md` R241). -/
def nearCallStores (s : State) (len : Nat) : List Host.Cell :=
  wordStore s (s.seg .ss) (s.reg16 .sp - 2) (s.ip + BitVec.ofNat 16 len)

/-- The words that a far CALL pushes, CS first. -/
def farCallStores (s : State) (len : Nat) : List Host.Cell :=
  wordStore s (s.seg .ss) (s.reg16 .sp - 4) (s.ip + BitVec.ofNat 16 len) ++
    wordStore s (s.seg .ss) (s.reg16 .sp - 2) (s.seg .cs)

/-- The bytes that an instruction stores where it completes, with their physical addresses, the last written first. -/
def storesOf (i : Instr) (s : State) : List Host.Cell :=
  let carry (W : Nat) : BitVec W := BitVec.ofNat W s.flags.CF.toNat
  match i with
  | .addRmReg d o => rmRegStores s (fun _ a b => a + b) d o
  | .orRmReg d o => rmRegStores s (fun _ a b => a ||| b) d o
  | .adcRmReg d o => rmRegStores s (fun W a b => a + b + carry W) d o
  | .sbbRmReg d o => rmRegStores s (fun W a b => a - b - carry W) d o
  | .andRmReg d o => rmRegStores s (fun _ a b => a &&& b) d o
  | .subRmReg d o => rmRegStores s (fun _ a b => a - b) d o
  | .xorRmReg d o => rmRegStores s (fun _ a b => a ^^^ b) d o
  | .movRmReg d o => rmRegStores s (fun _ _ b => b) d o
  | .addRmImm o => rmImmStores s (fun _ a b => a + b) o
  | .orRmImm o => rmImmStores s (fun _ a b => a ||| b) o
  | .adcRmImm o => rmImmStores s (fun W a b => a + b + carry W) o
  | .sbbRmImm o => rmImmStores s (fun W a b => a - b - carry W) o
  | .andRmImm o => rmImmStores s (fun _ a b => a &&& b) o
  | .subRmImm o => rmImmStores s (fun _ a b => a - b) o
  | .xorRmImm o => rmImmStores s (fun _ a b => a ^^^ b) o
  | .movRmImm (.byte rm v) => rmStore8 s rm v
  | .movRmImm (.word rm v) => rmStore16 s rm v
  | .callNear _ => nearCallStores s 3
  | .callRm rm => nearCallStores s (2 + rm.dispBytes)
  | .callFar _ _ => farCallStores s 5
  | .callFarRm rm => farCallStores s (2 + rm.dispBytes)
  | .cmpRmReg _ _ | .cmpRmImm _ | .testRmReg _ | .testRmImm _ | .addAccImm _ | .orAccImm _ | .adcAccImm _
  | .sbbAccImm _ | .andAccImm _ | .subAccImm _ | .xorAccImm _ | .cmpAccImm _ | .testAccImm _
  | .daa | .das | .aaa | .aas | .aam | .aad | .div _ | .idiv _
  | .jmpNear _ | .jmpRm _ | .jmpFar _ _ | .jmpFarRm _ => []

/-- The byte at a physical address after stores, the last written first. -/
def afterStores (stores : List Host.Cell) (m : Memory) (a : Nat) : Byte := (stores.lookup a).getD (Memory.read m a)

/-! ## Decimal digits -/

/-- Two decimal digits in a byte. -/
def IsBcd (b : Byte) : Prop := b.toNat / 16 ≤ 9 ∧ b.toNat % 16 ≤ 9

/-- The number that two decimal digits write. -/
def bcdValue (b : Byte) : Nat := 10 * (b.toNat / 16) + b.toNat % 16

end Sys2Proof.Machine

open Sys2Proof Sys2Proof.Machine

/-! # Encoding and decoding -/

/-- Words written out bit by bit from the templates of `30_encoding.md` R82 and R103, one of every format and family,
decode to the instructions they stand for. -/
def Obligations.SpecWordsDecode : Prop :=
  decode [0b00000001, 0b11011000] = .matched (.addRmReg .toRm (.word (.reg .ax) .bx)) [] ∧
  decode [0b00000010, 0b01000111, 0b00000100] = .matched (.addRmReg .toReg (.byte (.mem (.disp8 .bx 4)) .al)) [] ∧
  decode [0b10000001, 0b00000110, 0x34, 0x12, 0x78, 0x56] =
    .matched (.addRmImm (.word (.mem (.direct 0x1234)) 0x5678)) [] ∧
  decode [0b10000011, 0b01000110, 0xFE, 0x01] = .matched (.addRmImm (.wordSext (.mem (.disp8 .bp 0xFE)) 0x01)) [] ∧
  decode [0b00111100, 0x41] = .matched (.cmpAccImm (.byte 0x41)) [] ∧
  decode [0b10000101, 0b11000000] = .matched (.testRmReg (.word (.reg .ax) .ax)) [] ∧
  decode [0b10001011, 0b10001100, 0x00, 0x80] =
    .matched (.movRmReg .toReg (.word (.mem (.disp16 .si 0x8000)) .cx)) [] ∧
  decode [0b11000110, 0b11000000, 0x2A] = .matched (.movRmImm (.byte (.reg .al) 0x2A)) [] ∧
  decode [0b00100111] = .matched .daa [] ∧
  decode [0b11010100, 0b00001010] = .matched .aam [] ∧
  decode [0b11110110, 0b00110000] = .matched (.div (.byte (.mem (.noDisp .bxsi)))) [] ∧
  decode [0b11110111, 0b11111011] = .matched (.idiv (.word (.reg .bx))) [] ∧
  decode [0b11101000, 0x05, 0x00] = .matched (.callNear 0x0005) [] ∧
  decode [0b10011010, 0x78, 0x56, 0x34, 0x12] = .matched (.callFar 0x5678 0x1234) [] ∧
  decode [0b11111111, 0b00011111] = .matched (.callFarRm (.mem (.noDisp .bx))) [] ∧
  decode [0b11111111, 0b11100000] = .matched (.jmpRm (.reg .ax)) []

/-- Decoding the encoding of a well-formed instruction, whatever bytes follow it, gives the instruction and those
bytes. -/
def Obligations.DecodeEncode : Prop :=
  ∀ i : Instr, i.wf = true → ∀ rest, decode (encode i ++ rest) = .matched i rest

/-- What decodes is well-formed and encodes to exactly the bytes consumed: `toBinary(resolve(matchBytes(b))) == b`, law
(a) of `30_encoding.md` R128, with aliases keeping their own fields (R110). -/
def Obligations.EncodeDecode : Prop :=
  ∀ bs i rest, decode bs = .matched i rest → i.wf = true ∧ bs = encode i ++ rest

/-- The matched length is that of the table of `30_encoding.md` R108, told from the first byte and the ModRM byte; it is
between 1 and 6 and takes both values. -/
def Obligations.LengthFromFirstTwoBytes : Prop :=
  (∀ bs i rest, decode bs = .matched i rest →
    i.len = specLength (bs.getD 0 0) (bs.getD 1 0) ∧ bs.length = i.len + rest.length ∧ 1 ≤ i.len ∧ i.len ≤ 6) ∧
  (∃ bs i, decode bs = .matched i [] ∧ bs.length = 1) ∧ ∃ bs i, decode bs = .matched i [] ∧ bs.length = 6

/-- No byte stream matches the literal bits of two rows of the table, so trying the rows in any other order gives the
same decode result (`30_encoding.md` R101). -/
def Obligations.RowsDisjoint : Prop :=
  opcodeTable.Pairwise (fun r q => ∀ bs, ¬(matchesFixed r.fixed bs = true ∧ matchesFixed q.fixed bs = true)) ∧
  ∀ rows, List.Perm rows opcodeTable → ∀ bs,
    rows.findSome? (fun r => r.decode bs) = opcodeTable.findSome? (fun r => r.decode bs)

/-- No-Match is exactly what `30_encoding.md` R112 lists: a first byte or a second byte out of scope, or a stream too
short. Bytes are never malformed, which is R102's own inference. That the step then ends as a refusal, without a next
state, is the model's choice (log 9): R112 and `60_exceptions.md` R272 say that no state changes. -/
def Obligations.NoMatchSet : Prop :=
  (∀ bs, decode bs = .noMatch ↔
    inScope (bs.getD 0 0) (bs.getD 1 0) = false ∨ bs.length < specLength (bs.getD 0 0) (bs.getD 1 0)) ∧
  (∀ bs, decode bs ≠ .malformedField) ∧
  ∀ s : State, decode s.fetchBytes = .noMatch → step s = .refused .noMatch

/-- The template strings of every row accept the leading bytes that the row's `match` and `mask` accept, and the matcher
on binary strings, `test` and `rawFields`, succeeds exactly where the row decodes, so not where a displacement or
immediate byte is missing (`30_encoding.md` R80, R100, R112). -/
def Obligations.TemplatesAgreeWithMasks : Prop :=
  ∀ r ∈ opcodeTable, ∀ bs : List Byte,
    (r.templates.length ≤ bs.length → templatesMatch r.templates bs = matchesFixed r.fixed bs) ∧
    (bs.length < r.templates.length → templatesMatch r.templates bs = false) ∧
    Row.test r bs = (r.decode bs).isSome ∧ (Row.rawFields r bs).isSome = (r.decode bs).isSome

/-- The binary, hexadecimal and decimal views of a byte are total and invertible, bit 7 and the most significant nibble
first (`30_encoding.md` R96). -/
def Obligations.ByteViews : Prop :=
  (∀ b : Byte, (binaryText b).length = 8 ∧
    ∀ k, k < 8 → (binaryText b)[k]? = some (if b.getLsbD (7 - k) then '1' else '0')) ∧
  (∀ b : Byte, byteOfBinary (binaryText b) = some b) ∧
  (∀ cs b, byteOfBinary cs = some b → binaryText b = cs) ∧
  (∀ b : Byte, (hexByte b).length = 2 ∧ byteOfHex (hexByte b) = some b) ∧
  (∀ cs b, byteOfHex cs = some b → hexByte b = cs) ∧
  (∀ b : Byte, byteOfDecimal b.toNat = some b) ∧ (∀ n b, byteOfDecimal n = some b → b.toNat = n) ∧
  hexByte 0x2F = ['2', 'F']

/-- The ModRM byte and its trailing bytes give the operand that the classes of `30_encoding.md` R84 give, of either
width, its base by the `rm` numbering of R85, and as many bytes are used; `reg` is bits 5:3. -/
def Obligations.ModRmClasses : Prop :=
  ∀ (m x y : Byte) (rest : List Byte),
    decode ([0b00000000, m, x, y] ++ rest) =
      .matched (.addRmReg .toRm (.byte (specRm Reg8.ofCode m x y) (Reg8.ofCode (m.extractLsb' 3 3))))
        (([x, y] ++ rest).drop (specDispBytes m)) ∧
    decode ([0b00000001, m, x, y] ++ rest) =
      .matched (.addRmReg .toRm (.word (specRm Reg16.ofCode m x y) (Reg16.ofCode (m.extractLsb' 3 3))))
        (([x, y] ++ rest).drop (specDispBytes m))

/-! # Text and the facade -/

/-- `toText` is accepted text and comes back as the same instruction, but across the alias classes (a) and (c) of R110,
where the text is the same and the first registered instruction comes back (law (b) of `30_encoding.md` R128). -/
def Obligations.TextRoundTrip : Prop :=
  ∀ i : Instr, i.wf = true →
    assemble (toText i) = .matched (registeredFirst i) [] ∧ toText (registeredFirst i) = toText i

/-- Accepted text may have any letter in either case (`30_encoding.md` R120). -/
def Obligations.TextIgnoresCase : Prop :=
  ∀ line : List Char, assemble (line.map Char.toLower) = assemble line ∧
    assemble (line.map Char.toUpper) = assemble line

/-- The views of a matched instruction (`30_encoding.md` R128): binary, hexadecimal and decimal all read back as the
bytes consumed, the size is their number, and the action is the instruction's. -/
def Obligations.ResultViews : Prop :=
  ∀ bs i rest, decode bs = .matched i rest →
    ((result i).binary.map byteOfBinary = (bs.take i.len).map some ∧
      (result i).hex.map byteOfHex = (bs.take i.len).map some ∧
      (result i).decimal.map byteOfDecimal = (bs.take i.len).map some) ∧
    (result i).size = bs.length - rest.length ∧ (result i).text = toText i ∧
    ∀ s, Result.action i s = exec i s

/-- The raw field map that the matcher gives for the decoding row, the injected opcode extension included, is the binary
spelling of every typed field, and of no other (`30_encoding.md` R87, R95, R100); the spellings of `disp`, `ea`, `val` and
`val2` are together the digits of the bytes after the leading ones, in the order of the stream (R81, R91 to R94). A
16-bit field is spelt low byte first, as matched: `90_conflicts.md` C4 states it of `disp`; of `ea`, `val` and `val2` it is
deduced (log 15). -/
def Obligations.TypedFieldBits : Prop :=
  ∀ bs i rest, decode bs = .matched i rest →
    ∃ r ∈ opcodeTable, r.decode bs = some (i, rest) ∧
      Row.rawFields r bs = some ((typedFields i).map fun f => (f.name, f.binaryText)) ∧
      ((typedFields i).filter fun f => f.name.isTrailing).flatMap TypedField.binaryText =
        ((bs.take i.len).drop r.templates.length).flatMap binaryText

/-! # Registers, memory and operands -/

/-- Physical addresses, byte and word reads and writes, least significant byte first, the high byte's offset wrapping
inside the segment (`20_memory.md` R51, R55, R56). -/
def Obligations.MemoryAccess : Prop :=
  ∀ (s : State) (seg off : Word) (a : Nat),
    s.phys seg off = (seg.toNat * 16 + off.toNat) % 2 ^ (20 + s.cfg.extraAddressBits) ∧
    s.memRead8 seg off = Memory.read s.mem (s.phys seg off) ∧
    s.memRead16 seg off = s.memRead8 seg (off + 1) ++ s.memRead8 seg off ∧
    (∀ v : Byte, Memory.read (s.memWrite8 seg off v).mem a =
      if a = s.phys seg off then v else Memory.read s.mem a) ∧
    (∀ v : Word, Memory.read (s.memWrite16 seg off v).mem a =
      if a = s.phys seg (off + 1) then v.extractLsb' 8 8
      else if a = s.phys seg off then v.extractLsb' 0 8 else Memory.read s.mem a) ∧
    ∀ v : Word, (s.memWrite16 seg off v).memRead16 seg off = v

/-- The numberings of R23 and R24, the halves, and what a write to a register leaves (`10_state.md` R23, R24). -/
def Obligations.RegisterHalves : Prop :=
  [0, 1, 2, 3, 4, 5, 6, 7].map Reg16.ofCode = [.ax, .cx, .dx, .bx, .sp, .bp, .si, .di] ∧
  [0, 1, 2, 3, 4, 5, 6, 7].map Reg8.ofCode = [.al, .cl, .dl, .bl, .ah, .ch, .dh, .bh] ∧
  (∀ s : State, s.reg16 .ax = s.reg8 .ah ++ s.reg8 .al ∧ s.reg16 .cx = s.reg8 .ch ++ s.reg8 .cl ∧
    s.reg16 .dx = s.reg8 .dh ++ s.reg8 .dl ∧ s.reg16 .bx = s.reg8 .bh ++ s.reg8 .bl) ∧
  (∀ (s : State) (r q : Reg8) (v : Byte), (s.setReg8 r v).reg8 q = if q = r then v else s.reg8 q) ∧
  (∀ (s : State) (r : Reg8) (v : Byte), RegsKept s (s.setReg8 r v) [r.parent]) ∧
  ∀ (s : State) (r q : Reg16) (v : Word), (s.setReg16 r v).reg16 q = if q = r then v else s.reg16 q

/-- A memory operand is read and written at the sum of its base registers and its addend, mod 2^16, in its default
segment or the override's (`40_operand_resolver.md` R143, R144, R146, R150, R151). -/
def Obligations.EffectiveAddress : Prop :=
  ∀ (s : State) (m : MemOp),
    let g := s.seg (s.input.segovr.getD (specSegment m))
    let o := specOffset s m
    s.get8 (s.rmLoc (.mem m)) = s.memRead8 g o ∧ s.get16 (s.rmLoc (.mem m)) = s.memRead16 g o ∧
    (∀ v, s.set8 (s.rmLoc (.mem m)) v = s.memWrite8 g o v) ∧
    ∀ v, s.set16 (s.rmLoc (.mem m)) v = s.memWrite16 g o v

/-- The override input moves the instruction's memory operand and the word after it, and neither a register operand, nor
a stack push, nor instruction fetch (`40_operand_resolver.md` R147, R152). -/
def Obligations.OverrideScope : Prop :=
  ∀ (s : State) (g : SegReg),
    (∀ m : MemOp, ∃ l, (s.withOverride (some g)).rmLoc (R := Reg16) (.mem m) = .mem g m.base m.addend ∧
      (Loc.mem g m.base m.addend).next = some l ∧
      s.get16 l = s.memRead16 (s.seg g) (specOffset s m + 2)) ∧
    (∀ m : MemOp, (s.withOverride none).rmLoc (R := Reg16) (.mem m) = .mem (specSegment m) m.base m.addend) ∧
    (∀ r : Reg16, (s.withOverride (some g)).rmLoc (.reg r) = .reg r ∧ (Loc.reg r).next = none) ∧
    (∀ v, (s.withOverride (some g)).push16 v = (s.push16 v).withOverride (some g)) ∧
    (s.withOverride (some g)).fetchBytes = s.fetchBytes

/-- Where instruction bytes come from (`20_memory.md` R67): memory at CS:(IP + k), or byte `k` of a supplied stream from
its offset, absent past the end. -/
def Obligations.FetchSource : Prop :=
  ∀ (s : State) (k : Nat),
    (s.input.stream = .memory →
      s.fetch k = some (s.memRead8 (s.seg .cs) (s.ip + BitVec.ofNat 16 k)) ∧ s.fetchBytes.length = 6) ∧
    ∀ bytes offset, s.input.stream = .supplied bytes offset →
      s.fetch k = (bytes.drop offset)[k]? ∧ s.fetchBytes = (bytes.drop offset).take 6

/-! # The flag engine -/

/-- The document's own testable property (`41_flag_engine.md` R175). -/
def Obligations.AddFlagProperty : Prop :=
  ∀ (a b : BitVec 8) (f : Flags),
    let t := flagsAdd a b false f
    let r := (a.toNat + b.toNat) % 256
    (t.ZF = true ↔ r = 0) ∧ (t.CF = true ↔ a.toNat + b.toNat > 255) ∧ (t.SF = true ↔ r / 128 = 1) ∧
    (t.PF = true ↔ popcount8 r % 2 = 0)

/-- `SetFlags_add` (`41_flag_engine.md` R170): result and six flags, OF by its formula and as signed overflow (R165). -/
def Obligations.AddEngine : Prop :=
  ∀ W, W = 8 ∨ W = 16 → ∀ (a b : BitVec W) (c : Bool) (f : Flags),
    let r := addResult a b c
    let t := flagsAdd a b c f
    let sign := BitVec.ofNat W (2 ^ (W - 1))
    r.toNat = (a.toNat + b.toNat + c.toNat) % 2 ^ W ∧
    (t.CF = true ↔ a.toNat + b.toNat + c.toNat > 2 ^ W - 1) ∧ FlagsOfResult r t ∧
    (t.OF = true ↔ (a ^^^ b ^^^ sign) &&& (r ^^^ a) &&& sign ≠ 0) ∧
    (t.OF = true ↔ ¬InRange W (a.toInt + b.toInt + c.toNat)) ∧
    (t.AF = true ↔ a.toNat % 16 + b.toNat % 16 + c.toNat > 15) ∧
    t.AF = (a ^^^ b ^^^ r).getLsbD 4 ∧ ControlFlagsKept f t

/-- `SetFlags_sub` (`41_flag_engine.md` R171): result and six flags, OF by its formula and as signed overflow (R166). -/
def Obligations.SubEngine : Prop :=
  ∀ W, W = 8 ∨ W = 16 → ∀ (a b : BitVec W) (c : Bool) (f : Flags),
    let r := subResult a b c
    let t := flagsSub a b c f
    let sign := BitVec.ofNat W (2 ^ (W - 1))
    (r.toNat : Int) = ((a.toNat : Int) - b.toNat - c.toNat) % 2 ^ W ∧
    (t.CF = true ↔ a.toNat < b.toNat + c.toNat) ∧ FlagsOfResult r t ∧
    (t.OF = true ↔ (a ^^^ b) &&& (a ^^^ r) &&& sign ≠ 0) ∧
    (t.OF = true ↔ ¬InRange W (a.toInt - b.toInt - c.toNat)) ∧
    (t.AF = true ↔ a.toNat % 16 < b.toNat % 16 + c.toNat) ∧
    t.AF = (a ^^^ b ^^^ r).getLsbD 4 ∧ ControlFlagsKept f t

/-- `SetFlags_logic` and `SetSZP` (`41_flag_engine.md` R172, R173, R167). -/
def Obligations.LogicEngine : Prop :=
  ∀ W, W = 8 ∨ W = 16 → ∀ (r : BitVec W) (f : Flags),
    (FlagsOfResult r (flagsLogic r f) ∧ (flagsLogic r f).CF = false ∧ (flagsLogic r f).OF = false ∧
      (flagsLogic r f).AF = false ∧ ControlFlagsKept f (flagsLogic r f)) ∧
    FlagsOfResult r (setSZP r f) ∧ (setSZP r f).CF = f.CF ∧ (setSZP r f).OF = f.OF ∧ (setSZP r f).AF = f.AF ∧
      ControlFlagsKept f (setSZP r f)

/-! # Two-operand arithmetic and logic, TEST, MOV -/

/-- ADD (`42_alu.md` R184): every form completes, with encoding, result, flags and frame. -/
def Obligations.AddMeaning : Prop :=
  Group1Encoding 0 .addRmReg .addAccImm .addRmImm ∧
    AluRuns .addRmReg .addAccImm .addRmImm (fun _ a b _ => a + b) (fun _ a b f => flagsAdd a b false f)

/-- OR (R185). -/
def Obligations.OrMeaning : Prop :=
  Group1Encoding 1 .orRmReg .orAccImm .orRmImm ∧
    AluRuns .orRmReg .orAccImm .orRmImm (fun _ a b _ => a ||| b) (fun _ a b f => flagsLogic (a ||| b) f)

/-- ADC (R186): the old CF is added and counted in the flags. -/
def Obligations.AdcMeaning : Prop :=
  Group1Encoding 2 .adcRmReg .adcAccImm .adcRmImm ∧
    AluRuns .adcRmReg .adcAccImm .adcRmImm (fun W a b f => a + b + BitVec.ofNat W f.CF.toNat)
      (fun _ a b f => flagsAdd a b f.CF f)

/-- SBB (R187): the old CF is subtracted and counted in the flags. -/
def Obligations.SbbMeaning : Prop :=
  Group1Encoding 3 .sbbRmReg .sbbAccImm .sbbRmImm ∧
    AluRuns .sbbRmReg .sbbAccImm .sbbRmImm (fun W a b f => a - b - BitVec.ofNat W f.CF.toNat)
      (fun _ a b f => flagsSub a b f.CF f)

/-- AND (R188). -/
def Obligations.AndMeaning : Prop :=
  Group1Encoding 4 .andRmReg .andAccImm .andRmImm ∧
    AluRuns .andRmReg .andAccImm .andRmImm (fun _ a b _ => a &&& b) (fun _ a b f => flagsLogic (a &&& b) f)

/-- SUB (R189). -/
def Obligations.SubMeaning : Prop :=
  Group1Encoding 5 .subRmReg .subAccImm .subRmImm ∧
    AluRuns .subRmReg .subAccImm .subRmImm (fun _ a b _ => a - b) (fun _ a b f => flagsSub a b false f)

/-- XOR (R190). -/
def Obligations.XorMeaning : Prop :=
  Group1Encoding 6 .xorRmReg .xorAccImm .xorRmImm ∧
    AluRuns .xorRmReg .xorAccImm .xorRmImm (fun _ a b _ => a ^^^ b) (fun _ a b f => flagsLogic (a ^^^ b) f)

/-- CMP (R191): the flags of SUB and nothing written. -/
def Obligations.CmpMeaning : Prop :=
  Group1Encoding 7 .cmpRmReg .cmpAccImm .cmpRmImm ∧
    (∀ s i dst b, AluByte .cmpRmReg .cmpAccImm .cmpRmImm s i dst b →
      FlagsRun i s (flagsSub (s.get8 dst) b false s.flags)) ∧
    ∀ s i dst b, AluWord .cmpRmReg .cmpAccImm .cmpRmImm s i dst b →
      FlagsRun i s (flagsSub (s.get16 dst) b false s.flags)

/-- TEST (R192): the flags of AND and nothing written. -/
def Obligations.TestMeaning : Prop :=
  (EncodedBy (fun i => ∃ o, i = .testRmReg o) [(0x84, 0xFE)] ∧
    EncodedBy (fun i => ∃ o, i = .testAccImm o) [(0xA8, 0xFE)] ∧
    EncodedBy (fun i => ∃ o, i = .testRmImm o) [(0xF6, 0xFE), (0x00, 0x38)]) ∧
  ∀ s : State,
    (∀ rm reg, FlagsRun (.testRmReg (.byte rm reg)) s (flagsLogic (s.get8 (s.rmLoc rm) &&& s.reg8 reg) s.flags)) ∧
    (∀ rm reg, FlagsRun (.testRmReg (.word rm reg)) s (flagsLogic (s.get16 (s.rmLoc rm) &&& s.reg16 reg) s.flags)) ∧
    (∀ v, FlagsRun (.testAccImm (.byte v)) s (flagsLogic (s.reg8 .al &&& v) s.flags)) ∧
    (∀ v, FlagsRun (.testAccImm (.word v)) s (flagsLogic (s.reg16 .ax &&& v) s.flags)) ∧
    (∀ rm v, FlagsRun (.testRmImm (.byte rm v)) s (flagsLogic (s.get8 (s.rmLoc rm) &&& v) s.flags)) ∧
    ∀ rm v, FlagsRun (.testRmImm (.word rm v)) s (flagsLogic (s.get16 (s.rmLoc rm) &&& v) s.flags)

/-- MOV (`43_mov.md` R200, R201): the source's value in the destination, no flag, nothing else. -/
def Obligations.MovMeaning : Prop :=
  (EncodedBy (fun i => ∃ d o, i = .movRmReg d o) [(0x88, 0xFC)] ∧
    EncodedBy (fun i => ∃ o, i = .movRmImm o) [(0xC6, 0xFE), (0x00, 0x38)]) ∧
  ∀ s : State,
    (∀ rm reg, ByteRuns (.movRmReg .toRm (.byte rm reg)) s (s.rmLoc rm) (s.reg8 reg) s.flags) ∧
    (∀ rm reg, ByteRuns (.movRmReg .toReg (.byte rm reg)) s (.reg reg) (s.get8 (s.rmLoc rm)) s.flags) ∧
    (∀ rm reg, WordRuns (.movRmReg .toRm (.word rm reg)) s (s.rmLoc rm) (s.reg16 reg) s.flags) ∧
    (∀ rm reg, WordRuns (.movRmReg .toReg (.word rm reg)) s (.reg reg) (s.get16 (s.rmLoc rm)) s.flags) ∧
    (∀ rm v, ByteRuns (.movRmImm (.byte rm v)) s (s.rmLoc rm) v s.flags) ∧
    ∀ rm v, WordRuns (.movRmImm (.word rm v)) s (s.rmLoc rm) v s.flags

/-! # Decimal and ASCII adjust -/

/-- AAA and AAS (`44_decimal_adjust.md` R210, R211). -/
def Obligations.AsciiAdjustMeaning : Prop :=
  (EncodedBy (fun i => i = .aaa) [(0x37, 0xFF)] ∧ EncodedBy (fun i => i = .aas) [(0x3F, 0xFF)]) ∧
  ∀ s : State,
    let al := s.reg8 .al
    let ah := s.reg8 .ah
    let adj : Bool := decide (al.toNat % 16 > 9) || s.flags.AF
    (∃ t, exec .aaa s = .next t ∧ t.reg8 .al = (if adj then al + 6 else al) &&& 0x0F ∧
      t.reg8 .ah = (if adj then ah + 1 else ah) ∧ t.flags = { s.flags with CF := adj, AF := adj } ∧
      t.ip = s.ip + 1 ∧ OnlyRegs s t [.ax]) ∧
    ∃ t, exec .aas s = .next t ∧ t.reg8 .al = (if adj then al - 6 else al) &&& 0x0F ∧
      t.reg8 .ah = (if adj then ah - 1 else ah) ∧ t.flags = { s.flags with CF := adj, AF := adj } ∧
      t.ip = s.ip + 1 ∧ OnlyRegs s t [.ax]

/-- DAA (`44_decimal_adjust.md` R212). -/
def Obligations.DaaMeaning : Prop :=
  EncodedBy (fun i => i = .daa) [(0x27, 0xFF)] ∧
  ∀ s : State,
    let al := s.reg8 .al
    let low : Bool := decide (al.toNat % 16 > 9) || s.flags.AF
    let high : Bool := decide (al.toNat > 0x99) || s.flags.CF
    let r := al + (if low then 6 else 0) + (if high then 0x60 else 0)
    ∃ t, exec .daa s = .next t ∧ t.reg8 .al = r ∧ t.reg8 .ah = s.reg8 .ah ∧
      t.flags = { setSZP r s.flags with CF := high, AF := low } ∧ t.ip = s.ip + 1 ∧ OnlyRegs s t [.ax]

/-- DAS (`44_decimal_adjust.md` R213): CF keeps the borrow of the first step where the second is not taken. -/
def Obligations.DasMeaning : Prop :=
  EncodedBy (fun i => i = .das) [(0x2F, 0xFF)] ∧
  ∀ s : State,
    let al := s.reg8 .al
    let low : Bool := decide (al.toNat % 16 > 9) || s.flags.AF
    let high : Bool := decide (al.toNat > 0x99) || s.flags.CF
    let r := al - (if low then 6 else 0) - (if high then 0x60 else 0)
    ∃ t, exec .das s = .next t ∧ t.reg8 .al = r ∧ t.reg8 .ah = s.reg8 .ah ∧
      t.flags = { setSZP r s.flags with
        CF := if high then true else low && (s.flags.CF || decide (al.toNat < 6)), AF := low } ∧
      t.ip = s.ip + 1 ∧ OnlyRegs s t [.ax]

/-- AAM and AAD (`44_decimal_adjust.md` R214, R215). -/
def Obligations.RadixAdjustMeaning : Prop :=
  (EncodedBy (fun i => i = .aam) [(0xD4, 0xFF), (0x0A, 0xFF)] ∧
    EncodedBy (fun i => i = .aad) [(0xD5, 0xFF), (0x0A, 0xFF)]) ∧
  ∀ s : State,
    (∃ t, exec .aam s = .next t ∧ (t.reg8 .ah).toNat = (s.reg8 .al).toNat / 10 ∧
      (t.reg8 .al).toNat = (s.reg8 .al).toNat % 10 ∧ t.flags = setSZP (t.reg8 .al) s.flags ∧
      t.flags.SF = false ∧ (t.flags.ZF = true ↔ (s.reg8 .al).toNat % 10 = 0) ∧
      t.ip = s.ip + 2 ∧ OnlyRegs s t [.ax]) ∧
    ∃ t, exec .aad s = .next t ∧ (t.reg8 .al).toNat = ((s.reg8 .ah).toNat * 10 + (s.reg8 .al).toNat) % 256 ∧
      t.reg8 .ah = 0 ∧ t.flags = setSZP (t.reg8 .al) s.flags ∧ t.ip = s.ip + 2 ∧ OnlyRegs s t [.ax]

/-! # Division -/

/-- DIV (`45_divide.md` R231): the fault exactly for a zero divisor or a quotient that does not fit, which is a high half
not below the divisor; else quotient, remainder and frame. -/
def Obligations.DivMeaning : Prop :=
  EncodedBy (fun i => ∃ o, i = .div o) [(0xF6, 0xFE), (0x30, 0x38)] ∧
  (∀ (s : State) (rm : Rm Reg8),
    let v := (s.get8 (s.rmLoc rm)).toNat
    let n := (s.reg16 .ax).toNat
    (v = 0 ∨ n / v > 255 → exec (.div (.byte rm)) s = .fault .divideError) ∧
    (v ≠ 0 → (n / v > 255 ↔ v ≤ (s.reg8 .ah).toNat)) ∧
    (v ≠ 0 → n / v ≤ 255 → ∃ t, exec (.div (.byte rm)) s = .next t ∧ (t.reg8 .al).toNat = n / v ∧
      (t.reg8 .ah).toNat = n % v ∧ t.flags = s.flags ∧
      t.ip = s.ip + BitVec.ofNat 16 (2 + rm.dispBytes) ∧ OnlyRegs s t [.ax])) ∧
  ∀ (s : State) (rm : Rm Reg16),
    let v := (s.get16 (s.rmLoc rm)).toNat
    let n := (s.reg16 .dx).toNat * 65536 + (s.reg16 .ax).toNat
    (v = 0 ∨ n / v > 65535 → exec (.div (.word rm)) s = .fault .divideError) ∧
    (v ≠ 0 → (n / v > 65535 ↔ v ≤ (s.reg16 .dx).toNat)) ∧
    (v ≠ 0 → n / v ≤ 65535 → ∃ t, exec (.div (.word rm)) s = .next t ∧ (t.reg16 .ax).toNat = n / v ∧
      (t.reg16 .dx).toNat = n % v ∧ t.flags = s.flags ∧
      t.ip = s.ip + BitVec.ofNat 16 (2 + rm.dispBytes) ∧ OnlyRegs s t [.ax, .dx])

/-- IDIV (`45_divide.md` R232), with `IDIV_MIN_W` the parameter of the state: `-(2^(W-1) - 1)`, or `-2^(W-1)`. -/
def Obligations.IdivMeaning : Prop :=
  EncodedBy (fun i => ∃ o, i = .idiv o) [(0xF6, 0xFE), (0x38, 0x38)] ∧
  (∀ (s : State) (rm : Rm Reg8),
    let v := (s.get8 (s.rmLoc rm)).toInt
    let n := (s.reg16 .ax).toInt
    let min : Int := if s.cfg.idivLimit = .symmetric then -127 else -128
    (v = 0 ∨ n.tdiv v > 127 ∨ n.tdiv v < min → exec (.idiv (.byte rm)) s = .fault .divideError) ∧
    (v ≠ 0 → n.tdiv v ≤ 127 → min ≤ n.tdiv v → ∃ t, exec (.idiv (.byte rm)) s = .next t ∧
      (t.reg8 .al).toInt = n.tdiv v ∧ (t.reg8 .ah).toInt = n.tmod v ∧ t.flags = s.flags ∧
      t.ip = s.ip + BitVec.ofNat 16 (2 + rm.dispBytes) ∧ OnlyRegs s t [.ax])) ∧
  ∀ (s : State) (rm : Rm Reg16),
    let v := (s.get16 (s.rmLoc rm)).toInt
    let n := (s.reg16 .dx ++ s.reg16 .ax).toInt
    let min : Int := if s.cfg.idivLimit = .symmetric then -32767 else -32768
    (v = 0 ∨ n.tdiv v > 32767 ∨ n.tdiv v < min → exec (.idiv (.word rm)) s = .fault .divideError) ∧
    (v ≠ 0 → n.tdiv v ≤ 32767 → min ≤ n.tdiv v → ∃ t, exec (.idiv (.word rm)) s = .next t ∧
      (t.reg16 .ax).toInt = n.tdiv v ∧ (t.reg16 .dx).toInt = n.tmod v ∧ t.flags = s.flags ∧
      t.ip = s.ip + BitVec.ofNat 16 (2 + rm.dispBytes) ∧ OnlyRegs s t [.ax, .dx])

/-! # Control transfer -/

/-- CALL near-relative (`46_control_transfer.md` R243), with the push of `20_memory.md` R66. -/
def Obligations.CallNearMeaning : Prop :=
  EncodedBy (fun i => ∃ v, i = .callNear v) [(0xE8, 0xFF)] ∧
  ∀ (s : State) (val : Word), (Instr.callNear val).len = 3 ∧ NearCallRuns (.callNear val) s (s.ip + 3 + val)

/-- CALL near-indirect (R245): the target is the operand's value before the push. -/
def Obligations.CallNearIndirectMeaning : Prop :=
  EncodedBy (fun i => ∃ rm, i = .callRm rm) [(0xFF, 0xFF), (0x10, 0x38)] ∧
  ∀ (s : State) (rm : Rm Reg16), NearCallRuns (.callRm rm) s (s.get16 (s.rmLoc rm))

/-- CALL far-direct (R247). -/
def Obligations.CallFarMeaning : Prop :=
  EncodedBy (fun i => ∃ v v2, i = .callFar v v2) [(0x9A, 0xFF)] ∧
  ∀ (s : State) (val val2 : Word), (Instr.callFar val val2).len = 5 ∧ FarCallRuns (.callFar val val2) s val val2

/-- CALL far-indirect (R249): offset then segment from memory, both read before the pushes; a register operand faults. -/
def Obligations.CallFarIndirectMeaning : Prop :=
  EncodedBy (fun i => ∃ rm, i = .callFarRm rm) [(0xFF, 0xFF), (0x18, 0x38)] ∧
  (∀ (s : State) (r : Reg16), exec (.callFarRm (.reg r)) s = .fault .unresolvableFarTarget) ∧
  ∀ (s : State) (m : MemOp),
    let g := s.seg (s.input.segovr.getD (specSegment m))
    FarCallRuns (.callFarRm (.mem m)) s (s.memRead16 g (specOffset s m)) (s.memRead16 g (specOffset s m + 2))

/-- JMP near-relative and near-indirect (R244, R246): IP and nothing else. -/
def Obligations.JmpNearMeaning : Prop :=
  (EncodedBy (fun i => ∃ v, i = .jmpNear v) [(0xE9, 0xFF)] ∧
    EncodedBy (fun i => ∃ rm, i = .jmpRm rm) [(0xFF, 0xFF), (0x20, 0x38)]) ∧
  ∀ s : State,
    (∀ val : Word, exec (.jmpNear val) s = .next { s with ip := s.ip + 3 + val }) ∧
    ∀ rm : Rm Reg16, exec (.jmpRm rm) s = .next { s with ip := s.get16 (s.rmLoc rm) }

/-- JMP far-direct and far-indirect (R248, R250): CS and IP and nothing else; a register operand faults. -/
def Obligations.JmpFarMeaning : Prop :=
  (EncodedBy (fun i => ∃ v v2, i = .jmpFar v v2) [(0xEA, 0xFF)] ∧
    EncodedBy (fun i => ∃ rm, i = .jmpFarRm rm) [(0xFF, 0xFF), (0x28, 0x38)]) ∧
  ∀ s : State,
    (∀ val val2 : Word, exec (.jmpFar val val2) s = .next { s with ip := val, segs := { s.segs with CS := val2 } }) ∧
    (∀ r : Reg16, exec (.jmpFarRm (.reg r)) s = .fault .unresolvableFarTarget) ∧
    ∀ m : MemOp,
      let g := s.seg (s.input.segovr.getD (specSegment m))
      exec (.jmpFarRm (.mem m)) s = .next { s with
        ip := s.memRead16 g (specOffset s m),
        segs := { s.segs with CS := s.memRead16 g (specOffset s m + 2) } }

/-! # What the instructions are for -/

/-- ADC then DAA adds two-digit decimal numbers with carry (R186, R212). -/
def Obligations.DecimalAddition : Prop :=
  ∀ (s : State) (b : Byte), IsBcd (s.reg8 .al) → IsBcd b →
    ∃ t u, exec (.adcAccImm (.byte b)) s = .next t ∧ exec .daa t = .next u ∧ IsBcd (u.reg8 .al) ∧
      bcdValue (u.reg8 .al) + 100 * u.flags.CF.toNat =
        bcdValue (s.reg8 .al) + bcdValue b + s.flags.CF.toNat

/-- SBB then DAS subtracts two-digit decimal numbers with borrow (R187, R213). -/
def Obligations.DecimalSubtraction : Prop :=
  ∀ (s : State) (b : Byte), IsBcd (s.reg8 .al) → IsBcd b →
    ∃ t u, exec (.sbbAccImm (.byte b)) s = .next t ∧ exec .das t = .next u ∧ IsBcd (u.reg8 .al) ∧
      bcdValue (u.reg8 .al) + bcdValue b + s.flags.CF.toNat =
        bcdValue (s.reg8 .al) + 100 * u.flags.CF.toNat

/-- AAM splits AL into decimal digits and AAD puts them together again (R214, R215). -/
def Obligations.SplitThenJoinDigits : Prop :=
  ∀ s : State, ∃ t u, exec .aam s = .next t ∧ exec .aad t = .next u ∧
    u.reg16 .ax = (0 : Byte) ++ s.reg8 .al ∧ u.flags = setSZP (s.reg8 .al) s.flags

/-- ADD on the low words and ADC on the high words add 32-bit numbers, with CF the carry out and OF the signed
overflow (R184, R186). -/
def Obligations.WideAddition : Prop :=
  ∀ (s : State) (lo hi : Word),
    let a := s.reg16 .dx ++ s.reg16 .ax
    let b := hi ++ lo
    ∃ t u, exec (.addRmImm (.word (.reg .ax) lo)) s = .next t ∧
      exec (.adcRmImm (.word (.reg .dx) hi)) t = .next u ∧
      u.reg16 .dx ++ u.reg16 .ax = a + b ∧ (u.flags.CF = true ↔ a.toNat + b.toNat ≥ 2 ^ 32) ∧
      (u.flags.OF = true ↔ ¬InRange 32 (a.toInt + b.toInt))

/-- After CMP, ZF says equal, CF says unsigned less, and SF ≠ OF says signed less (R191, R171). -/
def Obligations.CompareOrders : Prop :=
  (∀ s i dst b, AluByte .cmpRmReg .cmpAccImm .cmpRmImm s i dst b → ∃ t, exec i s = .next t ∧
    (t.flags.ZF = true ↔ s.get8 dst = b) ∧ (t.flags.CF = true ↔ (s.get8 dst).toNat < b.toNat) ∧
    (t.flags.SF ≠ t.flags.OF ↔ (s.get8 dst).toInt < b.toInt)) ∧
  ∀ s i dst b, AluWord .cmpRmReg .cmpAccImm .cmpRmImm s i dst b → ∃ t, exec i s = .next t ∧
    (t.flags.ZF = true ↔ s.get16 dst = b) ∧ (t.flags.CF = true ↔ (s.get16 dst).toNat < b.toNat) ∧
    (t.flags.SF ≠ t.flags.OF ↔ (s.get16 dst).toInt < b.toInt)

/-! # Whole-machine rules -/

/-- The table of `10_state.md` R30, with its readers: other flags in place of those an instruction does not read change
nothing of its outcome but the flags it does not write, which pass through. -/
def Obligations.FlagTable : Prop :=
  ∀ (i : Instr) (s : State) (g : Flags),
    (readsCF i.mnemonic → g.CF = s.flags.CF) → (readsAF i.mnemonic → g.AF = s.flags.AF) →
    exec i (s.setFlags g) =
      mapNext (fun t => t.setFlags (mergeFlags (flagsWritten i.mnemonic) t.flags g)) (exec i s)

/-- IF, DF and TF are neither read nor written by a step (`10_state.md` R31). -/
def Obligations.ControlFlagsUntouched : Prop :=
  (∀ (s : State) (x y z : Bool), step (s.withControl x y z) = mapNext (fun t => t.withControl x y z) (step s)) ∧
  ∀ s t : State, step s = .next t → ControlFlagsKept s.flags t.flags

/-- DS, SS and ES are never written, and CS only by a far CALL or JMP (`10_state.md` R32). -/
def Obligations.SegmentWrites : Prop :=
  ∀ s t : State, step s = .next t →
    t.seg .ds = s.seg .ds ∧ t.seg .ss = s.seg .ss ∧ t.seg .es = s.seg .es ∧
    ∀ i rest, decode s.fetchBytes = .matched i rest → ¬isFar i → t.seg .cs = s.seg .cs

/-- An instruction that transfers no control and completes ends with IP past its bytes (`10_state.md` R28). -/
def Obligations.IpAdvances : Prop :=
  ∀ (s t : State) (i : Instr) (rest : List Byte), decode s.fetchBytes = .matched i rest → isTransfer i = false →
    step s = .next t → t.ip = s.ip + BitVec.ofNat 16 (s.fetchBytes.length - rest.length)

/-- The two causes are the complete list, each from its instructions only; every other instruction completes in every
state, and none is refused (`60_exceptions.md` R270, R271, R275). -/
def Obligations.OnlyTwoFaults : Prop :=
  ∀ (i : Instr) (s : State),
    (exec i s = .fault .divideError → isDivision i) ∧
    (exec i s = .fault .unresolvableFarTarget ↔ isFarRegister i) ∧
    (¬isDivision i → ¬isFarRegister i → ∃ t, exec i s = .next t) ∧
    ∀ r, exec i s ≠ .refused r

/-- A step runs the decoded instruction on the state before it, IP still at its first byte (`00_scope.md` R7, R8,
`10_state.md` R27); a completed step has used up one host input (log 6). -/
def Obligations.StepRunsDecoded : Prop :=
  ∀ (s : State) (i : Instr) (rest : List Byte), decode s.fetchBytes = .matched i rest →
    step s =
      match exec i s with
      | .next t => .next { t with inputs := t.inputs.tail }
      | .fault r => .fault r
      | .refused r => .refused r

/-- Where the bytes of a well-formed instruction stand at CS:IP, the offset wrapping in the segment, or at the offset of
a supplied stream, a step is the instruction's (`20_memory.md` R67). -/
def Obligations.StepRunsStored : Prop :=
  ∀ (s : State) (i : Instr), i.wf = true →
    (s.input.stream = .memory →
      (∀ (k : Nat) (h : k < (encode i).length),
        s.memRead8 (s.seg .cs) (s.ip + BitVec.ofNat 16 k) = (encode i)[k]) →
      step s = finishStep (exec i s)) ∧
    ∀ bytes offset rest, s.input.stream = .supplied bytes offset → bytes.drop offset = encode i ++ rest →
      step s = finishStep (exec i s)

/-- A store is seen by the next fetch (`20_memory.md` R64), whatever instruction made it: memory after a completed step is
memory before it with the instruction's stores, and nothing else, and every byte that the next step fetches from memory
is that memory's. -/
def Obligations.StoreSeenByFetch : Prop :=
  ∀ (s t : State) (i : Instr) (rest : List Byte), decode s.fetchBytes = .matched i rest → step s = .next t →
    (∀ a, Memory.read t.mem a = afterStores (storesOf i s) s.mem a) ∧
    (t.input.stream = .memory → ∀ k,
      t.fetch k = some (afterStores (storesOf i s) s.mem (t.phys (t.seg .cs) (t.ip + BitVec.ofNat 16 k))))

/-- The state with a table word placed for the next step fetches exactly that word's bytes, wherever CS:IP is (the
model's own placement, log 7 and 8). -/
def Obligations.PlacedWordIsFetched : Prop :=
  ∀ (s : State) (nbits w : Nat), nbits ≤ 48 →
    (s.withFetchWord nbits w).fetchBytes = tableBytes nbits w ∧ (tableBytes nbits w).length = 6 ∧
    ∀ i, decodeTableWord nbits w = some i →
      step (s.withFetchWord nbits w) = finishStep (exec i (s.withFetchWord nbits w))

/-! # The invariant -/

/-- Every step keeps memory canonical and inside the physical address space. -/
def Obligations.StepKeepsInvariant : Prop := ∀ s t : State, s.Inv → step s = .next t → t.Inv

/-- Reset meets the invariant. The reset state is the model's choice: the spec fixes no launch value, and that its memory
lists nothing is log 3. -/
def Obligations.ResetMeetsInvariant : Prop := State.reset.Inv
end

