-- ==== Sys2Proof/Laws/State.lean ====
section
/-! SUPPORT. One lemma per field per update of State, and what each reader of State sees after each update. -/

namespace Sys2Proof.Machine

variable (s : State)

@[simp] theorem setReg16_regs (r : Reg16) (v : Word) : (s.setReg16 r v).regs = s.regs.set r v := rfl
@[simp] theorem setReg16_segs (r : Reg16) (v : Word) : (s.setReg16 r v).segs = s.segs := rfl
@[simp] theorem setReg16_ip (r : Reg16) (v : Word) : (s.setReg16 r v).ip = s.ip := rfl
@[simp] theorem setReg16_flags (r : Reg16) (v : Word) : (s.setReg16 r v).flags = s.flags := rfl
@[simp] theorem setReg16_mem (r : Reg16) (v : Word) : (s.setReg16 r v).mem = s.mem := rfl
@[simp] theorem setReg16_inputs (r : Reg16) (v : Word) : (s.setReg16 r v).inputs = s.inputs := rfl
@[simp] theorem setReg16_cfg (r : Reg16) (v : Word) : (s.setReg16 r v).cfg = s.cfg := rfl

@[simp] theorem setReg8_segs (r : Reg8) (v : Byte) : (s.setReg8 r v).segs = s.segs := rfl
@[simp] theorem setReg8_ip (r : Reg8) (v : Byte) : (s.setReg8 r v).ip = s.ip := rfl
@[simp] theorem setReg8_flags (r : Reg8) (v : Byte) : (s.setReg8 r v).flags = s.flags := rfl
@[simp] theorem setReg8_mem (r : Reg8) (v : Byte) : (s.setReg8 r v).mem = s.mem := rfl
@[simp] theorem setReg8_inputs (r : Reg8) (v : Byte) : (s.setReg8 r v).inputs = s.inputs := rfl
@[simp] theorem setReg8_cfg (r : Reg8) (v : Byte) : (s.setReg8 r v).cfg = s.cfg := rfl

@[simp] theorem setCS_regs (v : Word) : (s.setCS v).regs = s.regs := rfl
@[simp] theorem setCS_segs (v : Word) : (s.setCS v).segs = { s.segs with CS := v } := rfl
@[simp] theorem setCS_ip (v : Word) : (s.setCS v).ip = s.ip := rfl
@[simp] theorem setCS_flags (v : Word) : (s.setCS v).flags = s.flags := rfl
@[simp] theorem setCS_mem (v : Word) : (s.setCS v).mem = s.mem := rfl
@[simp] theorem setCS_inputs (v : Word) : (s.setCS v).inputs = s.inputs := rfl
@[simp] theorem setCS_cfg (v : Word) : (s.setCS v).cfg = s.cfg := rfl

@[simp] theorem setIP_regs (v : Word) : (s.setIP v).regs = s.regs := rfl
@[simp] theorem setIP_segs (v : Word) : (s.setIP v).segs = s.segs := rfl
@[simp] theorem setIP_ip (v : Word) : (s.setIP v).ip = v := rfl
@[simp] theorem setIP_flags (v : Word) : (s.setIP v).flags = s.flags := rfl
@[simp] theorem setIP_mem (v : Word) : (s.setIP v).mem = s.mem := rfl
@[simp] theorem setIP_inputs (v : Word) : (s.setIP v).inputs = s.inputs := rfl
@[simp] theorem setIP_cfg (v : Word) : (s.setIP v).cfg = s.cfg := rfl

@[simp] theorem advance_regs (n : Nat) : (s.advance n).regs = s.regs := rfl
@[simp] theorem advance_segs (n : Nat) : (s.advance n).segs = s.segs := rfl
@[simp] theorem advance_ip (n : Nat) : (s.advance n).ip = s.ip + BitVec.ofNat 16 n := rfl
@[simp] theorem advance_flags (n : Nat) : (s.advance n).flags = s.flags := rfl
@[simp] theorem advance_mem (n : Nat) : (s.advance n).mem = s.mem := rfl
@[simp] theorem advance_inputs (n : Nat) : (s.advance n).inputs = s.inputs := rfl
@[simp] theorem advance_cfg (n : Nat) : (s.advance n).cfg = s.cfg := rfl

@[simp] theorem setFlags_regs (f : Flags) : (s.setFlags f).regs = s.regs := rfl
@[simp] theorem setFlags_segs (f : Flags) : (s.setFlags f).segs = s.segs := rfl
@[simp] theorem setFlags_ip (f : Flags) : (s.setFlags f).ip = s.ip := rfl
@[simp] theorem setFlags_flags (f : Flags) : (s.setFlags f).flags = f := rfl
@[simp] theorem setFlags_mem (f : Flags) : (s.setFlags f).mem = s.mem := rfl
@[simp] theorem setFlags_inputs (f : Flags) : (s.setFlags f).inputs = s.inputs := rfl
@[simp] theorem setFlags_cfg (f : Flags) : (s.setFlags f).cfg = s.cfg := rfl

@[simp] theorem memWrite8_regs (g o : Word) (v : Byte) : (s.memWrite8 g o v).regs = s.regs := rfl
@[simp] theorem memWrite8_segs (g o : Word) (v : Byte) : (s.memWrite8 g o v).segs = s.segs := rfl
@[simp] theorem memWrite8_ip (g o : Word) (v : Byte) : (s.memWrite8 g o v).ip = s.ip := rfl
@[simp] theorem memWrite8_flags (g o : Word) (v : Byte) : (s.memWrite8 g o v).flags = s.flags := rfl
@[simp] theorem memWrite8_mem (g o : Word) (v : Byte) : (s.memWrite8 g o v).mem = Memory.write s.mem (s.phys g o) v := rfl
@[simp] theorem memWrite8_inputs (g o : Word) (v : Byte) : (s.memWrite8 g o v).inputs = s.inputs := rfl
@[simp] theorem memWrite8_cfg (g o : Word) (v : Byte) : (s.memWrite8 g o v).cfg = s.cfg := rfl

@[simp] theorem memWrite16_regs (g o : Word) (v : Word) : (s.memWrite16 g o v).regs = s.regs := rfl
@[simp] theorem memWrite16_segs (g o : Word) (v : Word) : (s.memWrite16 g o v).segs = s.segs := rfl
@[simp] theorem memWrite16_ip (g o : Word) (v : Word) : (s.memWrite16 g o v).ip = s.ip := rfl
@[simp] theorem memWrite16_flags (g o : Word) (v : Word) : (s.memWrite16 g o v).flags = s.flags := rfl
@[simp] theorem memWrite16_mem (g o : Word) (v : Word) : (s.memWrite16 g o v).mem = Memory.write (Memory.write s.mem (s.phys g o) (lowByte v)) (s.phys g (o + 1)) (highByte v) := rfl
@[simp] theorem memWrite16_inputs (g o : Word) (v : Word) : (s.memWrite16 g o v).inputs = s.inputs := rfl
@[simp] theorem memWrite16_cfg (g o : Word) (v : Word) : (s.memWrite16 g o v).cfg = s.cfg := rfl

@[simp] theorem push16_regs (v : Word) : (s.push16 v).regs = s.regs.set .sp (s.reg16 .sp - 2) := rfl
@[simp] theorem push16_segs (v : Word) : (s.push16 v).segs = s.segs := rfl
@[simp] theorem push16_ip (v : Word) : (s.push16 v).ip = s.ip := rfl
@[simp] theorem push16_flags (v : Word) : (s.push16 v).flags = s.flags := rfl
@[simp] theorem push16_mem (v : Word) : (s.push16 v).mem = ((s.setReg16 .sp (s.reg16 .sp - 2)).memWrite16 (s.seg .ss) (s.reg16 .sp - 2) v).mem := rfl
@[simp] theorem push16_inputs (v : Word) : (s.push16 v).inputs = s.inputs := rfl
@[simp] theorem push16_cfg (v : Word) : (s.push16 v).cfg = s.cfg := rfl

@[simp] theorem dropInput_regs : s.dropInput.regs = s.regs := rfl
@[simp] theorem dropInput_segs : s.dropInput.segs = s.segs := rfl
@[simp] theorem dropInput_ip : s.dropInput.ip = s.ip := rfl
@[simp] theorem dropInput_flags : s.dropInput.flags = s.flags := rfl
@[simp] theorem dropInput_mem : s.dropInput.mem = s.mem := rfl
@[simp] theorem dropInput_inputs : s.dropInput.inputs = s.inputs.tail := rfl
@[simp] theorem dropInput_cfg : s.dropInput.cfg = s.cfg := rfl

@[simp] theorem setCS_reg16 (v : Word) (q : Reg16) : (s.setCS v).reg16 q = s.reg16 q := rfl
@[simp] theorem setIP_reg16 (v : Word) (q : Reg16) : (s.setIP v).reg16 q = s.reg16 q := rfl
@[simp] theorem advance_reg16 (n : Nat) (q : Reg16) : (s.advance n).reg16 q = s.reg16 q := rfl
@[simp] theorem setFlags_reg16 (f : Flags) (q : Reg16) : (s.setFlags f).reg16 q = s.reg16 q := rfl
@[simp] theorem memWrite8_reg16 (g o : Word) (v : Byte) (q : Reg16) : (s.memWrite8 g o v).reg16 q = s.reg16 q := rfl
@[simp] theorem memWrite16_reg16 (g o : Word) (v : Word) (q : Reg16) : (s.memWrite16 g o v).reg16 q = s.reg16 q := rfl
@[simp] theorem dropInput_reg16 (q : Reg16) : s.dropInput.reg16 q = s.reg16 q := rfl

@[simp] theorem setCS_reg8 (v : Word) (q : Reg8) : (s.setCS v).reg8 q = s.reg8 q := rfl
@[simp] theorem setIP_reg8 (v : Word) (q : Reg8) : (s.setIP v).reg8 q = s.reg8 q := rfl
@[simp] theorem advance_reg8 (n : Nat) (q : Reg8) : (s.advance n).reg8 q = s.reg8 q := rfl
@[simp] theorem setFlags_reg8 (f : Flags) (q : Reg8) : (s.setFlags f).reg8 q = s.reg8 q := rfl
@[simp] theorem memWrite8_reg8 (g o : Word) (v : Byte) (q : Reg8) : (s.memWrite8 g o v).reg8 q = s.reg8 q := rfl
@[simp] theorem memWrite16_reg8 (g o : Word) (v : Word) (q : Reg8) : (s.memWrite16 g o v).reg8 q = s.reg8 q := rfl
@[simp] theorem dropInput_reg8 (q : Reg8) : s.dropInput.reg8 q = s.reg8 q := rfl

@[simp] theorem setReg16_seg (r : Reg16) (v : Word) (q : SegReg) : (s.setReg16 r v).seg q = s.seg q := rfl
@[simp] theorem setReg8_seg (r : Reg8) (v : Byte) (q : SegReg) : (s.setReg8 r v).seg q = s.seg q := rfl
@[simp] theorem setIP_seg (v : Word) (q : SegReg) : (s.setIP v).seg q = s.seg q := rfl
@[simp] theorem advance_seg (n : Nat) (q : SegReg) : (s.advance n).seg q = s.seg q := rfl
@[simp] theorem setFlags_seg (f : Flags) (q : SegReg) : (s.setFlags f).seg q = s.seg q := rfl
@[simp] theorem memWrite8_seg (g o : Word) (v : Byte) (q : SegReg) : (s.memWrite8 g o v).seg q = s.seg q := rfl
@[simp] theorem memWrite16_seg (g o : Word) (v : Word) (q : SegReg) : (s.memWrite16 g o v).seg q = s.seg q := rfl
@[simp] theorem push16_seg (v : Word) (q : SegReg) : (s.push16 v).seg q = s.seg q := rfl
@[simp] theorem dropInput_seg (q : SegReg) : s.dropInput.seg q = s.seg q := rfl

@[simp] theorem setReg16_physBits (r : Reg16) (v : Word) : (s.setReg16 r v).physBits = s.physBits := rfl
@[simp] theorem setReg8_physBits (r : Reg8) (v : Byte) : (s.setReg8 r v).physBits = s.physBits := rfl
@[simp] theorem setCS_physBits (v : Word) : (s.setCS v).physBits = s.physBits := rfl
@[simp] theorem setIP_physBits (v : Word) : (s.setIP v).physBits = s.physBits := rfl
@[simp] theorem advance_physBits (n : Nat) : (s.advance n).physBits = s.physBits := rfl
@[simp] theorem setFlags_physBits (f : Flags) : (s.setFlags f).physBits = s.physBits := rfl
@[simp] theorem memWrite8_physBits (g o : Word) (v : Byte) : (s.memWrite8 g o v).physBits = s.physBits := rfl
@[simp] theorem memWrite16_physBits (g o : Word) (v : Word) : (s.memWrite16 g o v).physBits = s.physBits := rfl
@[simp] theorem push16_physBits (v : Word) : (s.push16 v).physBits = s.physBits := rfl
@[simp] theorem dropInput_physBits : s.dropInput.physBits = s.physBits := rfl

@[simp] theorem setReg16_phys (r : Reg16) (v : Word) (p q : Word) : (s.setReg16 r v).phys p q = s.phys p q := rfl
@[simp] theorem setReg8_phys (r : Reg8) (v : Byte) (p q : Word) : (s.setReg8 r v).phys p q = s.phys p q := rfl
@[simp] theorem setCS_phys (v : Word) (p q : Word) : (s.setCS v).phys p q = s.phys p q := rfl
@[simp] theorem setIP_phys (v : Word) (p q : Word) : (s.setIP v).phys p q = s.phys p q := rfl
@[simp] theorem advance_phys (n : Nat) (p q : Word) : (s.advance n).phys p q = s.phys p q := rfl
@[simp] theorem setFlags_phys (f : Flags) (p q : Word) : (s.setFlags f).phys p q = s.phys p q := rfl
@[simp] theorem memWrite8_phys (g o : Word) (v : Byte) (p q : Word) : (s.memWrite8 g o v).phys p q = s.phys p q := rfl
@[simp] theorem memWrite16_phys (g o : Word) (v : Word) (p q : Word) : (s.memWrite16 g o v).phys p q = s.phys p q := rfl
@[simp] theorem push16_phys (v : Word) (p q : Word) : (s.push16 v).phys p q = s.phys p q := rfl
@[simp] theorem dropInput_phys (p q : Word) : s.dropInput.phys p q = s.phys p q := rfl

@[simp] theorem setReg16_input (r : Reg16) (v : Word) : (s.setReg16 r v).input = s.input := rfl
@[simp] theorem setReg8_input (r : Reg8) (v : Byte) : (s.setReg8 r v).input = s.input := rfl
@[simp] theorem setCS_input (v : Word) : (s.setCS v).input = s.input := rfl
@[simp] theorem setIP_input (v : Word) : (s.setIP v).input = s.input := rfl
@[simp] theorem advance_input (n : Nat) : (s.advance n).input = s.input := rfl
@[simp] theorem setFlags_input (f : Flags) : (s.setFlags f).input = s.input := rfl
@[simp] theorem memWrite8_input (g o : Word) (v : Byte) : (s.memWrite8 g o v).input = s.input := rfl
@[simp] theorem memWrite16_input (g o : Word) (v : Word) : (s.memWrite16 g o v).input = s.input := rfl
@[simp] theorem push16_input (v : Word) : (s.push16 v).input = s.input := rfl

@[simp] theorem setCS_baseSum (v : Word) (b : Option Base) : (s.setCS v).baseSum b = s.baseSum b := by cases b <;> rfl
@[simp] theorem setIP_baseSum (v : Word) (b : Option Base) : (s.setIP v).baseSum b = s.baseSum b := by cases b <;> rfl
@[simp] theorem advance_baseSum (n : Nat) (b : Option Base) : (s.advance n).baseSum b = s.baseSum b := by cases b <;> rfl
@[simp] theorem setFlags_baseSum (f : Flags) (b : Option Base) : (s.setFlags f).baseSum b = s.baseSum b := by cases b <;> rfl
@[simp] theorem memWrite8_baseSum (g o : Word) (v : Byte) (b : Option Base) : (s.memWrite8 g o v).baseSum b = s.baseSum b := by cases b <;> rfl
@[simp] theorem memWrite16_baseSum (g o : Word) (v : Word) (b : Option Base) : (s.memWrite16 g o v).baseSum b = s.baseSum b := by cases b <;> rfl
@[simp] theorem dropInput_baseSum (b : Option Base) : s.dropInput.baseSum b = s.baseSum b := by cases b <;> rfl

@[simp] theorem setCS_ea (v : Word) (b : Option Base) (d : Word) : (s.setCS v).ea b d = s.ea b d := by cases b <;> rfl
@[simp] theorem setIP_ea (v : Word) (b : Option Base) (d : Word) : (s.setIP v).ea b d = s.ea b d := by cases b <;> rfl
@[simp] theorem advance_ea (n : Nat) (b : Option Base) (d : Word) : (s.advance n).ea b d = s.ea b d := by cases b <;> rfl
@[simp] theorem setFlags_ea (f : Flags) (b : Option Base) (d : Word) : (s.setFlags f).ea b d = s.ea b d := by cases b <;> rfl
@[simp] theorem memWrite8_ea (g o : Word) (v : Byte) (b : Option Base) (d : Word) : (s.memWrite8 g o v).ea b d = s.ea b d := by cases b <;> rfl
@[simp] theorem memWrite16_ea (g o : Word) (v : Word) (b : Option Base) (d : Word) : (s.memWrite16 g o v).ea b d = s.ea b d := by cases b <;> rfl
@[simp] theorem dropInput_ea (b : Option Base) (d : Word) : s.dropInput.ea b d = s.ea b d := by cases b <;> rfl

/-- A 16-bit register reads back what was written, and no other register changes (`10_state.md` R23). -/
@[simp] theorem setReg16_reg16 (r q : Reg16) (v : Word) :
    (s.setReg16 r v).reg16 q = if q = r then v else s.reg16 q := by
  cases r <;> cases q <;> rfl

@[simp] theorem setReg8_reg16 (r : Reg8) (q : Reg16) (v : Byte) :
    (s.setReg8 r v).reg16 q =
      if q = r.parent then
        (if r.isHigh then wordOf (lowByte (s.reg16 r.parent)) v else wordOf v (highByte (s.reg16 r.parent)))
      else s.reg16 q := by
  simp [State.setReg8]

@[simp] theorem setCS_seg (v : Word) (q : SegReg) :
    (s.setCS v).seg q = if q = .cs then v else s.seg q := by
  cases q <;> rfl

@[simp] theorem push16_reg16 (v : Word) (q : Reg16) :
    (s.push16 v).reg16 q = if q = .sp then s.reg16 .sp - 2 else s.reg16 q := by
  cases q <;> rfl

@[simp] theorem lowByte_wordOf (lo hi : Byte) : lowByte (wordOf lo hi) = lo := by
  apply BitVec.eq_of_toNat_eq
  simp only [lowByte, wordOf, BitVec.toNat_ofNat]
  omega

@[simp] theorem highByte_wordOf (lo hi : Byte) : highByte (wordOf lo hi) = hi := by
  apply BitVec.eq_of_toNat_eq
  simp only [highByte, wordOf, BitVec.toNat_ofNat]
  omega

@[simp] theorem wordOf_bytes (v : Word) : wordOf (lowByte v) (highByte v) = v := by
  apply BitVec.eq_of_toNat_eq
  simp only [lowByte, highByte, wordOf, BitVec.toNat_ofNat]
  omega

/-- An 8-bit register reads back what was written, and no other 8-bit register changes (`10_state.md` R24). -/
@[simp] theorem setReg8_reg8 (r q : Reg8) (v : Byte) :
    (s.setReg8 r v).reg8 q = if q = r then v else s.reg8 q := by
  unfold State.reg8
  rw [setReg8_reg16]
  cases r <;> cases q <;> simp [Reg8.parent, Reg8.isHigh]

end Sys2Proof.Machine
end

