-- ==== Sys2Proof/Laws/Memory.lean ====
section
/-! SUPPORT. Memory: what a read sees after a write, for any list of cells, and that a write keeps the canonical form
and the address range. -/

namespace Sys2Proof.Machine

/-! ## Reading after writing -/

theorem read_remove (m : Memory) (a b : Nat) :
    Memory.read (Memory.remove m a) b = if b = a then Config.unlistedByte else Memory.read m b := by
  induction m with
  | nil => simp [Memory.remove, Memory.read]
  | cons c m ih =>
    obtain ⟨k, v⟩ := c
    unfold Memory.remove at ih ⊢
    by_cases hk : k = a
    · subst hk
      by_cases hb : b = k
      · subst hb
        simpa using ih
      · simp [Memory.read, ih, hb, Ne.symm hb]
    · by_cases hb : k = b
      · subst hb; simp [Memory.read, hk]
      · simp [Memory.read, hk, ih, hb]

theorem read_insertCell (m : Memory) (a : Nat) (v : Byte) (b : Nat) (h : ∀ c ∈ m, c.1 ≠ a) :
    Memory.read (Memory.insertCell m a v) b = if b = a then v else Memory.read m b := by
  induction m with
  | nil =>
    by_cases hb : b = a
    · simp [Memory.insertCell, Memory.read, hb]
    · simp [Memory.insertCell, Memory.read, hb, Ne.symm hb]
  | cons c m ih =>
    obtain ⟨k, w⟩ := c
    have hk : k ≠ a := h (k, w) (by simp)
    have ih := ih fun c hc => h c (by simp [hc])
    unfold Memory.insertCell
    split
    · by_cases hb : b = a
      · simp [Memory.read, hb]
      · simp [Memory.read, hb, Ne.symm hb]
    · by_cases hb : k = b
      · subst hb; simp [Memory.read, hk]
      · simp [Memory.read, hb, ih]

theorem remove_ne (m : Memory) (a : Nat) : ∀ c ∈ Memory.remove m a, c.1 ≠ a := by
  intro c hc
  simpa using (List.mem_filter.mp hc).2

/-- A byte reads back what was written, and every other address reads as before. -/
@[simp] theorem read_write (m : Memory) (a : Nat) (v : Byte) (b : Nat) :
    Memory.read (Memory.write m a v) b = if b = a then v else Memory.read m b := by
  unfold Memory.write
  split
  · next h => rw [read_remove, h]
  · rw [read_insertCell _ _ _ _ (remove_ne m a), read_remove]
    split <;> rfl

/-! ## The canonical form and the range -/

theorem mem_insertCell (m : Memory) (a : Nat) (v : Byte) (c : Host.Cell) :
    c ∈ Memory.insertCell m a v ↔ c = (a, v) ∨ c ∈ m := by
  induction m with
  | nil => simp [Memory.insertCell]
  | cons d m ih =>
    obtain ⟨k, w⟩ := d
    unfold Memory.insertCell
    split
    · simp
    · simp only [List.mem_cons, ih]
      constructor
      · rintro (h | h | h) <;> simp [h]
      · rintro (h | h | h) <;> simp [h]

theorem insertCell_rising (m : Memory) (a : Nat) (v : Byte) (hm : m.Pairwise (fun c d => c.1 < d.1))
    (h : ∀ c ∈ m, c.1 ≠ a) : (Memory.insertCell m a v).Pairwise (fun c d => c.1 < d.1) := by
  induction m with
  | nil => simp [Memory.insertCell]
  | cons d m ih =>
    obtain ⟨k, w⟩ := d
    have hk : k ≠ a := h (k, w) (by simp)
    obtain ⟨hd, hm'⟩ := List.pairwise_cons.mp hm
    unfold Memory.insertCell
    split
    · next hlt =>
      refine List.pairwise_cons.mpr ⟨?_, hm⟩
      intro c hc
      rcases List.mem_cons.mp hc with rfl | hc
      · exact hlt
      · exact Nat.lt_trans hlt (hd c hc)
    · next hlt =>
      refine List.pairwise_cons.mpr ⟨?_, ih hm' fun c hc => h c (by simp [hc])⟩
      intro c hc
      rcases (mem_insertCell m a v c).mp hc with rfl | hc
      · change k < a
        omega
      · exact hd c hc

/-- A write keeps the canonical form. -/
theorem write_wf (m : Memory) (a : Nat) (v : Byte) (h : Memory.wf m) : Memory.wf (Memory.write m a v) := by
  have hp : (Memory.remove m a).Pairwise (fun c d => c.1 < d.1) := h.1.filter _
  have hv : ∀ c ∈ Memory.remove m a, c.2 ≠ Config.unlistedByte := fun c hc => h.2 c ((List.mem_filter.mp hc).1)
  unfold Memory.write
  split
  · exact ⟨hp, hv⟩
  · next hne =>
    refine ⟨insertCell_rising _ a v hp (remove_ne m a), ?_⟩
    intro c hc
    rcases (mem_insertCell _ a v c).mp hc with rfl | hc
    · exact hne
    · exact hv c hc

/-- The cells after a write are the written one and old ones. -/
theorem mem_write (m : Memory) (a : Nat) (v : Byte) (c : Host.Cell) (h : c ∈ Memory.write m a v) :
    c.1 = a ∨ c ∈ m := by
  unfold Memory.write at h
  split at h
  · exact .inr ((List.mem_filter.mp h).1)
  · rcases (mem_insertCell _ a v c).mp h with rfl | h
    · exact .inl rfl
    · exact .inr ((List.mem_filter.mp h).1)

/-- Memory in canonical form is determined by what it reads as. -/
theorem wf_ext (m n : Memory) (hm : Memory.wf m) (hn : Memory.wf n)
    (h : ∀ a, Memory.read m a = Memory.read n a) : m = n := by
  have absent : ∀ (l : Memory) (a : Nat), (∀ c ∈ l, a < c.1) → Memory.read l a = Config.unlistedByte := by
    intro l a
    induction l with
    | nil => intro _; rfl
    | cons c l ih =>
      obtain ⟨k, v⟩ := c
      intro hl
      have : k ≠ a := fun e => by have := hl (k, v) (by simp); simp only at this; omega
      simp [Memory.read, this, ih fun c hc => hl c (by simp [hc])]
  induction m generalizing n with
  | nil =>
    cases n with
    | nil => rfl
    | cons d n =>
      exact absurd (by simpa [Memory.read] using (h d.1).symm) (hn.2 d (by simp))
  | cons c m ih =>
    obtain ⟨k, v⟩ := c
    obtain ⟨hc, hm1⟩ := List.pairwise_cons.mp hm.1
    have hv : v ≠ Config.unlistedByte := hm.2 (k, v) (by simp)
    cases n with
    | nil => exact absurd (by simpa [Memory.read] using h k) hv
    | cons d n =>
      obtain ⟨l, w⟩ := d
      obtain ⟨hd, hn1⟩ := List.pairwise_cons.mp hn.1
      have hw : w ≠ Config.unlistedByte := hn.2 (l, w) (by simp)
      have hkl : k = l := by
        rcases Nat.lt_trichotomy k l with hlt | he | hgt
        · refine absurd ?_ hv
          have := h k
          rw [absent ((l, w) :: n) k] at this
          · simpa [Memory.read] using this
          · intro c hc'
            rcases List.mem_cons.mp hc' with rfl | hc'
            · exact hlt
            · exact Nat.lt_trans hlt (hd c hc')
        · exact he
        · refine absurd ?_ hw
          have := h l
          rw [absent ((k, v) :: m) l] at this
          · simpa [Memory.read] using this.symm
          · intro c hc'
            rcases List.mem_cons.mp hc' with rfl | hc'
            · exact hgt
            · exact Nat.lt_trans hgt (hc c hc')
      subst hkl
      have hvw : v = w := by simpa [Memory.read] using h k
      subst hvw
      congr 1
      refine ih n ⟨hm1, fun c hc' => hm.2 c (by simp [hc'])⟩ ⟨hn1, fun c hc' => hn.2 c (by simp [hc'])⟩ ?_
      intro a
      by_cases ha : k = a
      · subst ha; rw [absent m k hc, absent n k hd]
      · simpa [Memory.read, ha] using h a

/-! ## Segments and offsets -/

/-- `PHYS_BITS` is at least 20, so the offsets of one segment have different physical addresses (`20_memory.md` R51). -/
theorem phys_inj (s : State) (g o p : Word) : s.phys g o = s.phys g p ↔ o = p := by
  refine ⟨fun h => ?_, fun h => h ▸ rfl⟩
  have hpow : ∃ k, 2 ^ s.physBits = 65536 * (k + 1) := by
    refine ⟨2 ^ (4 + s.cfg.extraAddressBits) - 1, ?_⟩
    have := Nat.two_pow_pos (4 + s.cfg.extraAddressBits)
    rw [Nat.sub_add_cancel (by omega)]
    simp only [State.physBits, Nat.pow_add]
    omega
  obtain ⟨k, hk⟩ := hpow
  unfold State.phys at h
  rw [hk] at h
  have h2 := congrArg (· % 65536) h
  simp only [Nat.mod_mul_right_mod] at h2
  apply BitVec.eq_of_toNat_eq
  omega

theorem phys_lt (s : State) (g o : Word) : s.phys g o < 2 ^ s.physBits := Nat.mod_lt _ (Nat.two_pow_pos _)

/-- The two bytes of a word lie at different addresses. -/
theorem phys_succ_ne (s : State) (g o : Word) : s.phys g (o + 1) ≠ s.phys g o := by
  rw [Ne, phys_inj]
  intro h
  bv_omega

/-- A byte access after a byte store through the same segment value: the byte stored, or what was there. -/
theorem memWrite8_memRead8 (s : State) (g o p : Word) (v : Byte) :
    (s.memWrite8 g o v).memRead8 g p = if p = o then v else s.memRead8 g p := by
  simp only [State.memRead8, memWrite8_mem, memWrite8_phys, read_write, phys_inj]

/-- A word reads back what was stored (`20_memory.md` R55, R56). -/
@[simp] theorem memWrite16_memRead16 (s : State) (g o : Word) (v : Word) :
    (s.memWrite16 g o v).memRead16 g o = v := by
  simp [State.memRead16, State.memRead8, phys_inj]

@[simp] theorem memWrite8_memRead8_same (s : State) (g o : Word) (v : Byte) :
    (s.memWrite8 g o v).memRead8 g o = v := by
  simp [State.memRead8]

/-- A word store changes the bytes at its two addresses only. -/
theorem memWrite16_read (s : State) (g o : Word) (v : Word) (a : Nat) :
    Memory.read (s.memWrite16 g o v).mem a =
      if a = s.phys g (o + 1) then highByte v else if a = s.phys g o then lowByte v else Memory.read s.mem a := by
  simp

end Sys2Proof.Machine
end

