-- ==== Sys2Proof/Laws/Operands.lean ====
section
/-! SUPPORT. Locations: what `Set` writes and leaves, and that a location written reads back the value. -/

namespace Sys2Proof.Machine

/-! ## What a byte `Set` does -/

@[simp] theorem set8_flags (s : State) (l : Loc Reg8) (v : Byte) : (s.set8 l v).flags = s.flags := by
  cases l <;> rfl

@[simp] theorem set8_ip (s : State) (l : Loc Reg8) (v : Byte) : (s.set8 l v).ip = s.ip := by
  cases l <;> rfl

@[simp] theorem set8_segs (s : State) (l : Loc Reg8) (v : Byte) : (s.set8 l v).segs = s.segs := by
  cases l <;> rfl

@[simp] theorem set8_cfg (s : State) (l : Loc Reg8) (v : Byte) : (s.set8 l v).cfg = s.cfg := by
  cases l <;> rfl

@[simp] theorem set8_inputs (s : State) (l : Loc Reg8) (v : Byte) : (s.set8 l v).inputs = s.inputs := by
  cases l <;> rfl

/-- `Get` after `Set` of a byte location (`40_operand_resolver.md` R150, R151). -/
theorem set8_get8 (s : State) (l : Loc Reg8) (v : Byte) : (s.set8 l v).get8 l = v := by
  cases l with
  | reg r => simp [State.set8, State.get8]
  | mem sel base addend => simp [State.set8, State.get8, State.memRead8]

/-- `Set` of a byte location writes that location only. -/
theorem set8_only (s : State) (l : Loc Reg8) (v : Byte) : OnlyByte s (s.set8 l v) l := by
  cases l with
  | reg r =>
    refine ⟨fun q hq => ?_, fun q hq => ?_, fun _ => rfl, fun _ _ => rfl, rfl, rfl⟩
    · have : q ≠ r := fun e => hq (e ▸ rfl)
      simp [State.set8, this]
    · have : q ≠ r.parent := by
        intro e
        subst e
        revert hq
        cases r <;> decide
      simp [State.set8, this]
  | mem sel base addend =>
    refine ⟨fun _ _ => rfl, fun _ _ => rfl, fun _ => rfl, fun a ha => ?_, rfl, rfl⟩
    have : a ≠ s.phys (s.seg sel) (s.ea base addend) := fun e => ha (by simp [State.cells8, e])
    simp [State.set8, this]

/-! ## What a word `Set` does -/

@[simp] theorem set16_flags (s : State) (l : Loc Reg16) (v : Word) : (s.set16 l v).flags = s.flags := by
  cases l <;> rfl

@[simp] theorem set16_ip (s : State) (l : Loc Reg16) (v : Word) : (s.set16 l v).ip = s.ip := by
  cases l <;> rfl

@[simp] theorem set16_segs (s : State) (l : Loc Reg16) (v : Word) : (s.set16 l v).segs = s.segs := by
  cases l <;> rfl

@[simp] theorem set16_cfg (s : State) (l : Loc Reg16) (v : Word) : (s.set16 l v).cfg = s.cfg := by
  cases l <;> rfl

@[simp] theorem set16_inputs (s : State) (l : Loc Reg16) (v : Word) : (s.set16 l v).inputs = s.inputs := by
  cases l <;> rfl

/-- `Get` after `Set` of a word location. -/
theorem set16_get16 (s : State) (l : Loc Reg16) (v : Word) : (s.set16 l v).get16 l = v := by
  cases l with
  | reg r => simp [State.set16, State.get16]
  | mem sel base addend => simp [State.set16, State.get16]

/-- A word store changes its two bytes only. -/
theorem memWrite16_kept (s : State) (g o : Word) (v : Word) : MemKept s (s.memWrite16 g o v) (s.wordCells g o) := by
  intro a ha
  simp only [State.wordCells, List.mem_cons, List.not_mem_nil, or_false, not_or] at ha
  rw [memWrite16_read, if_neg ha.2, if_neg ha.1]

/-- `Set` of a word location writes that location only. -/
theorem set16_only (s : State) (l : Loc Reg16) (v : Word) : OnlyWord s (s.set16 l v) l := by
  cases l with
  | reg r =>
    refine ⟨fun q hq => ?_, fun _ => rfl, fun _ _ => rfl, rfl, rfl⟩
    have : q ≠ r := fun e => hq (e ▸ rfl)
    simp [State.set16, this]
  | mem sel base addend =>
    exact ⟨fun _ _ => rfl, fun _ => rfl, memWrite16_kept s _ _ v, rfl, rfl⟩

/-! ## What does not move a location -/

/-- `Get` does not see the flags. -/
@[simp] theorem setFlags_get8 (s : State) (f : Flags) (l : Loc Reg8) : (s.setFlags f).get8 l = s.get8 l := by
  cases l <;> rfl

@[simp] theorem setFlags_get16 (s : State) (f : Flags) (l : Loc Reg16) : (s.setFlags f).get16 l = s.get16 l := by
  cases l <;> rfl

/-- `Get` does not see IP. -/
@[simp] theorem advance_get8 (s : State) (n : Nat) (l : Loc Reg8) : (s.advance n).get8 l = s.get8 l := by
  cases l <;> rfl

@[simp] theorem advance_get16 (s : State) (n : Nat) (l : Loc Reg16) : (s.advance n).get16 l = s.get16 l := by
  cases l <;> rfl

/-! ## Effective addresses (`40_operand_resolver.md` R143, R146) -/

/-- The sum of each base combination. -/
@[simp] theorem baseSum_none (s : State) : s.baseSum none = 0 := rfl

@[simp] theorem baseSum_bxsi (s : State) : s.baseSum (some .bxsi) = s.regs.BX + s.regs.SI := by
  simp [State.baseSum, Base.regs, State.reg16]

@[simp] theorem baseSum_bxdi (s : State) : s.baseSum (some .bxdi) = s.regs.BX + s.regs.DI := by
  simp [State.baseSum, Base.regs, State.reg16]

@[simp] theorem baseSum_bpsi (s : State) : s.baseSum (some .bpsi) = s.regs.BP + s.regs.SI := by
  simp [State.baseSum, Base.regs, State.reg16]

@[simp] theorem baseSum_bpdi (s : State) : s.baseSum (some .bpdi) = s.regs.BP + s.regs.DI := by
  simp [State.baseSum, Base.regs, State.reg16]

@[simp] theorem baseSum_si (s : State) : s.baseSum (some .si) = s.regs.SI := by
  simp [State.baseSum, Base.regs, State.reg16]

@[simp] theorem baseSum_di (s : State) : s.baseSum (some .di) = s.regs.DI := by
  simp [State.baseSum, Base.regs, State.reg16]

@[simp] theorem baseSum_bp (s : State) : s.baseSum (some .bp) = s.regs.BP := by
  simp [State.baseSum, Base.regs, State.reg16]

@[simp] theorem baseSum_bx (s : State) : s.baseSum (some .bx) = s.regs.BX := by
  simp [State.baseSum, Base.regs, State.reg16]

/-- SS exactly for the combinations with BP. -/
@[simp] theorem defaultSeg_eq (b : Base) :
    b.defaultSeg = if b = .bpsi ∨ b = .bpdi ∨ b = .bp then .ss else .ds := by
  cases b <;> rfl

/-! ## The stack (`20_memory.md` R66) -/

/-- All that a push does: SP falls by 2, the word lies at SS:SP, nothing else changes. -/
theorem push16_spec (s : State) (v : Word) :
    (s.push16 v).reg16 .sp = s.reg16 .sp - 2 ∧
      (s.push16 v).memRead16 (s.seg .ss) (s.reg16 .sp - 2) = v ∧
      RegsKept s (s.push16 v) [.sp] ∧ SegsKept s (s.push16 v) ∧ (s.push16 v).flags = s.flags ∧
      (s.push16 v).ip = s.ip ∧ MemKept s (s.push16 v) (s.wordCells (s.seg .ss) (s.reg16 .sp - 2)) ∧
      HostKept s (s.push16 v) := by
  refine ⟨by simp, ?_, fun q hq => ?_, fun _ => rfl, rfl, rfl, ?_, rfl, rfl⟩
  · exact memWrite16_memRead16 (s.setReg16 .sp (s.reg16 .sp - 2)) (s.seg .ss) (s.reg16 .sp - 2) v
  · have : q ≠ .sp := by simpa using hq
    simp [this]
  · exact memWrite16_kept (s.setReg16 .sp (s.reg16 .sp - 2)) (s.seg .ss) (s.reg16 .sp - 2) v

end Sys2Proof.Machine
end

