-- ==== Sys2Proof/Laws/Alu.lean ====
section
/-! SUPPORT. The shared operations of the instruction files: everything each of them can do, once. -/

namespace Sys2Proof.Machine

/-! ## Small lemmas of the frames -/

theorem OnlyByte.setFlags {s : State} {f : Flags} {t : State} {l : Loc Reg8} (h : OnlyByte (s.setFlags f) t l) :
    OnlyByte s t l := by
  obtain ⟨h8, hr, hs, hm, hi, hc⟩ := h
  refine ⟨h8, hr, hs, ?_, hi, hc⟩
  cases l <;> exact hm

theorem OnlyWord.setFlags {s : State} {f : Flags} {t : State} {l : Loc Reg16} (h : OnlyWord (s.setFlags f) t l) :
    OnlyWord s t l := by
  obtain ⟨hr, hs, hm, hi, hc⟩ := h
  refine ⟨hr, hs, ?_, hi, hc⟩
  cases l <;> exact hm

theorem OnlyByte.advance {s t : State} {l : Loc Reg8} (n : Nat) (h : OnlyByte s t l) : OnlyByte s (t.advance n) l := h

theorem OnlyWord.advance {s t : State} {l : Loc Reg16} (n : Nat) (h : OnlyWord s t l) : OnlyWord s (t.advance n) l := h

theorem nothingWritten_flags_advance (s : State) (f : Flags) (n : Nat) :
    NothingWritten s ((s.setFlags f).advance n) :=
  ⟨fun _ _ => rfl, fun _ => rfl, fun _ _ => rfl, rfl, rfl⟩

/-! ## The common ALU handler (`42_alu.md` R183) -/

theorem aluTo8_flags (op : AluOp) (dst : Loc Reg8) (b : Byte) (n : Nat) (s : State) :
    (aluTo8 op dst b n s).flags = op.flags (s.get8 dst) b s.flags := by
  unfold aluTo8
  split <;> simp

theorem aluTo8_ip (op : AluOp) (dst : Loc Reg8) (b : Byte) (n : Nat) (s : State) :
    (aluTo8 op dst b n s).ip = s.ip + BitVec.ofNat 16 n := by
  unfold aluTo8
  split <;> simp

/-- An operation that writes back: the destination holds the result and nothing else is written. -/
theorem aluTo8_writes (op : AluOp) (dst : Loc Reg8) (b : Byte) (n : Nat) (s : State) (h : op.writesBack = true) :
    (aluTo8 op dst b n s).get8 dst = op.result (s.get8 dst) b s.flags ∧
      OnlyByte s (aluTo8 op dst b n s) dst := by
  have e : aluTo8 op dst b n s =
      ((s.setFlags (op.flags (s.get8 dst) b s.flags)).set8 dst (op.result (s.get8 dst) b s.flags)).advance n := by
    simp only [aluTo8, if_pos h]
  rw [e]
  exact ⟨by rw [advance_get8, set8_get8], ((set8_only _ dst _).setFlags).advance n⟩

/-- An operation that discards its result writes flags and IP only. -/
theorem aluTo8_discards (op : AluOp) (dst : Loc Reg8) (b : Byte) (n : Nat) (s : State) (h : op.writesBack = false) :
    NothingWritten s (aluTo8 op dst b n s) := by
  have e : aluTo8 op dst b n s = (s.setFlags (op.flags (s.get8 dst) b s.flags)).advance n := by
    simp [aluTo8, h]
  rw [e]
  exact nothingWritten_flags_advance s _ n

theorem aluTo16_flags (op : AluOp) (dst : Loc Reg16) (b : Word) (n : Nat) (s : State) :
    (aluTo16 op dst b n s).flags = op.flags (s.get16 dst) b s.flags := by
  unfold aluTo16
  split <;> simp

theorem aluTo16_ip (op : AluOp) (dst : Loc Reg16) (b : Word) (n : Nat) (s : State) :
    (aluTo16 op dst b n s).ip = s.ip + BitVec.ofNat 16 n := by
  unfold aluTo16
  split <;> simp

/-- An operation that writes back: the destination holds the result and nothing else is written. -/
theorem aluTo16_writes (op : AluOp) (dst : Loc Reg16) (b : Word) (n : Nat) (s : State) (h : op.writesBack = true) :
    (aluTo16 op dst b n s).get16 dst = op.result (s.get16 dst) b s.flags ∧
      OnlyWord s (aluTo16 op dst b n s) dst := by
  have e : aluTo16 op dst b n s =
      ((s.setFlags (op.flags (s.get16 dst) b s.flags)).set16 dst (op.result (s.get16 dst) b s.flags)).advance n := by
    simp only [aluTo16, if_pos h]
  rw [e]
  exact ⟨by rw [advance_get16, set16_get16], ((set16_only _ dst _).setFlags).advance n⟩

/-- An operation that discards its result writes flags and IP only. -/
theorem aluTo16_discards (op : AluOp) (dst : Loc Reg16) (b : Word) (n : Nat) (s : State)
    (h : op.writesBack = false) : NothingWritten s (aluTo16 op dst b n s) := by
  have e : aluTo16 op dst b n s = (s.setFlags (op.flags (s.get16 dst) b s.flags)).advance n := by
    simp [aluTo16, h]
  rw [e]
  exact nothingWritten_flags_advance s _ n

/-- No operation writes IF, DF or TF (`10_state.md` R31). -/
theorem aluFlags_control {W : Nat} (op : AluOp) (a b : BitVec W) (f : Flags) :
    (op.flags a b f).IF = f.IF ∧ (op.flags a b f).DF = f.DF ∧ (op.flags a b f).TF = f.TF := by
  cases op <;> exact ⟨rfl, rfl, rfl⟩

/-! ## Decimal and ASCII adjust (`44_decimal_adjust.md`) -/

/-- All that the end of AAA and AAS does. -/
theorem asciiAdjust_spec (adj : Bool) (al ah : Byte) (s : State) :
    (asciiAdjust adj al ah s).reg8 .al = al &&& 0x0F ∧ (asciiAdjust adj al ah s).reg8 .ah = ah ∧
      (asciiAdjust adj al ah s).flags = { s.flags with CF := adj, AF := adj } ∧
      (asciiAdjust adj al ah s).ip = s.ip + 1 ∧ OnlyRegs s (asciiAdjust adj al ah s) [.ax] := by
  refine ⟨?_, ?_, rfl, rfl, fun q hq => ?_, fun _ => rfl, fun _ _ => rfl, rfl, rfl⟩
  · simp [asciiAdjust]
  · simp [asciiAdjust]
  · have : q ≠ .ax := by simpa using hq
    simp [asciiAdjust, Reg8.parent, this]

/-- All that the end of DAA and DAS does. -/
theorem decimalAdjust_spec (al : Byte) (cf af : Bool) (s : State) :
    (decimalAdjust al cf af s).reg8 .al = al ∧ (decimalAdjust al cf af s).reg8 .ah = s.reg8 .ah ∧
      (decimalAdjust al cf af s).flags = { setSZP al s.flags with CF := cf, AF := af } ∧
      (decimalAdjust al cf af s).ip = s.ip + 1 ∧ OnlyRegs s (decimalAdjust al cf af s) [.ax] := by
  refine ⟨?_, ?_, rfl, rfl, fun q hq => ?_, fun _ => rfl, fun _ _ => rfl, rfl, rfl⟩
  · simp [decimalAdjust]
  · simp [decimalAdjust]
  · have : q ≠ .ax := by simpa using hq
    simp [decimalAdjust, Reg8.parent, this]

/-- All that the end of AAM and AAD does. -/
theorem radixAdjust_spec (al ah : Byte) (s : State) :
    (radixAdjust al ah s).reg8 .al = al ∧ (radixAdjust al ah s).reg8 .ah = ah ∧
      (radixAdjust al ah s).flags = setSZP al s.flags ∧
      (radixAdjust al ah s).ip = s.ip + 2 ∧ OnlyRegs s (radixAdjust al ah s) [.ax] := by
  refine ⟨?_, ?_, rfl, rfl, fun q hq => ?_, fun _ => rfl, fun _ _ => rfl, rfl, rfl⟩
  · simp [radixAdjust]
  · simp [radixAdjust]
  · have : q ≠ .ax := by simpa using hq
    simp [radixAdjust, Reg8.parent, this]

/-! ## Division (`45_divide.md`) -/

/-- All that the end of a byte division does: the fault, or AL and AH written. -/
theorem finishDivide8_spec (r : Option (Byte × Byte)) (n : Nat) (s : State) :
    (r = none ∧ finishDivide8 r n s = .fault .divideError) ∨
      ∃ q m t, r = some (q, m) ∧ finishDivide8 r n s = .next t ∧ t.reg8 .al = q ∧ t.reg8 .ah = m ∧
        t.flags = s.flags ∧ t.ip = s.ip + BitVec.ofNat 16 n ∧ OnlyRegs s t [.ax] := by
  cases r with
  | none => exact .inl ⟨rfl, rfl⟩
  | some p =>
    obtain ⟨q, m⟩ := p
    refine .inr ⟨q, m, _, rfl, rfl, by simp, by simp, rfl, rfl, fun p hp => ?_, fun _ => rfl, fun _ _ => rfl, rfl, rfl⟩
    have : p ≠ .ax := by simpa using hp
    simp [Reg8.parent, this]

/-- All that the end of a word division does: the fault, or AX and DX written. -/
theorem finishDivide16_spec (r : Option (Word × Word)) (n : Nat) (s : State) :
    (r = none ∧ finishDivide16 r n s = .fault .divideError) ∨
      ∃ q m t, r = some (q, m) ∧ finishDivide16 r n s = .next t ∧ t.reg16 .ax = q ∧ t.reg16 .dx = m ∧
        t.flags = s.flags ∧ t.ip = s.ip + BitVec.ofNat 16 n ∧ OnlyRegs s t [.ax, .dx] := by
  cases r with
  | none => exact .inl ⟨rfl, rfl⟩
  | some p =>
    obtain ⟨q, m⟩ := p
    refine .inr ⟨q, m, _, rfl, rfl, by simp, by simp, rfl, rfl, fun p hp => ?_, fun _ => rfl, fun _ _ => rfl, rfl, rfl⟩
    obtain ⟨ha, hd⟩ : p ≠ .ax ∧ p ≠ .dx := by simpa using hp
    simp [ha, hd]

/-! ## Control transfer (`46_control_transfer.md`) -/

/-- All that a near CALL of a known target does (R243, R245). -/
theorem callNearTo_spec (target : Word) (n : Nat) (s : State) :
    (callNearTo target n s).reg16 .sp = s.reg16 .sp - 2 ∧
      (callNearTo target n s).memRead16 (s.seg .ss) (s.reg16 .sp - 2) = s.nextIP n ∧
      (callNearTo target n s).ip = target ∧ RegsKept s (callNearTo target n s) [.sp] ∧
      SegsKept s (callNearTo target n s) ∧ (callNearTo target n s).flags = s.flags ∧
      MemKept s (callNearTo target n s) (s.wordCells (s.seg .ss) (s.reg16 .sp - 2)) ∧
      HostKept s (callNearTo target n s) := by
  obtain ⟨hsp, hw, hr, hs, hf, -, hm, hh⟩ := push16_spec s (s.nextIP n)
  exact ⟨hsp, hw, rfl, hr, hs, hf, hm, hh⟩

/-- A word elsewhere in the segment survives a word store. -/
theorem memWrite16_memRead16_other (s : State) (g o p : Word) (v : Word)
    (h : p ≠ o ∧ p ≠ o + 1 ∧ p + 1 ≠ o ∧ p + 1 ≠ o + 1) :
    (s.memWrite16 g o v).memRead16 g p = s.memRead16 g p := by
  obtain ⟨h1, h2, h3, h4⟩ := h
  simp only [State.memRead16, State.memRead8, memWrite16_phys, memWrite16_read, phys_inj, if_neg h1, if_neg h2,
    if_neg h3, if_neg h4]

/-- All that a far CALL of a known target does (R247, R249): CS lies above the return offset. -/
theorem callFarTo_spec (off seg : Word) (n : Nat) (s : State) :
    (callFarTo off seg n s).reg16 .sp = s.reg16 .sp - 4 ∧
      (callFarTo off seg n s).memRead16 (s.seg .ss) (s.reg16 .sp - 2) = s.seg .cs ∧
      (callFarTo off seg n s).memRead16 (s.seg .ss) (s.reg16 .sp - 4) = s.nextIP n ∧
      (callFarTo off seg n s).ip = off ∧ (callFarTo off seg n s).seg .cs = seg ∧
      (∀ g, g ≠ .cs → (callFarTo off seg n s).seg g = s.seg g) ∧
      RegsKept s (callFarTo off seg n s) [.sp] ∧ (callFarTo off seg n s).flags = s.flags ∧
      MemKept s (callFarTo off seg n s)
        (s.wordCells (s.seg .ss) (s.reg16 .sp - 2) ++ s.wordCells (s.seg .ss) (s.reg16 .sp - 4)) ∧
      HostKept s (callFarTo off seg n s) := by
  obtain ⟨hsp, hw, hr, hs, hf, -, hm, hh⟩ := push16_spec s (s.seg .cs)
  obtain ⟨hsp2, hw2, hr2, hs2, hf2, -, hm2, hh2⟩ := push16_spec (s.push16 (s.seg .cs)) (s.nextIP n)
  have hsub : s.reg16 .sp - 2 - 2 = s.reg16 .sp - 4 := by bv_omega
  simp only [hsp, hsub, push16_seg] at hsp2 hw2 hm2
  refine ⟨hsp2, ?_, hw2, rfl, rfl, ?_, fun q hq => ?_, hf2.trans hf, fun a ha => ?_, rfl, rfl⟩
  · refine Eq.trans ?_ hw
    change (((s.push16 (s.seg .cs)).setReg16 .sp _).memWrite16 _ _ _).memRead16 _ _ = _
    simp only [hsp, hsub, push16_seg]
    rw [memWrite16_memRead16_other]
    · rfl
    · refine ⟨?_, ?_, ?_, ?_⟩ <;> bv_omega
  · intro g hg
    cases g
    case cs => exact absurd rfl hg
    all_goals rfl
  · exact (hr2 q hq).trans (hr q hq)
  · rw [List.mem_append, not_or] at ha
    exact (hm2 a ha.2).trans (hm a ha.1)

end Sys2Proof.Machine
end

