-- ==== Sys2Proof/Laws/Codec.lean ====
section
/-! SUPPORT. The matcher on binary strings: templates of whole bytes, templates in sequence, and what a row's `test`
comes to; the digits of fields. -/

namespace Sys2Proof.Machine

/-! ## Digits -/

@[simp] theorem binaryText_length (b : Byte) : (binaryText b).length = 8 := rfl

@[simp] theorem bitsText_length {n : Nat} (v : BitVec n) : (bitsText v).length = n := by simp [bitsText]

/-- A byte's binary string is the digits of its bits. -/
theorem binaryText_eq_bitsText (b : Byte) : binaryText b = bitsText b := rfl

/-! ## Templates -/

/-- A template of one field letter accepts every string of its length. -/
theorem templateMatches_letter (cs : List Char) : templateMatches (List.replicate cs.length 'v') cs = true := by
  induction cs with
  | nil => rfl
  | cons c cs ih => simp [List.replicate_succ, templateMatches, ih]

/-- The template of a whole byte accepts every byte. -/
theorem templateMatches_whole (b : Byte) : templateMatches "vvvvvvvv".toList (binaryText b) = true :=
  templateMatches_letter (binaryText b)

/-- Templates in sequence: the first ones, then the others on the bytes after. -/
theorem templatesMatch_append (ts us : List String) (bs : List Byte) :
    templatesMatch (ts ++ us) bs = (templatesMatch ts bs && templatesMatch us (bs.drop ts.length)) := by
  induction ts generalizing bs with
  | nil => simp [templatesMatch]
  | cons t ts ih =>
    cases bs with
    | nil => simp [templatesMatch]
    | cons b bs => simp [templatesMatch, ih, Bool.and_assoc]

/-- Templates of whole bytes accept exactly a stream that is long enough. -/
theorem templatesMatch_whole {α : Type} (fs : List α) (bs : List Byte) :
    templatesMatch (fs.map fun _ => "vvvvvvvv") bs = decide (fs.length ≤ bs.length) := by
  induction fs generalizing bs with
  | nil => simp [templatesMatch]
  | cons f fs ih =>
    cases bs with
    | nil => simp [templatesMatch]
    | cons b bs => simp only [List.map_cons, templatesMatch, templateMatches_whole, ih, Bool.true_and, List.length_cons,
        Nat.add_le_add_iff_right]

/-- A stream that templates accept has a byte for each. -/
theorem templatesMatch_length (ts : List String) (bs : List Byte) (h : templatesMatch ts bs = true) :
    ts.length ≤ bs.length := by
  induction ts generalizing bs with
  | nil => exact Nat.zero_le _
  | cons t ts ih =>
    cases bs with
    | nil => simp [templatesMatch] at h
    | cons b bs =>
      simp only [templatesMatch, Bool.and_eq_true] at h
      exact Nat.succ_le_succ (ih bs h.2)

/-! ## Rows -/

/-- A row's matcher: the leading templates fit, and no trailing byte is missing. -/
theorem row_test_eq (r : Row) (bs : List Byte) :
    Row.test r bs =
      (templatesMatch r.templates bs && decide ((Row.trailing r bs).length ≤ bs.length - r.templates.length)) := by
  rw [Row.test, Row.allTemplates, templatesMatch_append, templatesMatch_whole, List.length_drop]

/-- A row gives raw fields exactly where it matches. -/
@[simp] theorem rawFields_isSome (r : Row) (bs : List Byte) : (Row.rawFields r bs).isSome = Row.test r bs := by
  unfold Row.rawFields
  cases Row.test r bs <;> rfl

/-! ## Captures -/

/-- Capturing looks up as the old text with the new text after it. -/
theorem lookup_capture (m : RawFieldMap) (f : FieldName) (cs : List Char) :
    (capture m f cs).lookup f = some ((m.lookup f).getD [] ++ cs) := by
  induction m with
  | nil => simp [capture]
  | cons p m ih =>
    obtain ⟨g, t⟩ := p
    rw [capture]
    split
    · next h => simp [h]
    · next h =>
      have h' : (f == g) = false := by simp [Ne.symm h]
      simp [List.lookup, h', ih]

/-- Capturing leaves every other field. -/
theorem lookup_capture_ne (m : RawFieldMap) (f g : FieldName) (cs : List Char) (h : g ≠ f) :
    (capture m f cs).lookup g = m.lookup g := by
  induction m with
  | nil => simp [capture, List.lookup, beq_false_of_ne h]
  | cons p m ih =>
    obtain ⟨k, t⟩ := p
    rw [capture]
    split
    · next hk => simp [List.lookup, hk, beq_false_of_ne h]
    · next hk =>
      by_cases hg : g = k
      · simp [hg]
      · simp [List.lookup, beq_false_of_ne hg, ih]

end Sys2Proof.Machine
end

