-- ==== Sys2Proof/Laws/Decode.lean ====
section
/-! SUPPORT. Field codes, the ModRM byte, trailing bytes, and lengths. -/

namespace Sys2Proof

/-! ## Field codes and their inverses -/

@[simp] theorem Reg8.ofCode_code (r : Reg8) : Reg8.ofCode r.code = r := by cases r <;> rfl

@[simp] theorem Reg16.ofCode_code (r : Reg16) : Reg16.ofCode r.code = r := by cases r <;> rfl

@[simp] theorem Base.ofCode_code (b : Base) : Base.ofCode b.code = b := by cases b <;> rfl

@[simp] theorem Dir.ofBit_bit (d : Dir) : Dir.ofBit d.bit = d := by cases d <;> rfl

@[simp] theorem Reg8.code_ofCode (c : BitVec 3) : (Reg8.ofCode c).code = c := by
  revert c; decide

@[simp] theorem Reg16.code_ofCode (c : BitVec 3) : (Reg16.ofCode c).code = c := by
  revert c; decide

@[simp] theorem Base.code_ofCode (c : BitVec 3) : (Base.ofCode c).code = c := by
  revert c; decide

@[simp] theorem Dir.bit_ofBit (d : Bool) : (Dir.ofBit d).bit = d := by cases d <;> rfl

/-! ## The ModRM byte -/

@[simp] theorem modField_modrm (m : BitVec 2) (r b : BitVec 3) : modField (modrm m r b) = m := by
  revert m r b; decide

@[simp] theorem regField_modrm (m : BitVec 2) (r b : BitVec 3) : regField (modrm m r b) = r := by
  revert m r b; decide

@[simp] theorem rmField_modrm (m : BitVec 2) (r b : BitVec 3) : rmField (modrm m r b) = b := by
  revert m r b; decide

/-- A ModRM byte is its three fields. -/
theorem modrm_fields (m : Byte) : modrm (modField m) (regField m) (rmField m) = m := by
  revert m; decide

/-! ## Trailing bytes -/

@[simp] theorem wordOf_lowByte_highByte (v : Word) : wordOf (lowByte v) (highByte v) = v := by
  apply BitVec.eq_of_toNat_eq
  simp only [lowByte, highByte, wordOf, BitVec.toNat_ofNat]
  omega

theorem wordBytes_wordOf (lo hi : Byte) : wordBytes (wordOf lo hi) = [lo, hi] := by
  have h1 : lowByte (wordOf lo hi) = lo := by
    apply BitVec.eq_of_toNat_eq
    simp only [lowByte, wordOf, BitVec.toNat_ofNat]
    omega
  have h2 : highByte (wordOf lo hi) = hi := by
    apply BitVec.eq_of_toNat_eq
    simp only [highByte, wordOf, BitVec.toNat_ofNat]
    omega
  rw [wordBytes, h1, h2]

@[simp] theorem takeByte_cons (b : Byte) (bs : List Byte) : takeByte (b :: bs) = some (b, bs) := rfl

@[simp] theorem takeWord_wordBytes (v : Word) (bs : List Byte) : takeWord (wordBytes v ++ bs) = some (v, bs) := by
  simp [wordBytes, takeWord]

/-- What `takeWord` answers. -/
theorem takeWord_some {bs rest : List Byte} {v : Word} (h : takeWord bs = some (v, rest)) :
    bs = wordBytes v ++ rest := by
  match bs, h with
  | lo :: hi :: tl, h =>
    simp only [takeWord, Option.some.injEq, Prod.mk.injEq] at h
    rw [← h.1, ← h.2, wordBytes_wordOf]
    rfl

/-- What `takeByte` answers. -/
theorem takeByte_some {bs rest : List Byte} {v : Byte} (h : takeByte bs = some (v, rest)) : bs = v :: rest := by
  match bs, h with
  | b :: tl, h =>
    simp only [takeByte, Option.some.injEq, Prod.mk.injEq] at h
    rw [h.1, h.2]

/-- An encoded `rm` operand parses back, and its ModRM byte carries the `reg` field. -/
theorem parseRm_encodeRm {R : Type} (code : R → BitVec 3) (ofCode : BitVec 3 → R) (hc : ∀ r, ofCode (code r) = r)
    (reg : BitVec 3) (rm : Rm R) (hw : rm.wf = true) :
    ∃ m tl, encodeRm code reg rm = m :: tl ∧ regField m = reg ∧
      ∀ rest, parseRm ofCode m (tl ++ rest) = some (rm, rest) := by
  cases rm with
  | reg r => exact ⟨_, _, rfl, by simp, by simp [parseRm, hc]⟩
  | mem op =>
    cases op with
    | direct ea => exact ⟨_, _, rfl, by simp, by simp [parseRm]⟩
    | noDisp b =>
      refine ⟨_, _, rfl, by simp, ?_⟩
      cases b
      case bp => simp [Rm.wf, MemOp.wf] at hw
      all_goals intro rest; simp [parseRm, Base.code, Base.ofCode]
    | disp8 b d => exact ⟨_, _, rfl, by simp, by simp [parseRm]⟩
    | disp16 b d => exact ⟨_, _, rfl, by simp, by simp [parseRm]⟩

/-- A parsed `rm` operand is well-formed and encodes to the bytes it was parsed from. -/
theorem encodeRm_parseRm {R : Type} (code : R → BitVec 3) (ofCode : BitVec 3 → R) (hc : ∀ c, code (ofCode c) = c)
    (m : Byte) (bs rest : List Byte) (rm : Rm R) (h : parseRm ofCode m bs = some (rm, rest)) :
    rm.wf = true ∧ m :: bs = encodeRm code (regField m) rm ++ rest := by
  have hm := modrm_fields m
  unfold parseRm at h
  split at h
  · next hmod =>
    simp only [Option.some.injEq, Prod.mk.injEq] at h
    obtain ⟨rfl, rfl⟩ := h
    refine ⟨rfl, ?_⟩
    rw [hmod] at hm
    simp [encodeRm, hc, hm]
  · next hmod =>
    rw [hmod] at hm
    split at h
    · next hrm =>
      simp only [Option.map_eq_some_iff, Prod.mk.injEq] at h
      obtain ⟨⟨v, tl⟩, hv, rfl, rfl⟩ := h
      refine ⟨rfl, ?_⟩
      rw [hrm] at hm
      rw [takeWord_some hv]
      simp only [encodeRm, List.cons_append, List.cons.injEq, and_true]
      exact hm.symm
    · next hrm =>
      simp only [Option.some.injEq, Prod.mk.injEq] at h
      obtain ⟨rfl, rfl⟩ := h
      refine ⟨?_, by simp [encodeRm, hm]⟩
      have hb : ∀ c : BitVec 3, c ≠ 6 → (MemOp.noDisp (Base.ofCode c)).wf = true := by decide
      exact hb _ hrm
  · next hmod =>
    rw [hmod] at hm
    simp only [Option.map_eq_some_iff, Prod.mk.injEq] at h
    obtain ⟨⟨v, tl⟩, hv, rfl, rfl⟩ := h
    refine ⟨rfl, ?_⟩
    rw [takeByte_some hv]
    simp [encodeRm, hm]
  · next hmod =>
    rw [hmod] at hm
    simp only [Option.map_eq_some_iff, Prod.mk.injEq] at h
    obtain ⟨⟨v, tl⟩, hv, rfl, rfl⟩ := h
    refine ⟨rfl, ?_⟩
    rw [takeWord_some hv]
    simp [encodeRm, hm]

/-! ## The opcode byte -/

/-- The opcode byte of formats with two bits after six literal ones: its fields, and that it is made of them. -/
theorem opcode2_fields (op : BitVec 6) (x w : Bool) :
    (op ++ bit x ++ bit w : Byte).extractLsb' 2 6 = op ∧ dsBit (op ++ bit x ++ bit w) = x ∧
      wBit (op ++ bit x ++ bit w) = w := by
  revert op x w; decide

theorem opcode2_of_fields (b : Byte) : b.extractLsb' 2 6 ++ bit (dsBit b) ++ bit (wBit b) = b := by
  revert b; decide

/-- The opcode byte of formats with the bit `w` after seven literal ones. -/
theorem opcode1_fields (op : BitVec 7) (w : Bool) :
    (op ++ bit w : Byte).extractLsb' 1 7 = op ∧ wBit (op ++ bit w) = w := by
  revert op w; decide

theorem opcode1_of_fields (b : Byte) : b.extractLsb' 1 7 ++ bit (wBit b) = b := by
  revert b; decide

/-! ## Operands parse back from their encodings -/

/-- Format `RMR`. -/
theorem parseRmReg_encodeRmr (op : BitVec 6) (d : Dir) (o : RmReg) (hw : o.wf = true) :
    ∃ b m tl, encodeRmr op d o = b :: m :: tl ∧ b.extractLsb' 2 6 = op ∧ dsBit b = d.bit ∧
      ∀ rest, parseRmReg b m (tl ++ rest) = some (o, rest) := by
  cases o with
  | byte rm reg =>
    obtain ⟨m, tl, h, hr, hp⟩ := parseRm_encodeRm Reg8.code Reg8.ofCode Reg8.ofCode_code reg.code rm hw
    obtain ⟨h1, h2, h3⟩ := opcode2_fields op d.bit false
    exact ⟨_, m, tl, congrArg _ h, h1, h2, fun rest => by
      change (if wBit (op ++ bit d.bit ++ bit false) then _ else _) = _
      rw [h3]; simp [hp, hr]⟩
  | word rm reg =>
    obtain ⟨m, tl, h, hr, hp⟩ := parseRm_encodeRm Reg16.code Reg16.ofCode Reg16.ofCode_code reg.code rm hw
    obtain ⟨h1, h2, h3⟩ := opcode2_fields op d.bit true
    exact ⟨_, m, tl, congrArg _ h, h1, h2, fun rest => by
      change (if wBit (op ++ bit d.bit ++ bit true) then _ else _) = _
      rw [h3]; simp [hp, hr]⟩

/-- Format `RMR0`. -/
theorem parseRmReg_encodeRmr0 (op : BitVec 7) (o : RmReg) (hw : o.wf = true) :
    ∃ b m tl, encodeRmr0 op o = b :: m :: tl ∧ b.extractLsb' 1 7 = op ∧
      ∀ rest, parseRmReg b m (tl ++ rest) = some (o, rest) := by
  cases o with
  | byte rm reg =>
    obtain ⟨m, tl, h, hr, hp⟩ := parseRm_encodeRm Reg8.code Reg8.ofCode Reg8.ofCode_code reg.code rm hw
    obtain ⟨h1, h3⟩ := opcode1_fields op false
    exact ⟨_, m, tl, congrArg _ h, h1, fun rest => by
      change (if wBit (op ++ bit false) then _ else _) = _
      rw [h3]; simp [hp, hr]⟩
  | word rm reg =>
    obtain ⟨m, tl, h, hr, hp⟩ := parseRm_encodeRm Reg16.code Reg16.ofCode Reg16.ofCode_code reg.code rm hw
    obtain ⟨h1, h3⟩ := opcode1_fields op true
    exact ⟨_, m, tl, congrArg _ h, h1, fun rest => by
      change (if wBit (op ++ bit true) then _ else _) = _
      rw [h3]; simp [hp, hr]⟩

/-- Format `RMI`. -/
theorem parseRmImmS_encodeRmi (op : BitVec 6) (ext : BitVec 3) (o : RmImmS) (hw : o.wf = true) :
    ∃ b m tl, encodeRmi op ext o = b :: m :: tl ∧ b.extractLsb' 2 6 = op ∧ regField m = ext ∧
      ∀ rest, parseRmImmS b m (tl ++ rest) = some (o, rest) := by
  cases o with
  | byte sx rm v =>
    obtain ⟨m, tl, h, hr, hp⟩ := parseRm_encodeRm Reg8.code Reg8.ofCode Reg8.ofCode_code ext rm hw
    obtain ⟨h1, h2, h3⟩ := opcode2_fields op sx false
    exact ⟨_, m, tl ++ [v], congrArg (fun l => _ :: (l ++ [v])) h, h1, hr, fun rest => by
      change (if wBit (op ++ bit sx ++ bit false) then _ else
        (parseRm Reg8.ofCode m _).bind fun p => (takeByte p.2).map fun q =>
          (RmImmS.byte (dsBit (op ++ bit sx ++ bit false)) p.1 q.1, q.2)) = _
      rw [h3, h2]; simp [hp]⟩
  | word rm v =>
    obtain ⟨m, tl, h, hr, hp⟩ := parseRm_encodeRm Reg16.code Reg16.ofCode Reg16.ofCode_code ext rm hw
    obtain ⟨h1, h2, h3⟩ := opcode2_fields op false true
    exact ⟨_, m, tl ++ wordBytes v, congrArg (fun l => _ :: (l ++ wordBytes v)) h, h1, hr, fun rest => by
      change (if wBit (op ++ bit false ++ bit true) then (parseRm Reg16.ofCode m _).bind fun p =>
        if dsBit (op ++ bit false ++ bit true) then _ else _ else _) = _
      rw [h3, h2]; simp [hp]⟩
  | wordSext rm v =>
    obtain ⟨m, tl, h, hr, hp⟩ := parseRm_encodeRm Reg16.code Reg16.ofCode Reg16.ofCode_code ext rm hw
    obtain ⟨h1, h2, h3⟩ := opcode2_fields op true true
    exact ⟨_, m, tl ++ [v], congrArg (fun l => _ :: (l ++ [v])) h, h1, hr, fun rest => by
      change (if wBit (op ++ bit true ++ bit true) then (parseRm Reg16.ofCode m _).bind fun p =>
        if dsBit (op ++ bit true ++ bit true) then _ else _ else _) = _
      rw [h3, h2]; simp [hp]⟩

/-- Format `RMI0`. -/
theorem parseRmImm_encodeRmi0 (op : BitVec 7) (ext : BitVec 3) (o : RmImm) (hw : o.wf = true) :
    ∃ b m tl, encodeRmi0 op ext o = b :: m :: tl ∧ b.extractLsb' 1 7 = op ∧ regField m = ext ∧
      ∀ rest, parseRmImm b m (tl ++ rest) = some (o, rest) := by
  cases o with
  | byte rm v =>
    obtain ⟨m, tl, h, hr, hp⟩ := parseRm_encodeRm Reg8.code Reg8.ofCode Reg8.ofCode_code ext rm hw
    obtain ⟨h1, h3⟩ := opcode1_fields op false
    exact ⟨_, m, tl ++ [v], congrArg (fun l => _ :: (l ++ [v])) h, h1, hr, fun rest => by
      change (if wBit (op ++ bit false) then _ else _) = _
      rw [h3]; simp [hp]⟩
  | word rm v =>
    obtain ⟨m, tl, h, hr, hp⟩ := parseRm_encodeRm Reg16.code Reg16.ofCode Reg16.ofCode_code ext rm hw
    obtain ⟨h1, h3⟩ := opcode1_fields op true
    exact ⟨_, m, tl ++ wordBytes v, congrArg (fun l => _ :: (l ++ wordBytes v)) h, h1, hr, fun rest => by
      change (if wBit (op ++ bit true) then _ else _) = _
      rw [h3]; simp [hp]⟩

/-- Format `ACCI`. -/
theorem parseAccImm_encodeAcci (op : BitVec 7) (o : AccImm) :
    ∃ b tl, encodeAcci op o = b :: tl ∧ b.extractLsb' 1 7 = op ∧
      ∀ rest, parseAccImm b (tl ++ rest) = some (o, rest) := by
  cases o with
  | byte v =>
    obtain ⟨h1, h3⟩ := opcode1_fields op false
    exact ⟨_, [v], rfl, h1, fun rest => by
      change (if wBit (op ++ bit false) then _ else _) = _
      rw [h3]; simp⟩
  | word v =>
    obtain ⟨h1, h3⟩ := opcode1_fields op true
    exact ⟨_, wordBytes v, rfl, h1, fun rest => by
      change (if wBit (op ++ bit true) then _ else _) = _
      rw [h3]; simp⟩

/-- Format `RMX` with `w`. -/
theorem parseRmX_encodeRmxw (op : BitVec 7) (ext : BitVec 3) (o : RmX) (hw : o.wf = true) :
    ∃ b m tl, encodeRmxw op ext o = b :: m :: tl ∧ b.extractLsb' 1 7 = op ∧ regField m = ext ∧
      ∀ rest, parseRmX b m (tl ++ rest) = some (o, rest) := by
  cases o with
  | byte rm =>
    obtain ⟨m, tl, h, hr, hp⟩ := parseRm_encodeRm Reg8.code Reg8.ofCode Reg8.ofCode_code ext rm hw
    obtain ⟨h1, h3⟩ := opcode1_fields op false
    exact ⟨_, m, tl, congrArg _ h, h1, hr, fun rest => by
      change (if wBit (op ++ bit false) then _ else _) = _
      rw [h3]; simp [hp]⟩
  | word rm =>
    obtain ⟨m, tl, h, hr, hp⟩ := parseRm_encodeRm Reg16.code Reg16.ofCode Reg16.ofCode_code ext rm hw
    obtain ⟨h1, h3⟩ := opcode1_fields op true
    exact ⟨_, m, tl, congrArg _ h, h1, hr, fun rest => by
      change (if wBit (op ++ bit true) then _ else _) = _
      rw [h3]; simp [hp]⟩

/-! ## Parsed operands encode to the bytes they were parsed from -/

/-- Format `RMR`, for whichever `d`. -/
theorem encodeRmr_parseRmReg (b m : Byte) (bs rest : List Byte) (o : RmReg)
    (h : parseRmReg b m bs = some (o, rest)) :
    o.wf = true ∧ b :: m :: bs = encodeRmr (b.extractLsb' 2 6) (Dir.ofBit (dsBit b)) o ++ rest := by
  have hb := opcode2_of_fields b
  unfold parseRmReg at h
  split at h
  · next hw =>
    simp only [Option.map_eq_some_iff, Prod.mk.injEq] at h
    obtain ⟨⟨rm, tl⟩, hp, rfl, rfl⟩ := h
    obtain ⟨hwf, he⟩ := encodeRm_parseRm Reg16.code _ Reg16.code_ofCode m bs tl rm hp
    refine ⟨hwf, ?_⟩
    rw [hw] at hb
    simp only [encodeRmr, Dir.bit_ofBit, Reg16.code_ofCode, List.cons_append, ← he]
    exact congrArg (· :: _) hb.symm
  · next hw =>
    simp only [Option.map_eq_some_iff, Prod.mk.injEq] at h
    obtain ⟨⟨rm, tl⟩, hp, rfl, rfl⟩ := h
    obtain ⟨hwf, he⟩ := encodeRm_parseRm Reg8.code _ Reg8.code_ofCode m bs tl rm hp
    refine ⟨hwf, ?_⟩
    rw [Bool.not_eq_true] at hw
    rw [hw] at hb
    simp only [encodeRmr, Dir.bit_ofBit, Reg8.code_ofCode, List.cons_append, ← he]
    exact congrArg (· :: _) hb.symm

/-- Format `RMR0`. -/
theorem encodeRmr0_parseRmReg (b m : Byte) (bs rest : List Byte) (o : RmReg)
    (h : parseRmReg b m bs = some (o, rest)) :
    o.wf = true ∧ b :: m :: bs = encodeRmr0 (b.extractLsb' 1 7) o ++ rest := by
  have hb := opcode1_of_fields b
  unfold parseRmReg at h
  split at h
  · next hw =>
    simp only [Option.map_eq_some_iff, Prod.mk.injEq] at h
    obtain ⟨⟨rm, tl⟩, hp, rfl, rfl⟩ := h
    obtain ⟨hwf, he⟩ := encodeRm_parseRm Reg16.code _ Reg16.code_ofCode m bs tl rm hp
    refine ⟨hwf, ?_⟩
    rw [hw] at hb
    simp only [encodeRmr0, Reg16.code_ofCode, List.cons_append, ← he]
    exact congrArg (· :: _) hb.symm
  · next hw =>
    simp only [Option.map_eq_some_iff, Prod.mk.injEq] at h
    obtain ⟨⟨rm, tl⟩, hp, rfl, rfl⟩ := h
    obtain ⟨hwf, he⟩ := encodeRm_parseRm Reg8.code _ Reg8.code_ofCode m bs tl rm hp
    refine ⟨hwf, ?_⟩
    rw [Bool.not_eq_true] at hw
    rw [hw] at hb
    simp only [encodeRmr0, Reg8.code_ofCode, List.cons_append, ← he]
    exact congrArg (· :: _) hb.symm

/-- Format `RMI`. -/
theorem encodeRmi_parseRmImmS (b m : Byte) (bs rest : List Byte) (o : RmImmS)
    (h : parseRmImmS b m bs = some (o, rest)) :
    o.wf = true ∧ b :: m :: bs = encodeRmi (b.extractLsb' 2 6) (regField m) o ++ rest := by
  have hb := opcode2_of_fields b
  unfold parseRmImmS at h
  split at h
  · next hw =>
    simp only [Option.bind_eq_some_iff] at h
    obtain ⟨⟨rm, tl⟩, hp, h⟩ := h
    obtain ⟨hwf, he⟩ := encodeRm_parseRm Reg16.code _ Reg16.code_ofCode m bs tl rm hp
    split at h
    · next hs =>
      simp only [Option.map_eq_some_iff, Prod.mk.injEq] at h
      obtain ⟨⟨v, tl⟩, hv, rfl, rfl⟩ := h
      refine ⟨hwf, ?_⟩
      rw [hw, hs] at hb
      rw [takeByte_some hv] at he
      simp only [encodeRmi, List.cons_append, List.append_assoc, List.nil_append, ← he]
      exact congrArg (· :: _) hb.symm
    · next hs =>
      simp only [Option.map_eq_some_iff, Prod.mk.injEq] at h
      obtain ⟨⟨v, tl⟩, hv, rfl, rfl⟩ := h
      refine ⟨hwf, ?_⟩
      rw [Bool.not_eq_true] at hs
      rw [hw, hs] at hb
      rw [takeWord_some hv] at he
      simp only [encodeRmi, List.cons_append, List.append_assoc, ← he]
      exact congrArg (· :: _) hb.symm
  · next hw =>
    simp only [Option.bind_eq_some_iff, Option.map_eq_some_iff, Prod.mk.injEq] at h
    obtain ⟨⟨rm, tl⟩, hp, ⟨v, tl2⟩, hv, rfl, rfl⟩ := h
    simp only at hv
    obtain ⟨hwf, he⟩ := encodeRm_parseRm Reg8.code _ Reg8.code_ofCode m bs tl rm hp
    refine ⟨hwf, ?_⟩
    rw [Bool.not_eq_true] at hw
    rw [hw] at hb
    rw [takeByte_some hv] at he
    simp only [encodeRmi, List.cons_append, List.append_assoc, List.nil_append, ← he]
    exact congrArg (· :: _) hb.symm

/-- Format `RMI0`. -/
theorem encodeRmi0_parseRmImm (b m : Byte) (bs rest : List Byte) (o : RmImm)
    (h : parseRmImm b m bs = some (o, rest)) :
    o.wf = true ∧ b :: m :: bs = encodeRmi0 (b.extractLsb' 1 7) (regField m) o ++ rest := by
  have hb := opcode1_of_fields b
  unfold parseRmImm at h
  split at h
  · next hw =>
    simp only [Option.bind_eq_some_iff, Option.map_eq_some_iff, Prod.mk.injEq] at h
    obtain ⟨⟨rm, tl⟩, hp, ⟨v, tl2⟩, hv, rfl, rfl⟩ := h
    simp only at hv
    obtain ⟨hwf, he⟩ := encodeRm_parseRm Reg16.code _ Reg16.code_ofCode m bs tl rm hp
    refine ⟨hwf, ?_⟩
    rw [hw] at hb
    rw [takeWord_some hv] at he
    simp only [encodeRmi0, List.cons_append, List.append_assoc, ← he]
    exact congrArg (· :: _) hb.symm
  · next hw =>
    simp only [Option.bind_eq_some_iff, Option.map_eq_some_iff, Prod.mk.injEq] at h
    obtain ⟨⟨rm, tl⟩, hp, ⟨v, tl2⟩, hv, rfl, rfl⟩ := h
    simp only at hv
    obtain ⟨hwf, he⟩ := encodeRm_parseRm Reg8.code _ Reg8.code_ofCode m bs tl rm hp
    refine ⟨hwf, ?_⟩
    rw [Bool.not_eq_true] at hw
    rw [hw] at hb
    rw [takeByte_some hv] at he
    simp only [encodeRmi0, List.cons_append, List.append_assoc, List.nil_append, ← he]
    exact congrArg (· :: _) hb.symm

/-- Format `ACCI`. -/
theorem encodeAcci_parseAccImm (b : Byte) (bs rest : List Byte) (o : AccImm)
    (h : parseAccImm b bs = some (o, rest)) : b :: bs = encodeAcci (b.extractLsb' 1 7) o ++ rest := by
  have hb := opcode1_of_fields b
  unfold parseAccImm at h
  split at h
  · next hw =>
    simp only [Option.map_eq_some_iff, Prod.mk.injEq] at h
    obtain ⟨⟨v, tl⟩, hv, rfl, rfl⟩ := h
    rw [hw] at hb
    rw [takeWord_some hv]
    exact congrArg (· :: _) hb.symm
  · next hw =>
    simp only [Option.map_eq_some_iff, Prod.mk.injEq] at h
    obtain ⟨⟨v, tl⟩, hv, rfl, rfl⟩ := h
    rw [Bool.not_eq_true] at hw
    rw [hw] at hb
    rw [takeByte_some hv]
    exact congrArg (· :: _) hb.symm

/-- Format `RMX` with `w`. -/
theorem encodeRmxw_parseRmX (b m : Byte) (bs rest : List Byte) (o : RmX)
    (h : parseRmX b m bs = some (o, rest)) :
    o.wf = true ∧ b :: m :: bs = encodeRmxw (b.extractLsb' 1 7) (regField m) o ++ rest := by
  have hb := opcode1_of_fields b
  unfold parseRmX at h
  split at h
  · next hw =>
    simp only [Option.map_eq_some_iff, Prod.mk.injEq] at h
    obtain ⟨⟨rm, tl⟩, hp, rfl, rfl⟩ := h
    obtain ⟨hwf, he⟩ := encodeRm_parseRm Reg16.code _ Reg16.code_ofCode m bs tl rm hp
    refine ⟨hwf, ?_⟩
    rw [hw] at hb
    simp only [encodeRmxw, List.cons_append, ← he]
    exact congrArg (· :: _) hb.symm
  · next hw =>
    simp only [Option.map_eq_some_iff, Prod.mk.injEq] at h
    obtain ⟨⟨rm, tl⟩, hp, rfl, rfl⟩ := h
    obtain ⟨hwf, he⟩ := encodeRm_parseRm Reg8.code _ Reg8.code_ofCode m bs tl rm hp
    refine ⟨hwf, ?_⟩
    rw [Bool.not_eq_true] at hw
    rw [hw] at hb
    simp only [encodeRmxw, List.cons_append, ← he]
    exact congrArg (· :: _) hb.symm

/-! ## Matching -/

/-- A row that matches two bytes or more matches by its first two (no row has more than two bytes with literal bits). -/
theorem matchesFixed_two (fs : List (Byte × Byte)) (h : fs.length ≤ 2) (b m : Byte) (bs : List Byte) :
    matchesFixed fs (b :: m :: bs) = matchesFixed fs [b, m] := by
  match fs, h with
  | [], _ => rfl
  | [_], _ => simp [matchesFixed]
  | [_, _], _ => simp [matchesFixed]

/-- The linear probe answers what the only matching row answers. -/
theorem findSome?_only {α β : Type} (l : List α) (p : α → Bool) (f : α → Option β) (r : α) (hr : r ∈ l)
    (hu : ∀ q ∈ l, p q = true → q = r) (hp : p r = true) :
    l.findSome? (fun q => if p q = true then f q else none) = f r := by
  induction l with
  | nil => cases hr
  | cons q l ih =>
    simp only [List.findSome?_cons]
    by_cases hq : p q = true
    · obtain rfl := hu q (by simp) hq
      simp only [hq, if_true]
      cases h : f q with
      | some x => rfl
      | none =>
        refine List.findSome?_eq_none_iff.mpr fun x hx => ?_
        by_cases h2 : p x = true
        · obtain rfl := hu x (by simp [hx]) h2
          simp [h]
        · simp [h2]
    · have hr' : r ∈ l := by
        rcases List.mem_cons.mp hr with rfl | h
        · exact absurd hp hq
        · exact h
      simp only [hq]
      exact ih hr' fun x hx h2 => hu x (by simp [hx]) h2

/-! ## Lengths (R108) -/

@[simp] theorem wordBytes_length (v : Word) : (wordBytes v).length = 2 := rfl

@[simp] theorem encodeRm_length {R : Type} (code : R → BitVec 3) (reg : BitVec 3) (rm : Rm R) :
    (encodeRm code reg rm).length = 1 + rm.dispBytes := by
  cases rm with
  | reg r => rfl
  | mem op => cases op <;> rfl

theorem dispBytes_le {R : Type} (rm : Rm R) : rm.dispBytes ≤ 2 := by
  cases rm with
  | reg r => exact Nat.zero_le 2
  | mem op => cases op <;> simp [Rm.dispBytes]

@[simp] theorem encodeRmr_length (op : BitVec 6) (d : Dir) (o : RmReg) : (encodeRmr op d o).length = o.len := by
  cases o <;> simp [encodeRmr, RmReg.len] <;> omega

@[simp] theorem encodeRmr0_length (op : BitVec 7) (o : RmReg) : (encodeRmr0 op o).length = o.len := by
  cases o <;> simp [encodeRmr0, RmReg.len] <;> omega

@[simp] theorem encodeRmi_length (op : BitVec 6) (e : BitVec 3) (o : RmImmS) : (encodeRmi op e o).length = o.len := by
  cases o <;> simp [encodeRmi, RmImmS.len] <;> omega

@[simp] theorem encodeRmi0_length (op : BitVec 7) (e : BitVec 3) (o : RmImm) : (encodeRmi0 op e o).length = o.len := by
  cases o <;> simp [encodeRmi0, RmImm.len] <;> omega

@[simp] theorem encodeAcci_length (op : BitVec 7) (o : AccImm) : (encodeAcci op o).length = o.len := by
  cases o <;> rfl

@[simp] theorem encodeRmxw_length (op : BitVec 7) (e : BitVec 3) (o : RmX) : (encodeRmxw op e o).length = o.len := by
  cases o <;> simp [encodeRmxw, RmX.len] <;> omega

theorem RmReg.len_range (o : RmReg) : 1 ≤ o.len ∧ o.len ≤ 6 := by
  cases o with
  | byte rm _ => have := dispBytes_le rm; simp only [RmReg.len]; omega
  | word rm _ => have := dispBytes_le rm; simp only [RmReg.len]; omega

theorem RmImmS.len_range (o : RmImmS) : 1 ≤ o.len ∧ o.len ≤ 6 := by
  cases o with
  | byte _ rm _ => have := dispBytes_le rm; simp only [RmImmS.len]; omega
  | word rm _ => have := dispBytes_le rm; simp only [RmImmS.len]; omega
  | wordSext rm _ => have := dispBytes_le rm; simp only [RmImmS.len]; omega

theorem RmImm.len_range (o : RmImm) : 1 ≤ o.len ∧ o.len ≤ 6 := by
  cases o with
  | byte rm _ => have := dispBytes_le rm; simp only [RmImm.len]; omega
  | word rm _ => have := dispBytes_le rm; simp only [RmImm.len]; omega

theorem AccImm.len_range (o : AccImm) : 1 ≤ o.len ∧ o.len ≤ 6 := by
  cases o <;> simp [AccImm.len]

theorem RmX.len_range (o : RmX) : 1 ≤ o.len ∧ o.len ≤ 6 := by
  cases o with
  | byte rm => have := dispBytes_le rm; simp only [RmX.len]; omega
  | word rm => have := dispBytes_le rm; simp only [RmX.len]; omega

end Sys2Proof
end

