-- ==== Sys2Proof/Laws/Flags.lean ====
section
/-! SUPPORT. The masked results of the flag engine as bit-vector arithmetic. -/

namespace Sys2Proof.Machine

/-- The add class without a carry-in is addition mod 2^W (`41_flag_engine.md` R161). -/
theorem addResult_false {W : Nat} (a b : BitVec W) : addResult a b false = a + b := by
  apply BitVec.eq_of_toNat_eq
  simp [addResult]

/-- The add class with a carry-in. -/
theorem addResult_carry {W : Nat} (a b : BitVec W) (c : Bool) :
    addResult a b c = a + b + BitVec.ofNat W c.toNat := by
  apply BitVec.eq_of_toNat_eq
  simp [addResult]

/-- The sub class with a borrow-in is subtraction mod 2^W. -/
theorem subResult_borrow {W : Nat} (a b : BitVec W) (c : Bool) :
    subResult a b c = a - b - BitVec.ofNat W c.toNat := by
  have h : ∀ x y : Int, BitVec.ofInt W (x - y) = BitVec.ofInt W x - BitVec.ofInt W y := by
    intro x y
    apply BitVec.eq_of_toInt_eq
    simp
  simp [subResult, h]

/-- The sub class without a borrow-in. -/
theorem subResult_false {W : Nat} (a b : BitVec W) : subResult a b false = a - b := by
  rw [subResult_borrow]
  simp

end Sys2Proof.Machine
end

