-- ==== Sys2Proof/Laws/PerInstr.lean ====
section
/-! SUPPORT. Statements made once per instruction. `EncodedLength`: the encoding of an instruction has the length that
`30_encoding.md` R108 gives it, between 1 and 6 bytes. -/

namespace Sys2Proof.Laws.EncodedLength

/-- The encoded length is the length of R108, and it is between 1 and 6. -/
def Statement (i : Instr) : Prop := (encode i).length = i.len ∧ 1 ≤ i.len ∧ i.len ≤ 6

/-- The form `11111111 mmeeebbb`. -/
theorem indirect (i : Instr) (ext : BitVec 3) (rm : Rm Reg16) (he : encode i = 0xFF :: encodeRm Reg16.code ext rm)
    (hl : i.len = 2 + rm.dispBytes) : Statement i := by
  have := dispBytes_le rm
  refine ⟨?_, by omega, by omega⟩
  rw [he, hl, List.length_cons, encodeRm_length]
  omega

theorem addRmReg (d : Dir) (o : RmReg) : Statement (.addRmReg d o) := ⟨encodeRmr_length _ d o, o.len_range⟩
theorem addAccImm (o : AccImm) : Statement (.addAccImm o) := ⟨encodeAcci_length _ o, o.len_range⟩
theorem addRmImm (o : RmImmS) : Statement (.addRmImm o) := ⟨encodeRmi_length _ _ o, o.len_range⟩
theorem orRmReg (d : Dir) (o : RmReg) : Statement (.orRmReg d o) := ⟨encodeRmr_length _ d o, o.len_range⟩
theorem orAccImm (o : AccImm) : Statement (.orAccImm o) := ⟨encodeAcci_length _ o, o.len_range⟩
theorem orRmImm (o : RmImmS) : Statement (.orRmImm o) := ⟨encodeRmi_length _ _ o, o.len_range⟩
theorem adcRmReg (d : Dir) (o : RmReg) : Statement (.adcRmReg d o) := ⟨encodeRmr_length _ d o, o.len_range⟩
theorem adcAccImm (o : AccImm) : Statement (.adcAccImm o) := ⟨encodeAcci_length _ o, o.len_range⟩
theorem adcRmImm (o : RmImmS) : Statement (.adcRmImm o) := ⟨encodeRmi_length _ _ o, o.len_range⟩
theorem sbbRmReg (d : Dir) (o : RmReg) : Statement (.sbbRmReg d o) := ⟨encodeRmr_length _ d o, o.len_range⟩
theorem sbbAccImm (o : AccImm) : Statement (.sbbAccImm o) := ⟨encodeAcci_length _ o, o.len_range⟩
theorem sbbRmImm (o : RmImmS) : Statement (.sbbRmImm o) := ⟨encodeRmi_length _ _ o, o.len_range⟩
theorem andRmReg (d : Dir) (o : RmReg) : Statement (.andRmReg d o) := ⟨encodeRmr_length _ d o, o.len_range⟩
theorem andAccImm (o : AccImm) : Statement (.andAccImm o) := ⟨encodeAcci_length _ o, o.len_range⟩
theorem andRmImm (o : RmImmS) : Statement (.andRmImm o) := ⟨encodeRmi_length _ _ o, o.len_range⟩
theorem subRmReg (d : Dir) (o : RmReg) : Statement (.subRmReg d o) := ⟨encodeRmr_length _ d o, o.len_range⟩
theorem subAccImm (o : AccImm) : Statement (.subAccImm o) := ⟨encodeAcci_length _ o, o.len_range⟩
theorem subRmImm (o : RmImmS) : Statement (.subRmImm o) := ⟨encodeRmi_length _ _ o, o.len_range⟩
theorem xorRmReg (d : Dir) (o : RmReg) : Statement (.xorRmReg d o) := ⟨encodeRmr_length _ d o, o.len_range⟩
theorem xorAccImm (o : AccImm) : Statement (.xorAccImm o) := ⟨encodeAcci_length _ o, o.len_range⟩
theorem xorRmImm (o : RmImmS) : Statement (.xorRmImm o) := ⟨encodeRmi_length _ _ o, o.len_range⟩
theorem cmpRmReg (d : Dir) (o : RmReg) : Statement (.cmpRmReg d o) := ⟨encodeRmr_length _ d o, o.len_range⟩
theorem cmpAccImm (o : AccImm) : Statement (.cmpAccImm o) := ⟨encodeAcci_length _ o, o.len_range⟩
theorem cmpRmImm (o : RmImmS) : Statement (.cmpRmImm o) := ⟨encodeRmi_length _ _ o, o.len_range⟩
theorem testRmReg (o : RmReg) : Statement (.testRmReg o) := ⟨encodeRmr0_length _ o, o.len_range⟩
theorem testAccImm (o : AccImm) : Statement (.testAccImm o) := ⟨encodeAcci_length _ o, o.len_range⟩
theorem testRmImm (o : RmImm) : Statement (.testRmImm o) := ⟨encodeRmi0_length _ _ o, o.len_range⟩
theorem movRmReg (d : Dir) (o : RmReg) : Statement (.movRmReg d o) := ⟨encodeRmr_length _ d o, o.len_range⟩
theorem movRmImm (o : RmImm) : Statement (.movRmImm o) := ⟨encodeRmi0_length _ _ o, o.len_range⟩
theorem daa : Statement .daa := ⟨rfl, by decide, by decide⟩
theorem das : Statement .das := ⟨rfl, by decide, by decide⟩
theorem aaa : Statement .aaa := ⟨rfl, by decide, by decide⟩
theorem aas : Statement .aas := ⟨rfl, by decide, by decide⟩
theorem aam : Statement .aam := ⟨rfl, by decide, by decide⟩
theorem aad : Statement .aad := ⟨rfl, by decide, by decide⟩
theorem div (o : RmX) : Statement (.div o) := ⟨encodeRmxw_length _ _ o, o.len_range⟩
theorem idiv (o : RmX) : Statement (.idiv o) := ⟨encodeRmxw_length _ _ o, o.len_range⟩
theorem callNear (v : Word) : Statement (.callNear v) := ⟨rfl, by simp [Instr.len], by simp [Instr.len]⟩
theorem callRm (rm : Rm Reg16) : Statement (.callRm rm) := indirect _ _ rm rfl rfl
theorem callFar (v v2 : Word) : Statement (.callFar v v2) := ⟨rfl, by simp [Instr.len], by simp [Instr.len]⟩
theorem callFarRm (rm : Rm Reg16) : Statement (.callFarRm rm) := indirect _ _ rm rfl rfl
theorem jmpNear (v : Word) : Statement (.jmpNear v) := ⟨rfl, by simp [Instr.len], by simp [Instr.len]⟩
theorem jmpRm (rm : Rm Reg16) : Statement (.jmpRm rm) := indirect _ _ rm rfl rfl
theorem jmpFar (v v2 : Word) : Statement (.jmpFar v v2) := ⟨rfl, by simp [Instr.len], by simp [Instr.len]⟩
theorem jmpFarRm (rm : Rm Reg16) : Statement (.jmpFarRm rm) := indirect _ _ rm rfl rfl

end Sys2Proof.Laws.EncodedLength
end

