-- ==== Sys2Proof/Laws/Step.lean ====
section
/-! SUPPORT. The step's surroundings: host inputs, placed bytes, and the invariant under the named operations. -/

namespace Sys2Proof.Machine

/-! ## Host inputs -/

/-- When a finished outcome is a next state. -/
theorem finishStep_next (o : Host.Outcome State Fault Refusal) (t : State) :
    finishStep o = .next t ↔ ∃ u, o = .next u ∧ t = u.dropInput := by
  cases o with
  | next u =>
    simp only [finishStep, Host.Outcome.next.injEq, exists_eq_left']
    exact eq_comm
  | fault r => simp [finishStep]
  | refused r => simp [finishStep]

/-! ## Bytes placed at CS:IP -/

@[simp] theorem storeAtIP_segs (s : State) (bs : List Byte) (n : Nat) : (s.storeAtIP bs n).segs = s.segs := by
  induction bs generalizing s n with
  | nil => rfl
  | cons b bs ih => rw [State.storeAtIP, ih]; rfl

@[simp] theorem storeAtIP_ip (s : State) (bs : List Byte) (n : Nat) : (s.storeAtIP bs n).ip = s.ip := by
  induction bs generalizing s n with
  | nil => rfl
  | cons b bs ih => rw [State.storeAtIP, ih]; rfl

@[simp] theorem storeAtIP_cfg (s : State) (bs : List Byte) (n : Nat) : (s.storeAtIP bs n).cfg = s.cfg := by
  induction bs generalizing s n with
  | nil => rfl
  | cons b bs ih => rw [State.storeAtIP, ih]; rfl

@[simp] theorem storeAtIP_inputs (s : State) (bs : List Byte) (n : Nat) :
    (s.storeAtIP bs n).inputs = s.inputs := by
  induction bs generalizing s n with
  | nil => rfl
  | cons b bs ih => rw [State.storeAtIP, ih]; rfl

@[simp] theorem storeAtIP_regs (s : State) (bs : List Byte) (n : Nat) : (s.storeAtIP bs n).regs = s.regs := by
  induction bs generalizing s n with
  | nil => rfl
  | cons b bs ih => rw [State.storeAtIP, ih]; rfl

@[simp] theorem storeAtIP_flags (s : State) (bs : List Byte) (n : Nat) : (s.storeAtIP bs n).flags = s.flags := by
  induction bs generalizing s n with
  | nil => rfl
  | cons b bs ih => rw [State.storeAtIP, ih]; rfl

/-- An offset that none of the placed bytes lies at reads as before. -/
theorem storeAtIP_memRead8_before (s : State) (bs : List Byte) (n k : Nat) (hk : k < n)
    (hn : n + bs.length ≤ 65536) :
    (s.storeAtIP bs n).memRead8 (s.seg .cs) (s.ip + BitVec.ofNat 16 k) =
      s.memRead8 (s.seg .cs) (s.ip + BitVec.ofNat 16 k) := by
  induction bs generalizing s n with
  | nil => rfl
  | cons b bs ih =>
    rw [List.length_cons] at hn
    have h := ih (s.memWrite8 (s.seg .cs) (s.ip + BitVec.ofNat 16 n) b) (n + 1) (by omega) (by omega)
    refine h.trans ?_
    refine (memWrite8_memRead8 s (s.seg .cs) _ _ b).trans (if_neg fun e => ?_)
    have e := congrArg BitVec.toNat (BitVec.add_right_inj s.ip |>.mp e)
    simp only [BitVec.toNat_ofNat] at e
    omega

/-- A placed byte reads back at its offset. -/
theorem storeAtIP_memRead8 (s : State) (bs : List Byte) (n k : Nat) (hk : k < bs.length)
    (hn : n + bs.length ≤ 65536) :
    (s.storeAtIP bs n).memRead8 (s.seg .cs) (s.ip + BitVec.ofNat 16 (n + k)) = bs[k] := by
  induction bs generalizing s n k with
  | nil => simp at hk
  | cons b bs ih =>
    rw [List.length_cons] at hk hn
    cases k with
    | zero =>
      refine (storeAtIP_memRead8_before (s.memWrite8 (s.seg .cs) (s.ip + BitVec.ofNat 16 n) b) bs (n + 1) n
        (by omega) (by omega)).trans ?_
      exact memWrite8_memRead8_same s _ _ b
    | succ k =>
      have h := ih (s.memWrite8 (s.seg .cs) (s.ip + BitVec.ofNat 16 n) b) (n + 1) k (by omega) (by omega)
      rw [show n + (k + 1) = n + 1 + k by omega]
      exact h

/-! ## The invariant under the named operations -/

/-- A state with the same memory and parameters keeps the invariant. -/
theorem Inv.of_mem_cfg {s t : State} (h : s.Inv) (hm : t.mem = s.mem) (hc : t.cfg = s.cfg) : t.Inv := by
  unfold State.Inv State.physBits
  rw [hm, hc]
  exact h

theorem Inv.memWrite8 {s : State} (h : s.Inv) (g o : Word) (v : Byte) : (s.memWrite8 g o v).Inv := by
  refine ⟨write_wf _ _ _ h.1, fun c hc => ?_⟩
  rcases mem_write _ _ _ c hc with he | hm
  · rw [he]
    exact phys_lt s g o
  · exact h.2 c hm

theorem Inv.memWrite16 {s : State} (h : s.Inv) (g o : Word) (v : Word) : (s.memWrite16 g o v).Inv :=
  Inv.memWrite8 (Inv.memWrite8 h g o _) g (o + 1) _

theorem Inv.set8 {s : State} (h : s.Inv) (l : Loc Reg8) (v : Byte) : (s.set8 l v).Inv := by
  cases l with
  | reg r => exact Inv.of_mem_cfg h rfl rfl
  | mem sel base addend => exact Inv.memWrite8 h _ _ v

theorem Inv.set16 {s : State} (h : s.Inv) (l : Loc Reg16) (v : Word) : (s.set16 l v).Inv := by
  cases l with
  | reg r => exact Inv.of_mem_cfg h rfl rfl
  | mem sel base addend => exact Inv.memWrite16 h _ _ v

theorem Inv.push16 {s : State} (h : s.Inv) (v : Word) : (s.push16 v).Inv :=
  Inv.memWrite16 (Inv.of_mem_cfg (t := s.setReg16 .sp (s.reg16 .sp - 2)) h rfl rfl) _ _ v

end Sys2Proof.Machine
end

