-- ==== Sys2Proof/Laws/Text.lean ====
section
/-! SUPPORT. Text: digits read back, and how words and punctuation are read. -/

namespace Sys2Proof.Machine

/-! ## Digits -/

/-- A hexadecimal digit reads back. -/
theorem hexDigit_hexChar (n : Nat) (h : n < 16) : hexDigit (hexChar n) = some n := by
  revert n; decide

/-- A hexadecimal digit is a letter or digit in upper case. -/
theorem hexChar_alphanum (n : Nat) (h : n < 16) :
    (hexChar n).isAlphanum = true ∧ (hexChar n).toUpper = hexChar n ∧ punctuation (hexChar n) = none ∧
      hexChar n ≠ ' ' ∧ hexChar n ≠ '\t' := by
  revert n; decide

/-- Two digits read back as their byte. -/
theorem digitsValue_hexByte (b : Byte) : digitsValue hexDigit 16 (hexByte b) = some b.toNat := by
  have h := b.isLt
  simp only [digitsValue, hexByte, List.foldl_cons, List.foldl_nil, Option.bind_some,
    hexDigit_hexChar _ (show b.toNat / 16 < 16 by omega), hexDigit_hexChar _ (show b.toNat % 16 < 16 by omega),
    Option.map_some]
  congr 1
  omega

/-- Four digits read back as their word. -/
theorem hexNumber_hexWord (v : Word) : hexNumber (hexWord v) = some (4, v.toNat) := by
  have h := v.isLt
  have hh : (highByte v).toNat = v.toNat / 256 := by
    simp only [highByte, BitVec.toNat_ofNat]
    omega
  have hl : (lowByte v).toNat = v.toNat % 256 := by
    simp only [lowByte, BitVec.toNat_ofNat]
  simp only [hexNumber, hexWord, hexByte, digitsValue, List.cons_append, List.nil_append, List.foldl_cons,
    List.foldl_nil, Option.bind_some, hh, hl, hexDigit_hexChar _ (show v.toNat / 256 / 16 < 16 by omega),
    hexDigit_hexChar _ (show v.toNat / 256 % 16 < 16 by omega),
    hexDigit_hexChar _ (show v.toNat % 256 / 16 < 16 by omega),
    hexDigit_hexChar _ (show v.toNat % 256 % 16 < 16 by omega), Option.map_some]
  simp only [reduceCtorEq, if_false, List.length_cons, List.length_nil, Option.some.injEq, Prod.mk.injEq, true_and]
  omega

theorem hexNumber_hexByte (b : Byte) : hexNumber (hexByte b) = some (2, b.toNat) := by
  rw [hexNumber, digitsValue_hexByte]
  rfl

/-- A signed byte reads back from its sign and magnitude. -/
theorem signedByte_signedByteText (b : Byte) :
    ∃ neg cs, signedByteText b = (if neg then '-' else '+') :: cs ∧ signedByte neg cs = some b ∧
      ∃ n, n < 256 ∧ cs = hexByte (BitVec.ofNat 8 n) := by
  refine ⟨b.msb, _, rfl, ?_, _, ?_, rfl⟩
  · revert b
    decide
  · revert b
    decide

/-! ## Reading a line -/

/-- A character of a word in upper case. -/
def isWordChar (c : Char) : Bool :=
  c.isAlphanum && c.toUpper == c && punctuation c == none && c != ' ' && c != '\t'

theorem isWordChar_iff (c : Char) : isWordChar c = true ↔
    c.isAlphanum = true ∧ c.toUpper = c ∧ punctuation c = none ∧ c ≠ ' ' ∧ c ≠ '\t' := by
  simp [isWordChar, and_assoc]

/-- Word characters extend the word read so far. -/
theorem lexFrom_word (acc cs rest : List Char) (h : ∀ c ∈ cs, isWordChar c = true) :
    lexFrom acc (cs ++ rest) = lexFrom (acc ++ cs) rest := by
  induction cs generalizing acc with
  | nil => simp
  | cons c cs ih =>
    obtain ⟨h1, h2, h3, h4, h5⟩ := (isWordChar_iff c).mp (h c (by simp))
    rw [List.cons_append, lexFrom, if_neg (by simp [h4, h5]), h3]
    simp only [h1, if_true, h2]
    rw [ih _ fun d hd => h d (by simp [hd])]
    simp

/-- A space ends a word. -/
theorem lexFrom_space (acc rest : List Char) : lexFrom acc (' ' :: rest) = (lexFrom [] rest).map (endWord acc) := by
  rw [lexFrom, if_pos (.inl rfl)]

/-- Punctuation ends a word and is a token. -/
theorem lexFrom_punctuation (acc rest : List Char) (c : Char) (t : Tok) (h : punctuation c = some t)
    (hs : c ≠ ' ' ∧ c ≠ '\t') :
    lexFrom acc (c :: rest) = (lexFrom [] rest).map fun ts => endWord acc (t :: ts) := by
  rw [lexFrom, if_neg (by simp [hs.1, hs.2]), h]

theorem hexByte_word (b : Byte) : ∀ c ∈ hexByte b, isWordChar c = true := by
  intro c hc
  have h := b.isLt
  simp only [hexByte, List.mem_cons, List.not_mem_nil, or_false] at hc
  rcases hc with rfl | rfl
  · exact (isWordChar_iff _).mpr (hexChar_alphanum _ (by omega))
  · exact (isWordChar_iff _).mpr (hexChar_alphanum _ (by omega))

theorem hexWord_word (v : Word) : ∀ c ∈ hexWord v, isWordChar c = true := by
  intro c hc
  rcases List.mem_append.mp hc with h | h
  · exact hexByte_word _ c h
  · exact hexByte_word _ c h

/-- The names of registers and mnemonics are made of word characters. -/
theorem reg8_word (r : Reg8) : r.name.toList.all isWordChar = true := by cases r <;> rfl

theorem reg16_word (r : Reg16) : r.name.toList.all isWordChar = true := by cases r <;> rfl

theorem mnemonic_word (i : Instr) : i.mnemonic.toList.all isWordChar = true := by
  cases i <;> simp only [Instr.mnemonic] <;> rfl

/-! ## Parsed words -/

@[simp] theorem parseWord_reg8 (r : Reg8) : parseWord r.name.toList = .reg8 r := by cases r <;> rfl

@[simp] theorem parseWord_reg16 (r : Reg16) : parseWord r.name.toList = .reg16 r := by cases r <;> rfl

@[simp] theorem baseNamed_name (b : Base) : baseNamed b.name.toList = some b := by cases b <;> rfl

/-! ## Bases between brackets -/

theorem isName_hexByte (b : Byte) : isName (hexByte b) = false := by rw [isName, hexNumber_hexByte]; rfl

theorem isName_hexWord (v : Word) : isName (hexWord v) = false := by rw [isName, hexNumber_hexWord]; rfl

theorem isName_reg16 (r : Reg16) : isName r.name.toList = true := by cases r <;> decide

@[simp] theorem joinedNames_nil : joinedNames [] = ([], []) := rfl

/-- A minus sign starts the displacement. -/
@[simp] theorem joinedNames_minus (ts : List Tok) : joinedNames (.minus :: ts) = ([], .minus :: ts) := rfl

/-- A name after `+` belongs to the base. -/
theorem joinedNames_name (b : List Char) (ts : List Tok) (h : isName b = true) :
    joinedNames (.plus :: .word b :: ts) = (b :: (joinedNames ts).1, (joinedNames ts).2) := by
  rw [joinedNames, if_pos h]

/-- A number after `+` is the displacement. -/
theorem joinedNames_number (n : List Char) (ts : List Tok) (h : isName n = false) :
    joinedNames (.plus :: .word n :: ts) = ([], .plus :: .word n :: ts) := by
  rw [joinedNames, if_neg (by simp [h])]

/-- Operands of one family of two-operand forms are malformed exactly for a name outside its enumeration or two
widths. -/
theorem malformedBinary_alu (rr : Dir → RmReg → Instr) (ai : AccImm → Instr) (ri : RmImmS → Instr) (x y : TextOp) :
    malformedBinary (.alu rr ai ri) x y = true ↔ x = .malformed ∨ y = .malformed ∨ widthsDiffer x y = true := by
  simp [malformedBinary, or_assoc]

end Sys2Proof.Machine
end

