-- ==== Sys2Proof/Tests/Slice0.lean ====
section
/-! SUPPORT. Tests on fixed values. The expected values are the spec's: `95_test_vectors.md` and the examples of the
instruction rules. Then a witness of the hypotheses of every statement that has some. -/

namespace Sys2Proof.Tests

open Sys2Proof Sys2Proof.Machine

/-! ## Helpers -/

/-- The bytes placed at CS:IP of the state and run for one step; the next state passes the check. -/
def runs (bytes : List Byte) (s : State) (p : State → Bool) : Bool :=
  match step (s.storeAtIP bytes 0) with
  | .next t => p t
  | .fault _ | .refused _ => false

/-- The bytes placed at CS:IP of the state and run for one step end in the fault. -/
def faults (bytes : List Byte) (s : State) (f : Fault) : Bool :=
  match step (s.storeAtIP bytes 0) with
  | .fault r => r == f
  | .next _ | .refused _ => false

/-- A small state: general registers, CS at 0x0100 and DS, SS and ES at 0x0200, 0x0300 and 0x0400. -/
def start (regs : Regs) (flags : Flags := {}) (mem : Memory := []) (ip : Word := 0) : State :=
  { regs := regs, segs := { CS := 0x0100, DS := 0x0200, SS := 0x0300, ES := 0x0400 }, ip := ip, flags := flags,
    mem := mem }

/-! ## Well-formedness: each operand format refuses `[BP]` without a displacement (R126) -/

theorem test_illformed_rmr_byte : Instr.wf (.addRmReg .toRm (.byte (.mem (.noDisp .bp)) .al)) = false := by decide
theorem test_illformed_rmr_word : Instr.wf (.movRmReg .toReg (.word (.mem (.noDisp .bp)) .ax)) = false := by decide
theorem test_illformed_rmr0 : Instr.wf (.testRmReg (.word (.mem (.noDisp .bp)) .ax)) = false := by decide
theorem test_illformed_rmi_byte : Instr.wf (.addRmImm (.byte true (.mem (.noDisp .bp)) 5)) = false := by decide
theorem test_illformed_rmi_word : Instr.wf (.subRmImm (.word (.mem (.noDisp .bp)) 5)) = false := by decide
theorem test_illformed_rmi_sext : Instr.wf (.cmpRmImm (.wordSext (.mem (.noDisp .bp)) 5)) = false := by decide
theorem test_illformed_rmi0_byte : Instr.wf (.movRmImm (.byte (.mem (.noDisp .bp)) 5)) = false := by decide
theorem test_illformed_rmi0_word : Instr.wf (.testRmImm (.word (.mem (.noDisp .bp)) 5)) = false := by decide
theorem test_illformed_rmx_byte : Instr.wf (.div (.byte (.mem (.noDisp .bp)))) = false := by decide
theorem test_illformed_rmx_word : Instr.wf (.idiv (.word (.mem (.noDisp .bp)))) = false := by decide
theorem test_illformed_call_near : Instr.wf (.callRm (.mem (.noDisp .bp))) = false := by decide
theorem test_illformed_call_far : Instr.wf (.callFarRm (.mem (.noDisp .bp))) = false := by decide
theorem test_illformed_jmp_near : Instr.wf (.jmpRm (.mem (.noDisp .bp))) = false := by decide
theorem test_illformed_jmp_far : Instr.wf (.jmpFarRm (.mem (.noDisp .bp))) = false := by decide

theorem test_wellformed_neighbours :
    Instr.wf (.addRmReg .toRm (.byte (.mem (.disp8 .bp 0)) .al)) = true ∧
      Instr.wf (.callRm (.mem (.noDisp .bpsi))) = true ∧ Instr.wf (.jmpRm (.reg .bp)) = true := by decide

/-- The bytes of `[BP]` would be those of a direct address (R86). -/
theorem test_bp_without_displacement_is_direct :
    decode [0b00000001, 0b00000110, 0x34, 0x12] = .matched (.addRmReg .toRm (.word (.mem (.direct 0x1234)) .ax)) [] := by
  decide

/-! ## Decoding: every constructor from a word written out bit by bit (R82, R103, R104) -/

theorem test_decode_add :
    decode [0b00000001, 0b11011000] = .matched (.addRmReg .toRm (.word (.reg .ax) .bx)) [] ∧
      decode [0b00000010, 0b01000111, 0x04] = .matched (.addRmReg .toReg (.byte (.mem (.disp8 .bx 0x04)) .al)) [] ∧
      decode [0b00000100, 0x41] = .matched (.addAccImm (.byte 0x41)) [] ∧
      decode [0b00000101, 0x34, 0x12] = .matched (.addAccImm (.word 0x1234)) [] ∧
      decode [0b10000000, 0b00000110, 0x00, 0x10, 0xFF] =
        .matched (.addRmImm (.byte false (.mem (.direct 0x1000)) 0xFF)) [] ∧
      decode [0b10000001, 0b11000011, 0x05, 0x00] = .matched (.addRmImm (.word (.reg .bx) 0x0005)) [] ∧
      decode [0b10000010, 0b11000011, 0x05] = .matched (.addRmImm (.byte true (.reg .bl) 0x05)) [] ∧
      decode [0b10000011, 0b01000110, 0xFE, 0x01] =
        .matched (.addRmImm (.wordSext (.mem (.disp8 .bp 0xFE)) 0x01)) [] := by
  decide

theorem test_decode_or :
    decode [0b00001001, 0b11011000] = .matched (.orRmReg .toRm (.word (.reg .ax) .bx)) [] ∧
      decode [0b00001010, 0b01000111, 0x04] = .matched (.orRmReg .toReg (.byte (.mem (.disp8 .bx 0x04)) .al)) [] ∧
      decode [0b00001100, 0x41] = .matched (.orAccImm (.byte 0x41)) [] ∧
      decode [0b00001101, 0x34, 0x12] = .matched (.orAccImm (.word 0x1234)) [] ∧
      decode [0b10000000, 0b00001110, 0x00, 0x10, 0xFF] =
        .matched (.orRmImm (.byte false (.mem (.direct 0x1000)) 0xFF)) [] ∧
      decode [0b10000001, 0b11001011, 0x05, 0x00] = .matched (.orRmImm (.word (.reg .bx) 0x0005)) [] ∧
      decode [0b10000010, 0b11001011, 0x05] = .matched (.orRmImm (.byte true (.reg .bl) 0x05)) [] ∧
      decode [0b10000011, 0b01001110, 0xFE, 0x01] =
        .matched (.orRmImm (.wordSext (.mem (.disp8 .bp 0xFE)) 0x01)) [] := by
  decide

theorem test_decode_adc :
    decode [0b00010001, 0b11011000] = .matched (.adcRmReg .toRm (.word (.reg .ax) .bx)) [] ∧
      decode [0b00010010, 0b01000111, 0x04] = .matched (.adcRmReg .toReg (.byte (.mem (.disp8 .bx 0x04)) .al)) [] ∧
      decode [0b00010100, 0x41] = .matched (.adcAccImm (.byte 0x41)) [] ∧
      decode [0b00010101, 0x34, 0x12] = .matched (.adcAccImm (.word 0x1234)) [] ∧
      decode [0b10000000, 0b00010110, 0x00, 0x10, 0xFF] =
        .matched (.adcRmImm (.byte false (.mem (.direct 0x1000)) 0xFF)) [] ∧
      decode [0b10000001, 0b11010011, 0x05, 0x00] = .matched (.adcRmImm (.word (.reg .bx) 0x0005)) [] ∧
      decode [0b10000010, 0b11010011, 0x05] = .matched (.adcRmImm (.byte true (.reg .bl) 0x05)) [] ∧
      decode [0b10000011, 0b01010110, 0xFE, 0x01] =
        .matched (.adcRmImm (.wordSext (.mem (.disp8 .bp 0xFE)) 0x01)) [] := by
  decide

theorem test_decode_sbb :
    decode [0b00011001, 0b11011000] = .matched (.sbbRmReg .toRm (.word (.reg .ax) .bx)) [] ∧
      decode [0b00011010, 0b01000111, 0x04] = .matched (.sbbRmReg .toReg (.byte (.mem (.disp8 .bx 0x04)) .al)) [] ∧
      decode [0b00011100, 0x41] = .matched (.sbbAccImm (.byte 0x41)) [] ∧
      decode [0b00011101, 0x34, 0x12] = .matched (.sbbAccImm (.word 0x1234)) [] ∧
      decode [0b10000000, 0b00011110, 0x00, 0x10, 0xFF] =
        .matched (.sbbRmImm (.byte false (.mem (.direct 0x1000)) 0xFF)) [] ∧
      decode [0b10000001, 0b11011011, 0x05, 0x00] = .matched (.sbbRmImm (.word (.reg .bx) 0x0005)) [] ∧
      decode [0b10000010, 0b11011011, 0x05] = .matched (.sbbRmImm (.byte true (.reg .bl) 0x05)) [] ∧
      decode [0b10000011, 0b01011110, 0xFE, 0x01] =
        .matched (.sbbRmImm (.wordSext (.mem (.disp8 .bp 0xFE)) 0x01)) [] := by
  decide

theorem test_decode_and :
    decode [0b00100001, 0b11011000] = .matched (.andRmReg .toRm (.word (.reg .ax) .bx)) [] ∧
      decode [0b00100010, 0b01000111, 0x04] = .matched (.andRmReg .toReg (.byte (.mem (.disp8 .bx 0x04)) .al)) [] ∧
      decode [0b00100100, 0x41] = .matched (.andAccImm (.byte 0x41)) [] ∧
      decode [0b00100101, 0x34, 0x12] = .matched (.andAccImm (.word 0x1234)) [] ∧
      decode [0b10000000, 0b00100110, 0x00, 0x10, 0xFF] =
        .matched (.andRmImm (.byte false (.mem (.direct 0x1000)) 0xFF)) [] ∧
      decode [0b10000001, 0b11100011, 0x05, 0x00] = .matched (.andRmImm (.word (.reg .bx) 0x0005)) [] ∧
      decode [0b10000010, 0b11100011, 0x05] = .matched (.andRmImm (.byte true (.reg .bl) 0x05)) [] ∧
      decode [0b10000011, 0b01100110, 0xFE, 0x01] =
        .matched (.andRmImm (.wordSext (.mem (.disp8 .bp 0xFE)) 0x01)) [] := by
  decide

theorem test_decode_sub :
    decode [0b00101001, 0b11011000] = .matched (.subRmReg .toRm (.word (.reg .ax) .bx)) [] ∧
      decode [0b00101010, 0b01000111, 0x04] = .matched (.subRmReg .toReg (.byte (.mem (.disp8 .bx 0x04)) .al)) [] ∧
      decode [0b00101100, 0x41] = .matched (.subAccImm (.byte 0x41)) [] ∧
      decode [0b00101101, 0x34, 0x12] = .matched (.subAccImm (.word 0x1234)) [] ∧
      decode [0b10000000, 0b00101110, 0x00, 0x10, 0xFF] =
        .matched (.subRmImm (.byte false (.mem (.direct 0x1000)) 0xFF)) [] ∧
      decode [0b10000001, 0b11101011, 0x05, 0x00] = .matched (.subRmImm (.word (.reg .bx) 0x0005)) [] ∧
      decode [0b10000010, 0b11101011, 0x05] = .matched (.subRmImm (.byte true (.reg .bl) 0x05)) [] ∧
      decode [0b10000011, 0b01101110, 0xFE, 0x01] =
        .matched (.subRmImm (.wordSext (.mem (.disp8 .bp 0xFE)) 0x01)) [] := by
  decide

theorem test_decode_xor :
    decode [0b00110001, 0b11011000] = .matched (.xorRmReg .toRm (.word (.reg .ax) .bx)) [] ∧
      decode [0b00110010, 0b01000111, 0x04] = .matched (.xorRmReg .toReg (.byte (.mem (.disp8 .bx 0x04)) .al)) [] ∧
      decode [0b00110100, 0x41] = .matched (.xorAccImm (.byte 0x41)) [] ∧
      decode [0b00110101, 0x34, 0x12] = .matched (.xorAccImm (.word 0x1234)) [] ∧
      decode [0b10000000, 0b00110110, 0x00, 0x10, 0xFF] =
        .matched (.xorRmImm (.byte false (.mem (.direct 0x1000)) 0xFF)) [] ∧
      decode [0b10000001, 0b11110011, 0x05, 0x00] = .matched (.xorRmImm (.word (.reg .bx) 0x0005)) [] ∧
      decode [0b10000010, 0b11110011, 0x05] = .matched (.xorRmImm (.byte true (.reg .bl) 0x05)) [] ∧
      decode [0b10000011, 0b01110110, 0xFE, 0x01] =
        .matched (.xorRmImm (.wordSext (.mem (.disp8 .bp 0xFE)) 0x01)) [] := by
  decide

theorem test_decode_cmp :
    decode [0b00111001, 0b11011000] = .matched (.cmpRmReg .toRm (.word (.reg .ax) .bx)) [] ∧
      decode [0b00111010, 0b01000111, 0x04] = .matched (.cmpRmReg .toReg (.byte (.mem (.disp8 .bx 0x04)) .al)) [] ∧
      decode [0b00111100, 0x41] = .matched (.cmpAccImm (.byte 0x41)) [] ∧
      decode [0b00111101, 0x34, 0x12] = .matched (.cmpAccImm (.word 0x1234)) [] ∧
      decode [0b10000000, 0b00111110, 0x00, 0x10, 0xFF] =
        .matched (.cmpRmImm (.byte false (.mem (.direct 0x1000)) 0xFF)) [] ∧
      decode [0b10000001, 0b11111011, 0x05, 0x00] = .matched (.cmpRmImm (.word (.reg .bx) 0x0005)) [] ∧
      decode [0b10000010, 0b11111011, 0x05] = .matched (.cmpRmImm (.byte true (.reg .bl) 0x05)) [] ∧
      decode [0b10000011, 0b01111110, 0xFE, 0x01] =
        .matched (.cmpRmImm (.wordSext (.mem (.disp8 .bp 0xFE)) 0x01)) [] := by
  decide

theorem test_decode_test :
    decode [0b10000101, 0b11000000] = .matched (.testRmReg (.word (.reg .ax) .ax)) [] ∧
      decode [0b10101000, 0x80] = .matched (.testAccImm (.byte 0x80)) [] ∧
      decode [0b11110110, 0b00000110, 0x00, 0x02, 0x80] =
        .matched (.testRmImm (.byte (.mem (.direct 0x0200)) 0x80)) [] := by
  decide

theorem test_decode_mov :
    decode [0b10001010, 0b01000110, 0x00] = .matched (.movRmReg .toReg (.byte (.mem (.disp8 .bp 0x00)) .al)) [] ∧
      decode [0b10001011, 0b10001100, 0x00, 0x80] =
        .matched (.movRmReg .toReg (.word (.mem (.disp16 .si 0x8000)) .cx)) [] ∧
      decode [0b11000111, 0b10000110, 0x00, 0x01, 0x34, 0x12] =
        .matched (.movRmImm (.word (.mem (.disp16 .bp 0x0100)) 0x1234)) [] := by
  decide

theorem test_decode_adjusts :
    decode [0b00100111] = .matched .daa [] ∧ decode [0b00101111] = .matched .das [] ∧
      decode [0b00110111] = .matched .aaa [] ∧ decode [0b00111111] = .matched .aas [] ∧
      decode [0b11010100, 0b00001010] = .matched .aam [] ∧ decode [0b11010101, 0b00001010] = .matched .aad [] := by
  decide

theorem test_decode_divide :
    decode [0b11110110, 0b00110000] = .matched (.div (.byte (.mem (.noDisp .bxsi)))) [] ∧
      decode [0b11110111, 0b11111011] = .matched (.idiv (.word (.reg .bx))) [] := by
  decide

theorem test_decode_call :
    decode [0b11101000, 0x05, 0x00] = .matched (.callNear 0x0005) [] ∧
      decode [0b11111111, 0b00010111] = .matched (.callRm (.mem (.noDisp .bx))) [] ∧
      decode [0b10011010, 0x78, 0x56, 0x34, 0x12] = .matched (.callFar 0x5678 0x1234) [] ∧
      decode [0b11111111, 0b00011111] = .matched (.callFarRm (.mem (.noDisp .bx))) [] := by
  decide

theorem test_decode_jmp :
    decode [0b11101001, 0xFB, 0xFF] = .matched (.jmpNear 0xFFFB) [] ∧
      decode [0b11111111, 0b11100000] = .matched (.jmpRm (.reg .ax)) [] ∧
      decode [0b11101010, 0xF0, 0xFF, 0x00, 0xF0] = .matched (.jmpFar 0xFFF0 0xF000) [] ∧
      decode [0b11111111, 0b00101110, 0x00, 0x05] = .matched (.jmpFarRm (.mem (.direct 0x0500))) [] := by
  decide

/-- Vectors X1 to X9. -/
theorem test_no_match :
    [[0xD5, 0x0B], [0xF6, 0x10], [0xFF, 0x00], [0xFF, 0x30], [0xC6, 0x08, 0x2A], [0xEB, 0xFE], [0x26, 0x01, 0x07],
      [0x90], [0xC3], [0xF4], [0x40], [0x50], [0x74, 0x00], [0x81, 0x06, 0x34, 0x12, 0x78], [0x06], [0x0F],
      [0x3E], []].all (fun bs => decode bs == .noMatch) = true := by
  decide

/-- The bytes after an instruction are left. -/
theorem test_decode_rest : decode [0b00110111, 0x27, 0x00] = .matched .aaa [0x27, 0x00] := by decide

theorem test_encode_longest :
    encode (.movRmImm (.word (.mem (.disp16 .bp 0x0100)) 0x1234)) = [0xC7, 0x86, 0x00, 0x01, 0x34, 0x12] := by decide

/-- The table reads the first byte as the most significant: `match` F630 with w = 0 (DIV). -/
theorem test_decodeTableWord :
    decodeTableWord 16 0xF630 = some (.div (.byte (.mem (.noDisp .bxsi)))) ∧
      decodeTableWord 8 0x04 = some (.addAccImm (.byte 0)) ∧ decodeTableWord 24 0xE90500 = some (.jmpNear 5) ∧
      decodeTableWord 16 0xD50B = none := by
  decide

/-! ## Text and the facade (R121 to R128) -/

/-- Vectors K and S7: canonical text. -/
theorem test_toText :
    toText (.addRmReg .toReg (.word (.reg .bx) .ax)) = "ADD AX, BX".toList ∧
      toText (.addRmImm (.wordSext (.mem (.disp8 .bp 0xFE)) 0x01)) = "ADD WORD PTR [BP-02], +01".toList ∧
      toText (.movRmReg .toReg (.word (.mem (.disp16 .si 0x8000)) .cx)) = "MOV CX, [SI+8000]".toList ∧
      toText (.jmpFar 0xFFF0 0xF000) = "JMP F000:FFF0".toList ∧
      toText (.callFarRm (.mem (.noDisp .bx))) = "CALL FAR [BX]".toList ∧
      toText (.movRmReg .toRm (.byte (.mem (.disp8 .si 0x80)) .al)) = "MOV [SI-80], AL".toList := by
  decide

/-- Vectors T1 to T7, and the document's examples. -/
theorem test_assemble :
    assemble "add  ax ,bx".toList = .matched (.addRmReg .toRm (.word (.reg .ax) .bx)) [] ∧
      assemble "ADD AX, 5".toList = .matched (.addAccImm (.word 0x0005)) [] ∧
      assemble "ADD BX, 5".toList = .matched (.addRmImm (.word (.reg .bx) 0x0005)) [] ∧
      assemble "ADD BX, +5".toList = .matched (.addRmImm (.wordSext (.reg .bx) 0x05)) [] ∧
      assemble "MOV BYTE PTR [BX+4], 2A".toList = .matched (.movRmImm (.byte (.mem (.disp8 .bx 0x04)) 0x2A)) [] ∧
      assemble "MOV AX, [BX+0004]".toList = .matched (.movRmReg .toReg (.word (.mem (.disp16 .bx 4)) .ax)) [] ∧
      assemble "CALL FAR [BX]".toList = .matched (.callFarRm (.mem (.noDisp .bx))) [] := by
  decide

/-- Vectors T8 to T11. -/
theorem test_assemble_rejects :
    assemble "ADD [BX+BP], AX".toList = .malformedField ∧ assemble "ADD AX, BL".toList = .malformedField ∧
      assemble "MOV AX, [BP]".toList = .noMatch ∧ assemble "MOV [BX], 2A".toList = .noMatch := by
  decide

/-- Base combinations of one, two and three names outside R85, a register that does not exist, and operands of two
widths (R126). -/
theorem test_assemble_malformed :
    assemble "ADD [SI+DI], AL".toList = .malformedField ∧ assemble "ADD AX, [AX]".toList = .malformedField ∧
      assemble "ADD [BX+SI+DI], AX".toList = .malformedField ∧
      assemble "CALL FAR [AX+BX+CX-02]".toList = .malformedField ∧ assemble "MOV AX, ZZ".toList = .malformedField ∧
      assemble "ADD BYTE PTR [BX], AX".toList = .malformedField ∧
      assemble "TEST AL, WORD PTR [BX]".toList = .malformedField := by
  decide

/-- What is no operand, and a number of operands that the mnemonic does not take (log 14). -/
theorem test_assemble_no_match :
    assemble "ADD [BX+04+SI], AX".toList = .noMatch ∧ assemble "ADD [BX-SI], AX".toList = .noMatch ∧
      assemble "ADD BYTE PTR [BX], AL".toList = .noMatch ∧ assemble "AAA ZZ".toList = .noMatch ∧
      assemble "ADD AX, BX, ZZ".toList = .noMatch := by
  decide

/-- The byte views (R96, R10). -/
theorem test_byte_views :
    binaryText 0xD8 = "11011000".toList ∧ hexByte 0x2F = "2F".toList ∧ byteOfBinary "11011000".toList = some 0xD8 ∧
      byteOfHex "2F".toList = some 0x2F ∧ byteOfDecimal 216 = some 0xD8 ∧ byteOfDecimal 256 = none := by
  decide

theorem test_result_views :
    (result .aad).text = "AAD".toList ∧ (result .aad).size = 2 ∧
      (result .aad).binary = ["11010101".toList, "00001010".toList] ∧ (result .aad).decimal = [213, 10] ∧
      (result .aad).hex = ["D5".toList, "0A".toList] := by
  decide

/-- The names and binary texts of the fields of what the bytes decode to. -/
def fieldBits (bytes : List Byte) : List (FieldName × String) :=
  match decode bytes with
  | .matched i _ => (typedFields i).map fun f => (f.name, String.ofList f.binaryText)
  | .noMatch | .malformedField => []

/-- The fields of vectors K4, K5 and K23; 16-bit fields as matched, the low byte first. -/
theorem test_typed_fields :
    fieldBits [0x02, 0x47, 0x04] =
        [(.d, "1"), (.w, "0"), (.mod, "01"), (.reg, "000"), (.rm, "111"), (.disp, "00000100")] ∧
      fieldBits [0x81, 0x06, 0x34, 0x12, 0x78, 0x56] =
        [(.ext, "000"), (.s, "0"), (.w, "1"), (.mod, "00"), (.rm, "110"), (.ea, "0011010000010010"),
          (.val, "0111100001010110")] ∧
      fieldBits [0x9A, 0x78, 0x56, 0x34, 0x12] = [(.val, "0111100001010110"), (.val2, "0011010000010010")] := by
  decide

/-- What the matcher gives for the row of the table in the place `k`, counted from 0. -/
def rawBits (k : Nat) (bytes : List Byte) : Option (List (FieldName × String)) :=
  (opcodeTable[k]?.bind fun r => Row.rawFields r bytes).map fun m => m.map fun p => (p.1, String.ofList p.2)

/-- The opcode extension is a default field (vectors K9 and K20: CMP r/m, imm and IDIV). -/
theorem test_raw_fields :
    rawBits 23 [0x80, 0x3E, 0x00, 0x10, 0xFF] =
        some [(.ext, "111"), (.s, "0"), (.w, "0"), (.mod, "00"), (.rm, "110"), (.ea, "0000000000010000"),
          (.val, "11111111")] ∧
      rawBits 36 [0xF7, 0xFB] = some [(.ext, "111"), (.w, "1"), (.mod, "11"), (.rm, "011")] := by
  decide

/-- A stream shorter than the shape's templates (D35, vector X8), and the same made long enough. -/
theorem test_matcher_counts_trailing_bytes :
    rawBits 1 [0x05] = none ∧ rawBits 1 [0x05, 0x34] = none ∧
      rawBits 1 [0x05, 0x34, 0x12] = some [(.w, "1"), (.val, "0011010000010010")] ∧
      rawBits 2 [0x81, 0x06, 0x34, 0x12, 0x78] = none := by
  decide

/-! ## Addresses, memory and registers -/

/-- The state of vectors E1 to E14. -/
def addressing (segovr : Option SegReg := none) : State :=
  { regs := { BX := 0x1000, SI := 0x0020, DI := 0x0300, BP := 0x2000 },
    segs := { DS := 0x0100, SS := 0x0200, ES := 0x0300 }, inputs := [{ segovr := segovr }] }

/-- The physical address of the memory operand that a ModRM byte and the bytes after it give (in `MOV r/m, reg`). -/
def address (s : State) (modrm : List Byte) : List Nat :=
  match decode (0x88 :: modrm) with
  | .matched (.movRmReg _ (.byte rm _)) [] => s.cells8 (s.rmLoc rm)
  | _ => []

/-- Vectors E1 to E14, by `mod`, `rm` and the trailing bytes. -/
theorem test_effective_addresses :
    [[0b00000000], [0b00000001], [0b00000010], [0b00000011], [0b00000100], [0b00000101], [0b00000110, 0x34, 0x12],
        [0b00000111], [0b01000110, 0xFE], [0b01000000, 0x7F], [0b01000111, 0x80], [0b10000111, 0x00, 0xF0],
        [0b10000110, 0x00, 0x01]].map (address addressing) =
      [[0x02020], [0x02300], [0x04020], [0x04300], [0x01020], [0x01300], [0x02234], [0x02000], [0x03FFE], [0x0209F],
        [0x01F80], [0x01000], [0x04100]] ∧
      address (addressing (some .es)) [0b00000010] = [0x05020] := by
  decide

/-- The address corner cases after E14. -/
theorem test_address_wraps :
    (start {}).phys 0xFFFF 0x0010 = 0x00000 ∧ (start {}).wordCells 0x0100 0xFFFF = [0x10FFF, 0x01000] ∧
      (Loc.mem .ds none 0xFFFE).next = some (.mem .ds none 0x0000) := by
  decide

/-- A store of the byte that unlisted memory reads as leaves the canonical form. -/
theorem test_write_canonical :
    Memory.write [(5, 1), (7, 2)] 6 3 = [(5, 1), (6, 3), (7, 2)] ∧ Memory.write [(5, 1), (7, 2)] 7 0 = [(5, 1)] := by
  decide

/-- The halves of AX (R24). -/
theorem test_halves :
    ((start { AX := 0x1234 }).setReg8 .ah 0xAB).regs.AX = 0xAB34 ∧
      ((start { AX := 0x1234 }).setReg8 .al 0xAB).regs.AX = 0x12AB := by
  decide

/-! ## The flag engine: tables V-ADD and V-SUB of `95_test_vectors.md` -/

theorem test_flagsAdd_8 :
    [(0x00, 0x00, false, 0x00, false, true, false, false, true, false),
      (0xFF, 0x01, false, 0x00, true, true, false, false, true, true),
      (0x7F, 0x01, false, 0x80, false, false, true, true, false, true),
      (0x80, 0x80, false, 0x00, true, true, false, true, true, false),
      (0x0F, 0x01, false, 0x10, false, false, false, false, false, true),
      (0xFF, 0xFF, true, 0xFF, true, false, true, false, true, true),
      (0x7F, 0x00, true, 0x80, false, false, true, true, false, true)].all (fun (a, b, c, r, cf, zf, sf, of, pf, af) =>
        addResult (a : BitVec 8) b c == r && flagsAdd a b c {} ==
          { CF := cf, ZF := zf, SF := sf, OF := of, PF := pf, AF := af }) = true := by
  decide

theorem test_flagsAdd_16 :
    [(0x7FFF, 0x0001, false, 0x8000, false, false, true, true, true, true),
      (0x00FF, 0x0001, false, 0x0100, false, false, false, false, true, true),
      (0xFFFF, 0x0001, false, 0x0000, true, true, false, false, true, true),
      (0x8000, 0xFFFF, false, 0x7FFF, true, false, false, true, true, false)].all (fun (a, b, c, r, cf, zf, sf, of, pf, af) =>
        addResult (a : BitVec 16) b c == r && flagsAdd a b c {} ==
          { CF := cf, ZF := zf, SF := sf, OF := of, PF := pf, AF := af }) = true := by
  decide

theorem test_flagsSub_8 :
    [(0x00, 0x01, false, 0xFF, true, false, true, false, true, true),
      (0x80, 0x01, false, 0x7F, false, false, false, true, false, true),
      (0x7F, 0xFF, false, 0x80, true, false, true, true, false, false),
      (0x10, 0x01, false, 0x0F, false, false, false, false, true, true),
      (0x5A, 0x5A, false, 0x00, false, true, false, false, true, false),
      (0x0F, 0x10, false, 0xFF, true, false, true, false, true, false),
      (0x00, 0x00, true, 0xFF, true, false, true, false, true, true),
      (0x80, 0x7F, true, 0x00, false, true, false, true, true, true),
      (0x00, 0xFF, true, 0x00, true, true, false, false, true, true)].all (fun (a, b, c, r, cf, zf, sf, of, pf, af) =>
        subResult (a : BitVec 8) b c == r && flagsSub a b c {} ==
          { CF := cf, ZF := zf, SF := sf, OF := of, PF := pf, AF := af }) = true := by
  decide

theorem test_flagsSub_16 :
    [(0x8000, 0x0001, false, 0x7FFF, false, false, false, true, true, true),
      (0x0000, 0x0001, false, 0xFFFF, true, false, true, false, true, true)].all (fun (a, b, c, r, cf, zf, sf, of, pf, af) =>
        subResult (a : BitVec 16) b c == r && flagsSub a b c {} ==
          { CF := cf, ZF := zf, SF := sf, OF := of, PF := pf, AF := af }) = true := by
  decide

/-! ## One step of each instruction: the examples of the instruction rules -/

/-- R184. -/
theorem test_add :
    runs [0x01, 0xD8] (start { AX := 0x0001, BX := 0x0002 })
      (fun t => t.regs.AX == 0x0003 && t.flags == { PF := true } && t.ip == 2) = true := by
  decide

/-- R184: ADD AX, AX reads both operands first. -/
theorem test_add_same_register :
    runs [0x01, 0xC0] (start { AX := 0x8001 })
      (fun t => t.regs.AX == 0x0002 && t.flags.CF && t.flags.OF) = true := by
  decide

/-- R185. -/
theorem test_or :
    runs [0x0C, 0x0F] (start { AX := 0x0030 })
      (fun t => t.regs.AX == 0x003F && t.flags == { PF := true } && t.ip == 2) = true := by
  decide

/-- R186. -/
theorem test_adc :
    runs [0x13, 0x06, 0x34, 0x12] (start { AX := 0x0001 } { CF := true } [(0x3234, 0xfe), (0x3235, 0xff)])
      (fun t => t.regs.AX == 0 && t.flags == { CF := true, ZF := true, PF := true, AF := true } && t.ip == 4) = true := by
  decide

/-- R187. -/
theorem test_sbb :
    runs [0x83, 0xDB, 0x01] (start { BX := 0x0005 } { CF := true })
      (fun t => t.regs.BX == 0x0003 && t.flags == { PF := true } && t.ip == 3) = true := by
  decide

/-- R188. -/
theorem test_and :
    runs [0x21, 0x00] (start { BX := 0x0100, SI := 0x0002, AX := 0x00FF } { CF := true } [(0x2102, 0xf0), (0x2103, 0xf)])
      (fun t => Memory.read t.mem 0x2102 == 0xF0 && Memory.read t.mem 0x2103 == 0 && t.flags == { PF := true } &&
        t.ip == 2) = true := by
  decide

/-- R189. -/
theorem test_sub :
    runs [0x28, 0xC0] (start { AX := 0x775A })
      (fun t => t.regs.AX == 0x7700 && t.flags == { ZF := true, PF := true } && t.ip == 2) = true := by
  decide

/-- R190. -/
theorem test_xor :
    runs [0x31, 0xDB] (start { BX := 0x1234 })
      (fun t => t.regs.BX == 0 && t.flags == { ZF := true, PF := true } && t.ip == 2) = true := by
  decide

/-- R191. -/
theorem test_cmp :
    runs [0x80, 0x7E, 0xFE, 0x10] (start { BP := 0x0100 } {} [(0x30fe, 0xf)])
      (fun t => Memory.read t.mem 0x30fe == 0x0F && t.flags == { CF := true, SF := true, PF := true } &&
        t.ip == 4) = true := by
  decide

/-- R192. -/
theorem test_test :
    runs [0xA8, 0x80] (start { AX := 0x0081 })
      (fun t => t.regs.AX == 0x0081 && t.flags == { SF := true } && t.ip == 2) = true := by
  decide

/-- R200. -/
theorem test_mov_load :
    runs [0x8B, 0x07] (start { BX := 0x0200 } { CF := true } [(0x2200, 0xef), (0x2201, 0xbe)])
      (fun t => t.regs.AX == 0xBEEF && t.flags == { CF := true } && t.ip == 2) = true := by
  decide

/-- R201. -/
theorem test_mov_imm :
    runs [0xC6, 0x47, 0x04, 0x2A] (start { BX := 0x0100 })
      (fun t => Memory.read t.mem 0x2104 == 0x2A && Memory.read t.mem 0x2105 == 0 && t.ip == 4) = true := by
  decide

/-- R210, S2. -/
theorem test_aaa :
    runs [0x37] (start { AX := 0x006C })
      (fun t => t.regs.AX == 0x0102 && t.flags == { CF := true, AF := true } && t.ip == 1) = true := by
  decide

/-- R210: AH rises by exactly one. -/
theorem test_aaa_strict :
    runs [0x37] (start { AX := 0x00FA })
      (fun t => t.regs.AX == 0x0100) = true := by
  decide

/-- R211. -/
theorem test_aas :
    runs [0x3F] (start { AX := 0x02FF } { AF := true })
      (fun t => t.regs.AX == 0x0109 && t.flags == { CF := true, AF := true } && t.ip == 1) = true := by
  decide

/-- R212. -/
theorem test_daa :
    runs [0x27] (start { AX := 0x000F })
      (fun t => t.regs.AX == 0x0015 && t.flags == { AF := true } && t.ip == 1) = true := by
  decide

/-- R212: both corrections of 0x12. -/
theorem test_daa_high :
    runs [0x27] (start { AX := 0x0012 } { CF := true, AF := true })
      (fun t => t.regs.AX == 0x0078 && t.flags.CF) = true := by
  decide

/-- R213. -/
theorem test_das :
    runs [0x2F] (start { AX := 0x00FF } { CF := true, AF := true })
      (fun t => t.regs.AX == 0x0099 && t.flags == { CF := true, AF := true, SF := true, PF := true } &&
        t.ip == 1) = true := by
  decide

/-- R213: the borrow of the first step stays in CF. -/
theorem test_das_keeps_borrow :
    runs [0x2F] (start { AX := 0x0003 } { AF := true })
      (fun t => t.regs.AX == 0x00FD && t.flags == { CF := true, AF := true, SF := true }) = true := by
  decide

/-- R214. -/
theorem test_aam :
    runs [0xD4, 0x0A] (start { AX := 0x003F })
      (fun t => t.regs.AX == 0x0603 && t.flags == { PF := true } && t.ip == 2) = true := by
  decide

/-- R215, S3. -/
theorem test_aad :
    runs [0xD5, 0x0A] (start { AX := 0x0507 })
      (fun t => t.regs.AX == 0x0039 && t.flags == { PF := true } && t.ip == 2) = true := by
  decide

/-- R231. -/
theorem test_div_byte :
    runs [0xF6, 0xF3] (start { AX := 0x0064, BX := 0x0007 } { CF := true })
      (fun t => t.regs.AX == 0x020E && t.flags == { CF := true } && t.ip == 2) = true := by
  decide

/-- R231. -/
theorem test_div_word :
    runs [0xF7, 0x36, 0x00, 0x02] (start { DX := 0x0001, AX := 0x0000 } {} [(0x2200, 0x2)])
      (fun t => t.regs.AX == 0x8000 && t.regs.DX == 0 && t.ip == 4) = true := by
  decide

/-- R231: a quotient of 256, and a zero divisor. -/
theorem test_div_faults :
    faults [0xF6, 0xF3] (start { AX := 0x0100, BX := 0x0001 }) .divideError = true ∧
      faults [0xF6, 0xF3] (start { AX := 0x0100 }) .divideError = true := by
  decide

/-- R232. -/
theorem test_idiv_byte :
    runs [0xF6, 0xFB] (start { AX := 0xFFF9, BX := 0x0002 })
      (fun t => t.regs.AX == 0xFFFD && t.ip == 2) = true := by
  decide

/-- R232: the quotient −128 faults under the default `IDIV_MIN_8`, and is AL = 0x80 under the other. -/
theorem test_idiv_limit :
    faults [0xF6, 0xFB] (start { AX := 0xFF80, BX := 0x0001 }) .divideError = true ∧
      runs [0xF6, 0xFB] { start { AX := 0xFF80, BX := 0x0001 } with cfg := { idivLimit := .full } }
        (fun t => t.regs.AX == 0x0080) = true := by
  decide

/-- R243, S4. -/
theorem test_call_near :
    runs [0xE8, 0x05, 0x00] (start { SP := 0x0100 })
      (fun t => t.ip == 8 && t.regs.SP == 0x00FE && t.memRead16 0x0300 0x00FE == 3) = true := by
  decide

/-- R245. -/
theorem test_call_near_indirect :
    runs [0xFF, 0x17] (start { BX := 0x0300, SP := 0x0100 } {} [(0x2300, 0x34), (0x2301, 0x12)] 0x0020)
      (fun t => t.ip == 0x1234 && t.regs.SP == 0x00FE && t.memRead16 0x0300 0x00FE == 0x0022 &&
        t.segs.CS == 0x0100) = true := by
  decide

/-- R245: CALL SP jumps to the SP before the push. -/
theorem test_call_sp :
    runs [0xFF, 0xD4] (start { SP := 0x0100 })
      (fun t => t.ip == 0x0100 && t.regs.SP == 0x00FE) = true := by
  decide

/-- R247. -/
theorem test_call_far :
    runs [0x9A, 0x78, 0x56, 0x34, 0x12] (start { SP := 0x0200 } {} [] 0x0010)
      (fun t => t.ip == 0x5678 && t.segs.CS == 0x1234 && t.regs.SP == 0x01FC &&
        t.memRead16 0x0300 0x01FE == 0x0100 && t.memRead16 0x0300 0x01FC == 0x0015) = true := by
  decide

/-- R249. -/
theorem test_call_far_indirect :
    runs [0xFF, 0x1F] (start { BX := 0x0400, SP := 0x0100 } {} [(0x2400, 0x10), (0x2403, 0x20)])
      (fun t => t.ip == 0x0010 && t.segs.CS == 0x2000 && t.regs.SP == 0x00FC &&
        t.memRead16 0x0300 0x00FE == 0x0100 && t.memRead16 0x0300 0x00FC == 0x0002) = true := by
  decide

/-- R244. -/
theorem test_jmp_near :
    runs [0xE9, 0xFB, 0xFF] (start {} {} [] 0x0010)
      (fun t => t.ip == 0x000E) = true := by
  decide

/-- R246. -/
theorem test_jmp_near_indirect :
    runs [0xFF, 0xE0] (start { AX := 0x4000 })
      (fun t => t.ip == 0x4000) = true := by
  decide

/-- R248. -/
theorem test_jmp_far :
    runs [0xEA, 0xF0, 0xFF, 0x00, 0xF0] (start {})
      (fun t => t.ip == 0xFFF0 && t.segs.CS == 0xF000) = true := by
  decide

/-- R250. -/
theorem test_jmp_far_indirect :
    runs [0xFF, 0x2E, 0x00, 0x05] (start {} {} [(0x2500, 0xf0), (0x2501, 0xff), (0x2503, 0xF0)])
      (fun t => t.ip == 0xFFF0 && t.segs.CS == 0xF000) = true := by
  decide

/-- R249, R250, K29: a register operand faults. -/
theorem test_far_register_faults :
    faults [0xFF, 0xE8] (start {}) .unresolvableFarTarget = true ∧
      faults [0xFF, 0xD8] (start {}) .unresolvableFarTarget = true := by
  decide

/-! ## The step -/

/-- A table word placed at reset runs as the first instruction: `CALL 0005` at CS:IP = FFFF:0000, with SP wrapping
(R66). -/
theorem test_withFetchWord :
    (match step (State.reset.withFetchWord 24 0xE80500) with
      | .next t => t.ip == 8 && t.regs.SP == 0xFFFE && t.memRead16 0 0xFFFE == 3
      | .fault _ | .refused _ => false) = true := by
  decide

/-- A supplied stream is read from its offset, and its end is the end of the instruction's bytes (R67). -/
theorem test_supplied_stream :
    (match step { start {} with inputs := [{ stream := .supplied [0x90, 0xE9, 0x05, 0x00] 1 }] } with
      | .next t => t.ip == 8 && t.inputs == []
      | .fault _ | .refused _ => false) = true ∧
      (match step { start {} with inputs := [{ stream := .supplied [0x90, 0xE9, 0x05] 1 }] } with
        | .refused r => r == .noMatch
        | .next _ | .fault _ => false) = true := by
  decide

/-- The fetch offset wraps inside the code segment (R67). -/
theorem test_fetch_wraps :
    runs [0xE9, 0x05, 0x00] (start {} {} [] 0xFFFF) (fun t => t.ip == 0x0007) = true := by
  decide

/-- What memory at reset decodes to is the block's `ADD [BX+SI], AL` (K1), because an unlisted byte reads as zero
(log 3). -/
theorem test_reset_step :
    (match step State.reset with
      | .next t => t.ip == 2
      | .fault _ | .refused _ => false) = true := by
  decide

/-! # Witnesses: concrete values that meet the hypotheses of each statement -/

/-- A state at CS:IP of which the bytes stand. -/
def placed (bytes : List Byte) (s : State) : State := s.storeAtIP bytes 0

/-! ## Encoding -/

theorem witness_decodeEncode :
    Instr.wf (.movRmImm (.word (.mem (.disp16 .bp 0x0100)) 0x1234)) = true ∧ Instr.wf .daa = true := by decide

/-- One form of every row pair that `EncodedBy` is stated of, with the literal bits matched and not matched. -/
theorem witness_encodedBy :
    decode [0x01, 0xD8] = .matched (.addRmReg .toRm (.word (.reg .ax) .bx)) [] ∧
      matchesFixed [(0x00, 0xFC)] [0x01, 0xD8] = true ∧ matchesFixed [(0x08, 0xFC)] [0x01, 0xD8] = false := by
  decide

theorem witness_encodeDecode : decode [0x05, 0x34, 0x12, 0x99] = .matched (.addAccImm (.word 0x1234)) [0x99] := by
  decide

/-- The shortest and the longest lengths. -/
theorem witness_lengthFromFirstTwoBytes :
    decode [0x27] = .matched .daa [] ∧
      decode [0x81, 0x06, 0x34, 0x12, 0x78, 0x56] = .matched (.addRmImm (.word (.mem (.direct 0x1234)) 0x5678)) [] := by
  decide

theorem witness_rowsDisjoint : List.Perm opcodeTable.reverse opcodeTable := List.reverse_perm _

/-- A first byte, a second byte out of scope, a stream one byte too short, and one just long enough. -/
theorem witness_noMatchSet :
    decode [0xF4] = .noMatch ∧ decode [0xD4, 0x0B] = .noMatch ∧ decode [0x05, 0x34] = .noMatch ∧
      decode [0x05, 0x34, 0x12] ≠ .noMatch ∧ decode (placed [0xF4] (start {})).fetchBytes = .noMatch := by
  decide

/-- A stream as long as the leading templates of the first row, and one shorter. -/
theorem witness_templatesAgreeWithMasks :
    ∃ r ∈ opcodeTable, r.templates.length ≤ [0x01, 0xD8].length ∧ [(0x01 : Byte)].length < r.templates.length :=
  ⟨_, List.mem_cons_self, by decide, by decide⟩

theorem witness_byteViews :
    byteOfBinary "00000000".toList = some 0x00 ∧ byteOfBinary "11111111".toList = some 0xFF ∧
      byteOfHex "00".toList = some 0x00 ∧ byteOfHex "FF".toList = some 0xFF ∧ byteOfDecimal 0 = some 0x00 ∧
      byteOfDecimal 255 = some 0xFF ∧ (0 < 8 ∧ 7 < 8) := by
  decide

/-! ## Text and the facade -/

/-- An instruction that stands for itself, and one of each alias class. -/
theorem witness_textRoundTrip :
    Instr.wf (.addRmReg .toRm (.word (.reg .ax) .bx)) = true ∧
      registeredFirst (.addRmReg .toRm (.word (.reg .ax) .bx)) = .addRmReg .toRm (.word (.reg .ax) .bx) ∧
      Instr.wf (.addRmReg .toReg (.word (.reg .bx) .ax)) = true ∧
      registeredFirst (.addRmReg .toReg (.word (.reg .bx) .ax)) = .addRmReg .toRm (.word (.reg .ax) .bx) ∧
      Instr.wf (.addRmImm (.byte false (.reg .al) 5)) = true ∧
      registeredFirst (.addRmImm (.byte false (.reg .al) 5)) = .addAccImm (.byte 5) := by
  decide

theorem witness_resultViews : decode [0xD5, 0x0A, 0x37] = .matched .aad [0x37] := by decide

/-- With an injected extension and trailing bytes, and with neither. -/
theorem witness_typedFieldBits :
    decode [0x83, 0x46, 0xFE, 0x01] = .matched (.addRmImm (.wordSext (.mem (.disp8 .bp 0xFE)) 0x01)) [] ∧
      decode [0x37] = .matched .aaa [] := by
  decide

/-! ## Fetch -/

theorem witness_fetchSource :
    (start {}).input.stream = .memory ∧
      State.input { start {} with inputs := [{ stream := .supplied [0x90, 0x27] 1 }] } =
        { stream := .supplied [0x90, 0x27] 1 } := by
  decide

/-! ## The flag engine -/

/-- Both widths: `AddEngine`, `SubEngine`, `LogicEngine`. -/
theorem witness_width : (8 = 8 ∨ 8 = 16) ∧ ((16 : Nat) = 8 ∨ 16 = 16) := by decide

/-! ## Two-operand arithmetic and logic: every operand binding -/

theorem witness_aluByte (rr : Dir → RmReg → Instr) (ai : AccImm → Instr) (ri : RmImmS → Instr) (s : State) :
    AluByte rr ai ri s (rr .toRm (.byte (.reg .ah) .bh)) (.reg .ah) (s.reg8 .bh) ∧
      AluByte rr ai ri s (rr .toReg (.byte (.mem (.noDisp .bx)) .cl)) (.reg .cl)
        (s.get8 (s.rmLoc (.mem (.noDisp .bx)))) ∧
      AluByte rr ai ri s (ai (.byte 0xFF)) (.reg .al) 0xFF ∧
      AluByte rr ai ri s (ri (.byte true (.mem (.direct 0xFFFF)) 0x80)) (s.rmLoc (.mem (.direct 0xFFFF))) 0x80 :=
  ⟨.toRm (.reg .ah) .bh, .toReg _ .cl, .acc _, .imm true _ _⟩

theorem witness_aluWord (rr : Dir → RmReg → Instr) (ai : AccImm → Instr) (ri : RmImmS → Instr) (s : State) :
    AluWord rr ai ri s (rr .toRm (.word (.mem (.direct 0xFFFF)) .bx)) (s.rmLoc (.mem (.direct 0xFFFF)))
        (s.reg16 .bx) ∧
      AluWord rr ai ri s (rr .toReg (.word (.reg .sp) .ax)) (.reg .ax) (s.reg16 .sp) ∧
      AluWord rr ai ri s (ai (.word 0xFFFF)) (.reg .ax) 0xFFFF ∧
      AluWord rr ai ri s (ri (.word (.reg .bx) 5)) (.reg .bx) 5 ∧
      AluWord rr ai ri s (ri (.wordSext (.reg .bx) 0x80)) (.reg .bx) 0xFF80 :=
  ⟨.toRm _ .bx, .toReg (.reg .sp) .ax, .acc _, .imm (.reg .bx) _, .immSext (.reg .bx) 0x80⟩

/-! ## Division: the clauses at the boundary of the quotient's range -/

/-- The divisor and dividend of `DIV BL`, `DIV BX`, `IDIV BL` and `IDIV BX`. -/
def divisor8 (s : State) : Byte := s.get8 (s.rmLoc (.reg .bl))

def divisor16 (s : State) : Word := s.get16 (s.rmLoc (.reg .bx))

def dividend16 (s : State) : Nat := (s.reg16 .dx).toNat * 65536 + (s.reg16 .ax).toNat

/-- Byte DIV: a zero divisor, a quotient of 256, and one of 255. -/
theorem witness_div_byte :
    (divisor8 (start {})).toNat = 0 ∧
      ((start { AX := 0x0100, BX := 1 }).reg16 .ax).toNat / (divisor8 (start { AX := 0x0100, BX := 1 })).toNat > 255 ∧
      (divisor8 (start { AX := 0x00FF, BX := 1 })).toNat ≠ 0 ∧
      ((start { AX := 0x00FF, BX := 1 }).reg16 .ax).toNat / (divisor8 (start { AX := 0x00FF, BX := 1 })).toNat ≤ 255 := by
  decide

/-- Word DIV: a zero divisor, and quotients of 65536 and 65535. -/
theorem witness_div_word :
    (divisor16 (start {})).toNat = 0 ∧
      dividend16 (start { DX := 1, BX := 1 }) / (divisor16 (start { DX := 1, BX := 1 })).toNat > 65535 ∧
      (divisor16 (start { AX := 0xFFFF, BX := 1 })).toNat ≠ 0 ∧
      dividend16 (start { AX := 0xFFFF, BX := 1 }) / (divisor16 (start { AX := 0xFFFF, BX := 1 })).toNat ≤ 65535 := by
  decide

/-- The quotient of `IDIV BL`. -/
def quotient8 (s : State) : Int := (s.reg16 .ax).toInt.tdiv (divisor8 s).toInt

/-- The quotient of `IDIV BX`. -/
def quotient16 (s : State) : Int := (s.reg16 .dx ++ s.reg16 .ax).toInt.tdiv (divisor16 s).toInt

/-- Byte IDIV: a zero divisor, and quotients of 128, 127, −127, −128 and −129, for the two limits. -/
theorem witness_idiv_byte :
    (divisor8 (start {})).toInt = 0 ∧ (divisor8 (start { BX := 1 })).toInt ≠ 0 ∧
      quotient8 (start { AX := 0x0080, BX := 1 }) > 127 ∧ quotient8 (start { AX := 0x007F, BX := 1 }) = 127 ∧
      quotient8 (start { AX := 0xFF81, BX := 1 }) = -127 ∧ quotient8 (start { AX := 0xFF80, BX := 1 }) < -127 ∧
      quotient8 (start { AX := 0xFF80, BX := 1 }) = -128 ∧ quotient8 (start { AX := 0xFF7F, BX := 1 }) < -128 ∧
      (start {}).cfg.idivLimit = .symmetric ∧ IdivLimit.full ≠ .symmetric := by
  decide

/-- Word IDIV: a zero divisor, and quotients of 32768, 32767, −32767, −32768 and −32769. -/
theorem witness_idiv_word :
    (divisor16 (start {})).toInt = 0 ∧ (divisor16 (start { BX := 1 })).toInt ≠ 0 ∧
      quotient16 (start { AX := 0x8000, BX := 1 }) > 32767 ∧
      quotient16 (start { AX := 0x7FFF, BX := 1 }) = 32767 ∧
      quotient16 (start { DX := 0xFFFF, AX := 0x8001, BX := 1 }) = -32767 ∧
      quotient16 (start { DX := 0xFFFF, AX := 0x8000, BX := 1 }) = -32768 ∧
      quotient16 (start { DX := 0xFFFF, AX := 0x7FFF, BX := 1 }) < -32768 := by
  decide

/-! ## What the instructions are for -/

/-- The largest and the smallest pair of digits: `DecimalAddition`, `DecimalSubtraction`. -/
theorem witness_isBcd : (IsBcd ((start { AX := 0x0099 }).reg8 .al) ∧ IsBcd 0x99) ∧ IsBcd 0x00 := by
  unfold IsBcd
  decide

theorem witness_compareOrders (s : State) :
    AluByte .cmpRmReg .cmpAccImm .cmpRmImm s (.cmpAccImm (.byte 0x80)) (.reg .al) 0x80 ∧
      AluWord .cmpRmReg .cmpAccImm .cmpRmImm s (.cmpAccImm (.word 0x8000)) (.reg .ax) 0x8000 :=
  ⟨.acc _, .acc _⟩

/-! ## Whole-machine rules -/

/-- Other flags that agree on what ADC and AAA read. -/
theorem witness_flagTable :
    (readsCF (Instr.mnemonic (.adcAccImm (.byte 0))) → ({ ZF := true } : Flags).CF = (start {}).flags.CF) ∧
      (readsAF (Instr.mnemonic (.adcAccImm (.byte 0))) → ({ ZF := true } : Flags).AF = (start {}).flags.AF) ∧
      (readsAF (Instr.mnemonic .aaa) → ({ CF := true } : Flags).AF = (start {}).flags.AF) := by
  unfold readsCF readsAF
  decide

/-- A step that completes. -/
theorem witness_controlFlagsUntouched : ∃ t, step (placed [0x27] (start {} { TF := true })) = .next t := ⟨_, rfl⟩

/-- A near call, which is no far transfer. -/
theorem witness_segmentWrites :
    ∃ t i rest, step (placed [0xE8, 0x05, 0x00] (start {})) = .next t ∧
      decode (placed [0xE8, 0x05, 0x00] (start {})).fetchBytes = .matched i rest ∧ ¬isFar i :=
  ⟨_, _, _, rfl, rfl, id⟩

theorem witness_ipAdvances :
    ∃ t i rest, decode (placed [0x01, 0xD8] (start {})).fetchBytes = .matched i rest ∧ isTransfer i = false ∧
      step (placed [0x01, 0xD8] (start {})) = .next t :=
  ⟨_, _, _, rfl, rfl, rfl⟩

/-- Each cause, and an instruction that has neither. -/
theorem witness_onlyTwoFaults :
    exec (.div (.byte (.reg .bl))) (start {}) = .fault .divideError ∧
      exec (.callFarRm (.reg .ax)) (start {}) = .fault .unresolvableFarTarget ∧ ¬isDivision .aam ∧
      ¬isFarRegister .aam :=
  ⟨rfl, rfl, id, id⟩

theorem witness_stepRunsDecoded :
    decode (placed [0xF6, 0xF3] (start {})).fetchBytes = .matched (.div (.byte (.reg .bl))) [0, 0, 0, 0] := by decide

/-- Both ways of supplying the bytes, the first with the offset wrapping. -/
theorem witness_stepRunsStored :
    (Instr.wf (.jmpNear 5) = true ∧ (placed [0xE9, 0x05, 0x00] (start {} {} [] 0xFFFF)).input.stream = .memory ∧
      ∀ (k : Nat) (h : k < (encode (.jmpNear 5)).length),
        (placed [0xE9, 0x05, 0x00] (start {} {} [] 0xFFFF)).memRead8 0x0100 (0xFFFF + BitVec.ofNat 16 k) =
          (encode (.jmpNear 5))[k]) ∧
      [0x90, 0xE9, 0x05, 0x00, 0xF4].drop 1 = encode (.jmpNear 5) ++ [0xF4] := by
  decide

/-- A store into the next instruction: `MOV BYTE PTR [BX], 27` at CS:0000 with DS = CS and BX = 3. -/
theorem witness_storeSeenByFetch :
    ∃ s t, decode s.fetchBytes = .matched (.movRmImm (.byte (.mem (.noDisp .bx)) 0x27)) [0x00, 0x00, 0x00] ∧
      step s = .next t ∧ t.input.stream = .memory ∧
      storesOf (.movRmImm (.byte (.mem (.noDisp .bx)) 0x27)) s = [(t.phys (t.seg .cs) (t.ip + BitVec.ofNat 16 0), 0x27)] :=
  ⟨placed [0xC6, 0x07, 0x27] { start { BX := 3 } with segs := { CS := 0x0100, DS := 0x0100 } }, _, rfl, rfl, rfl,
    by decide⟩

/-- A push into the next instruction: a far CALL at CS:0010 to 0100:FFFE, with SS = CS and SP = 2, stores CS and then the
return offset 0015 at SS:0000 and SS:FFFE. -/
theorem witness_storeSeenByFetch_push :
    ∃ s t, decode s.fetchBytes = .matched (.callFar 0xFFFE 0x0100) [0x00] ∧ step s = .next t ∧
      t.input.stream = .memory ∧ t.phys (t.seg .cs) t.ip = 0x10FFE ∧
      storesOf (.callFar 0xFFFE 0x0100) s = [(0x10FFF, 0x00), (0x10FFE, 0x15), (0x01001, 0x01), (0x01000, 0x00)] :=
  ⟨placed [0x9A, 0xFE, 0xFF, 0x00, 0x01] { start { SP := 2 } (ip := 0x0010) with segs := { CS := 0x0100, SS := 0x0100 } },
    _, rfl, rfl, rfl, by decide, by decide⟩

/-- The shortest and the longest word. -/
theorem witness_placedWordIsFetched :
    (0 ≤ 48 ∧ 48 ≤ 48) ∧ decodeTableWord 48 0x810634127856 =
      some (.addRmImm (.word (.mem (.direct 0x1234)) 0x5678)) ∧
      decodeTableWord 0 0 = some (.addRmReg .toRm (.byte (.mem (.noDisp .bxsi)) .al)) := by
  decide

/-! ## The invariant -/

theorem witness_stepKeepsInvariant :
    (start { AX := 5, BX := 7 } {} [(0x1000, 0x89), (0x1001, 0x07)]).Inv ∧
      ∃ t, step (start { AX := 5, BX := 7 } {} [(0x1000, 0x89), (0x1001, 0x07)]) = .next t :=
  ⟨by decide, _, rfl⟩

end Sys2Proof.Tests
end

section
/-! The step of a decoded instruction. -/

namespace Sys2Proof.Machine

/-- Where the fetched bytes decode, a step is the finished execution of the decoded instruction on the same state
(`00_scope.md` R7). -/
theorem step_of_decode_matched {s : State} {i : Instr} {rest : List Byte}
    (h : decode s.fetchBytes = .matched i rest) : step s = finishStep (exec i s) := by
  rw [step, h]

/-- Settles O55: the step is the finished execution, and finishing drops one input from a next state only. -/
theorem stepRunsDecoded : Obligations.StepRunsDecoded := by
  intro s i rest hdecode
  rw [step_of_decode_matched hdecode]
  cases exec i s with
  | next t => rfl
  | fault r => rfl
  | refused r => rfl

end Sys2Proof.Machine
end

section
/-! The instructions sorted by the shared operation that runs them. Each statement about every instruction splits along
`InstrView`, where the 27 two-operand arithmetic and logic forms are one case. -/

namespace Sys2Proof.Machine

/-- The operands of a two-operand arithmetic or logic form (`42_alu.md` R180 to R182, R192). -/
inductive AluOperands where
  | rmReg (d : Dir) (o : RmReg)
  | accImm (o : AccImm)
  | rmImmS (o : RmImmS)
  | rmImm (o : RmImm)

/-- The instruction length that goes with the operands. -/
def AluOperands.len : AluOperands → Nat
  | .rmReg _ o => o.len
  | .accImm o => o.len
  | .rmImmS o => o.len
  | .rmImm o => o.len

/-- The handler of the operands' format. -/
def AluOperands.run (op : AluOp) : AluOperands → State → State
  | .rmReg d o => aluRmReg op d o
  | .accImm o => aluAccImm op o
  | .rmImmS o => aluRmImmS op o
  | .rmImm o => aluRmImm op o

/-- The mnemonic of an operation, as `10_state.md` R30 names it. -/
def AluOp.mnemonic : AluOp → String
  | .add => "ADD"
  | .or => "OR"
  | .adc => "ADC"
  | .sbb => "SBB"
  | .and => "AND"
  | .sub => "SUB"
  | .xor => "XOR"
  | .cmp => "CMP"
  | .test => "TEST"

/-- An instruction is an arithmetic or logic form, or one of the others, each on its own. -/
inductive InstrView : Instr → Prop where
  | alu (i : Instr) (op : AluOp) (x : AluOperands) (hname : i.mnemonic = op.mnemonic) (hlen : i.len = x.len)
      (hstays : isTransfer i = false) (hrun : ∀ s, exec i s = .next (x.run op s)) : InstrView i
  | movRmReg (d : Dir) (o : RmReg) : InstrView (.movRmReg d o)
  | movRmImm (o : RmImm) : InstrView (.movRmImm o)
  | daa : InstrView .daa
  | das : InstrView .das
  | aaa : InstrView .aaa
  | aas : InstrView .aas
  | aam : InstrView .aam
  | aad : InstrView .aad
  | div (o : RmX) : InstrView (.div o)
  | idiv (o : RmX) : InstrView (.idiv o)
  | callNear (val : Word) : InstrView (.callNear val)
  | callRm (rm : Rm Reg16) : InstrView (.callRm rm)
  | callFar (val val2 : Word) : InstrView (.callFar val val2)
  | callFarRm (rm : Rm Reg16) : InstrView (.callFarRm rm)
  | jmpNear (val : Word) : InstrView (.jmpNear val)
  | jmpRm (rm : Rm Reg16) : InstrView (.jmpRm rm)
  | jmpFar (val val2 : Word) : InstrView (.jmpFar val val2)
  | jmpFarRm (rm : Rm Reg16) : InstrView (.jmpFarRm rm)

/-- Every instruction is in the view: the one place where the dispatch's arithmetic and logic arms are gone through. -/
theorem instrView (i : Instr) : InstrView i := by
  cases i with
  | addRmReg d o => exact .alu _ .add (.rmReg d o) rfl rfl rfl fun _ => rfl
  | addAccImm o => exact .alu _ .add (.accImm o) rfl rfl rfl fun _ => rfl
  | addRmImm o => exact .alu _ .add (.rmImmS o) rfl rfl rfl fun _ => rfl
  | orRmReg d o => exact .alu _ .or (.rmReg d o) rfl rfl rfl fun _ => rfl
  | orAccImm o => exact .alu _ .or (.accImm o) rfl rfl rfl fun _ => rfl
  | orRmImm o => exact .alu _ .or (.rmImmS o) rfl rfl rfl fun _ => rfl
  | adcRmReg d o => exact .alu _ .adc (.rmReg d o) rfl rfl rfl fun _ => rfl
  | adcAccImm o => exact .alu _ .adc (.accImm o) rfl rfl rfl fun _ => rfl
  | adcRmImm o => exact .alu _ .adc (.rmImmS o) rfl rfl rfl fun _ => rfl
  | sbbRmReg d o => exact .alu _ .sbb (.rmReg d o) rfl rfl rfl fun _ => rfl
  | sbbAccImm o => exact .alu _ .sbb (.accImm o) rfl rfl rfl fun _ => rfl
  | sbbRmImm o => exact .alu _ .sbb (.rmImmS o) rfl rfl rfl fun _ => rfl
  | andRmReg d o => exact .alu _ .and (.rmReg d o) rfl rfl rfl fun _ => rfl
  | andAccImm o => exact .alu _ .and (.accImm o) rfl rfl rfl fun _ => rfl
  | andRmImm o => exact .alu _ .and (.rmImmS o) rfl rfl rfl fun _ => rfl
  | subRmReg d o => exact .alu _ .sub (.rmReg d o) rfl rfl rfl fun _ => rfl
  | subAccImm o => exact .alu _ .sub (.accImm o) rfl rfl rfl fun _ => rfl
  | subRmImm o => exact .alu _ .sub (.rmImmS o) rfl rfl rfl fun _ => rfl
  | xorRmReg d o => exact .alu _ .xor (.rmReg d o) rfl rfl rfl fun _ => rfl
  | xorAccImm o => exact .alu _ .xor (.accImm o) rfl rfl rfl fun _ => rfl
  | xorRmImm o => exact .alu _ .xor (.rmImmS o) rfl rfl rfl fun _ => rfl
  | cmpRmReg d o => exact .alu _ .cmp (.rmReg d o) rfl rfl rfl fun _ => rfl
  | cmpAccImm o => exact .alu _ .cmp (.accImm o) rfl rfl rfl fun _ => rfl
  | cmpRmImm o => exact .alu _ .cmp (.rmImmS o) rfl rfl rfl fun _ => rfl
  | testRmReg o => exact .alu _ .test (.rmReg .toRm o) rfl rfl rfl fun _ => rfl
  | testAccImm o => exact .alu _ .test (.accImm o) rfl rfl rfl fun _ => rfl
  | testRmImm o => exact .alu _ .test (.rmImm o) rfl rfl rfl fun _ => rfl
  | movRmReg d o => exact .movRmReg d o
  | movRmImm o => exact .movRmImm o
  | daa => exact .daa
  | das => exact .das
  | aaa => exact .aaa
  | aas => exact .aas
  | aam => exact .aam
  | aad => exact .aad
  | div o => exact .div o
  | idiv o => exact .idiv o
  | callNear val => exact .callNear val
  | callRm rm => exact .callRm rm
  | callFar val val2 => exact .callFar val val2
  | callFarRm rm => exact .callFarRm rm
  | jmpNear val => exact .jmpNear val
  | jmpRm rm => exact .jmpRm rm
  | jmpFar val val2 => exact .jmpFar val val2
  | jmpFarRm rm => exact .jmpFarRm rm

/-- On a state with whatever flags, the operands of a form bind one destination, byte or word, and one source value, and
the common handler of R183 does the rest. -/
theorem aluOperands_run (op : AluOp) (x : AluOperands) (s : State) :
    (∃ dst b, ∀ f, x.run op (s.setFlags f) = aluTo8 op dst b x.len (s.setFlags f)) ∨
      ∃ dst b, ∀ f, x.run op (s.setFlags f) = aluTo16 op dst b x.len (s.setFlags f) := by
  cases x with
  | rmReg d o =>
    cases d with
    | toRm =>
      cases o with
      | byte rm reg => exact .inl ⟨s.rmLoc rm, s.reg8 reg, fun _ => rfl⟩
      | word rm reg => exact .inr ⟨s.rmLoc rm, s.reg16 reg, fun _ => rfl⟩
    | toReg =>
      cases o with
      | byte rm reg => exact .inl ⟨.reg reg, s.get8 (s.rmLoc rm), fun _ => rfl⟩
      | word rm reg => exact .inr ⟨.reg reg, s.get16 (s.rmLoc rm), fun _ => rfl⟩
  | accImm o =>
    cases o with
    | byte v => exact .inl ⟨.reg .al, v, fun _ => rfl⟩
    | word v => exact .inr ⟨.reg .ax, v, fun _ => rfl⟩
  | rmImmS o =>
    cases o with
    | byte _ rm v => exact .inl ⟨s.rmLoc rm, v, fun _ => rfl⟩
    | word rm v => exact .inr ⟨s.rmLoc rm, v, fun _ => rfl⟩
    | wordSext rm v => exact .inr ⟨s.rmLoc rm, sext16 v, fun _ => rfl⟩
  | rmImm o =>
    cases o with
    | byte rm v => exact .inl ⟨s.rmLoc rm, v, fun _ => rfl⟩
    | word rm v => exact .inr ⟨s.rmLoc rm, v, fun _ => rfl⟩

/-- AAA is the common end of the ASCII adjusts, with arguments that see the flags through the nibble test only. -/
theorem execAaa_eq (s : State) :
    execAaa s = .next (asciiAdjust (needsNibbleAdjust s)
      (if needsNibbleAdjust s then s.reg8 .al + 6 else s.reg8 .al)
      (if needsNibbleAdjust s then s.reg8 .ah + 1 else s.reg8 .ah) s) := by
  unfold execAaa
  cases needsNibbleAdjust s <;> rfl

/-- AAS in the same form. -/
theorem execAas_eq (s : State) :
    execAas s = .next (asciiAdjust (needsNibbleAdjust s)
      (if needsNibbleAdjust s then s.reg8 .al - 6 else s.reg8 .al)
      (if needsNibbleAdjust s then s.reg8 .ah - 1 else s.reg8 .ah) s) := by
  unfold execAas
  cases needsNibbleAdjust s <;> rfl

end Sys2Proof.Machine
end

section
/-! What an instruction and a step do to IP and the segment registers. -/

namespace Sys2Proof.Machine

theorem segsKept_of_segs_eq {s t : State} (h : t.segs = s.segs) : SegsKept s t := by
  intro g
  cases g <;> simp only [State.seg, h]

theorem aluTo8_segs (op : AluOp) (dst : Loc Reg8) (b : Byte) (n : Nat) (s : State) :
    (aluTo8 op dst b n s).segs = s.segs := by
  unfold aluTo8
  split <;> simp

theorem aluTo16_segs (op : AluOp) (dst : Loc Reg16) (b : Word) (n : Nat) (s : State) :
    (aluTo16 op dst b n s).segs = s.segs := by
  unfold aluTo16
  split <;> simp

/-- An arithmetic or logic form moves IP past the instruction and writes no segment register. -/
theorem aluOperands_run_ip_segs (op : AluOp) (x : AluOperands) (s : State) :
    (x.run op s).ip = s.ip + BitVec.ofNat 16 x.len ∧ SegsKept s (x.run op s) := by
  rcases aluOperands_run op x s with ⟨dst, b, hrun⟩ | ⟨dst, b, hrun⟩
  · have hrun : x.run op s = aluTo8 op dst b x.len s := hrun s.flags
    rw [hrun]
    exact ⟨aluTo8_ip .., segsKept_of_segs_eq (aluTo8_segs ..)⟩
  · have hrun : x.run op s = aluTo16 op dst b x.len s := hrun s.flags
    rw [hrun]
    exact ⟨aluTo16_ip .., segsKept_of_segs_eq (aluTo16_segs ..)⟩

theorem execMovRmReg_ip_segs {d : Dir} {o : RmReg} {s t : State} (h : execMovRmReg d o s = .next t) :
    t.ip = s.ip + BitVec.ofNat 16 o.len ∧ SegsKept s t := by
  cases h
  cases d <;> cases o <;> exact ⟨by simp, segsKept_of_segs_eq (by simp)⟩

theorem execMovRmImm_ip_segs {o : RmImm} {s t : State} (h : execMovRmImm o s = .next t) :
    t.ip = s.ip + BitVec.ofNat 16 o.len ∧ SegsKept s t := by
  cases h
  cases o <;> exact ⟨by simp, segsKept_of_segs_eq (by simp)⟩

theorem asciiAdjust_ip_segs (adj : Bool) (al ah : Byte) (s : State) :
    (asciiAdjust adj al ah s).ip = s.ip + 1 ∧ SegsKept s (asciiAdjust adj al ah s) := by
  obtain ⟨-, -, -, hip, -, hsegs, -⟩ := asciiAdjust_spec adj al ah s
  exact ⟨hip, hsegs⟩

theorem decimalAdjust_ip_segs (al : Byte) (cf af : Bool) (s : State) :
    (decimalAdjust al cf af s).ip = s.ip + 1 ∧ SegsKept s (decimalAdjust al cf af s) := by
  obtain ⟨-, -, -, hip, -, hsegs, -⟩ := decimalAdjust_spec al cf af s
  exact ⟨hip, hsegs⟩

theorem radixAdjust_ip_segs (al ah : Byte) (s : State) :
    (radixAdjust al ah s).ip = s.ip + 2 ∧ SegsKept s (radixAdjust al ah s) := by
  obtain ⟨-, -, -, hip, -, hsegs, -⟩ := radixAdjust_spec al ah s
  exact ⟨hip, hsegs⟩

theorem finishDivide8_ip_segs {r : Option (Byte × Byte)} {n : Nat} {s t : State} (h : finishDivide8 r n s = .next t) :
    t.ip = s.ip + BitVec.ofNat 16 n ∧ SegsKept s t := by
  cases r with
  | none => cases h
  | some p => cases h; exact ⟨rfl, fun _ => rfl⟩

theorem finishDivide16_ip_segs {r : Option (Word × Word)} {n : Nat} {s t : State}
    (h : finishDivide16 r n s = .next t) : t.ip = s.ip + BitVec.ofNat 16 n ∧ SegsKept s t := by
  cases r with
  | none => cases h
  | some p => cases h; exact ⟨rfl, fun _ => rfl⟩

/-- An instruction that transfers no control and completes moves IP past itself (`10_state.md` R28) and writes no segment
register (R32). -/
theorem exec_ip_segs_of_not_transfer {i : Instr} {s t : State} (hstays : isTransfer i = false)
    (h : exec i s = .next t) : t.ip = s.ip + BitVec.ofNat 16 i.len ∧ SegsKept s t := by
  cases instrView i with
  | alu _ op x _ hlen _ hrun =>
    rw [hrun, Host.Outcome.next.injEq] at h
    rw [← h, hlen]
    exact aluOperands_run_ip_segs op x s
  | movRmReg d o => exact execMovRmReg_ip_segs h
  | movRmImm o => exact execMovRmImm_ip_segs h
  | daa | das => cases h; exact decimalAdjust_ip_segs ..
  | aaa => cases (execAaa_eq s).symm.trans h; exact asciiAdjust_ip_segs ..
  | aas => cases (execAas_eq s).symm.trans h; exact asciiAdjust_ip_segs ..
  | aam | aad => exact Host.Outcome.next.inj h ▸ radixAdjust_ip_segs ..
  | div o | idiv o =>
    cases o with
    | byte rm => exact finishDivide8_ip_segs h
    | word rm => exact finishDivide16_ip_segs h
  | callNear | callRm | callFar | callFarRm | jmpNear | jmpRm | jmpFar | jmpFarRm => cases hstays

/-- A far-indirect CALL that completes is the far CALL of the target that its operand names. -/
theorem execCallFarRm_next {rm : Rm Reg16} {s t : State} (h : execCallFarRm rm s = .next t) :
    ∃ off seg, s.farTarget (s.rmLoc rm) = some (off, seg) ∧ t = callFarTo off seg (2 + rm.dispBytes) s := by
  unfold execCallFarRm at h
  split at h
  · cases h
  · next off seg htarget => exact ⟨off, seg, htarget, by cases h; rfl⟩

/-- A far-indirect JMP that completes is the far JMP of the target that its operand names. -/
theorem execJmpFarRm_next {rm : Rm Reg16} {s t : State} (h : execJmpFarRm rm s = .next t) :
    ∃ off seg, s.farTarget (s.rmLoc rm) = some (off, seg) ∧ t = jmpFarTo off seg s := by
  unfold execJmpFarRm at h
  split at h
  · cases h
  · next off seg htarget => exact ⟨off, seg, htarget, by cases h; rfl⟩

theorem callFarTo_seg_of_ne_cs (off seg : Word) (n : Nat) (s : State) (g : SegReg) (hg : g ≠ .cs) :
    (callFarTo off seg n s).seg g = s.seg g := by
  simp [callFarTo, hg]

theorem jmpFarTo_seg_of_ne_cs (off seg : Word) (s : State) (g : SegReg) (hg : g ≠ .cs) :
    (jmpFarTo off seg s).seg g = s.seg g := by
  simp [jmpFarTo, hg]

/-- A completed instruction keeps every segment register, or it is a far transfer and keeps all but CS (R32). -/
theorem exec_segs {i : Instr} {s t : State} (h : exec i s = .next t) :
    SegsKept s t ∨ isFar i ∧ ∀ g, g ≠ .cs → t.seg g = s.seg g := by
  cases instrView i with
  | alu _ _ _ _ _ hstays _ => exact .inl (exec_ip_segs_of_not_transfer hstays h).2
  | movRmReg | movRmImm | daa | das | aaa | aas | aam | aad | div | idiv =>
    exact .inl (exec_ip_segs_of_not_transfer rfl h).2
  | callNear | callRm | jmpNear | jmpRm => cases h; exact .inl fun _ => rfl
  | callFar off seg => cases h; exact .inr ⟨trivial, callFarTo_seg_of_ne_cs off seg 5 s⟩
  | jmpFar off seg => cases h; exact .inr ⟨trivial, jmpFarTo_seg_of_ne_cs off seg s⟩
  | callFarRm rm =>
    obtain ⟨off, seg, -, rfl⟩ := execCallFarRm_next h
    exact .inr ⟨trivial, callFarTo_seg_of_ne_cs off seg _ s⟩
  | jmpFarRm rm =>
    obtain ⟨off, seg, -, rfl⟩ := execJmpFarRm_next h
    exact .inr ⟨trivial, jmpFarTo_seg_of_ne_cs off seg s⟩

/-! ## Steps -/

/-- Everything behind a completed step: bytes that decode, an execution that completes, and one input used up. -/
theorem step_next {s t : State} (h : step s = .next t) :
    ∃ i rest u, decode s.fetchBytes = .matched i rest ∧ exec i s = .next u ∧ t = u.dropInput := by
  cases hdecode : decode s.fetchBytes with
  | matched i rest =>
    rw [step_of_decode_matched hdecode] at h
    obtain ⟨u, hexec, ht⟩ := (finishStep_next _ t).mp h
    exact ⟨i, rest, u, rfl, hexec, ht⟩
  | noMatch => rw [step, hdecode] at h; cases h
  | malformedField => rw [step, hdecode] at h; cases h

/-- Settles O52: only the far transfers write a segment register, and they write CS alone. -/
theorem segmentWrites : Obligations.SegmentWrites := by
  intro s t h
  obtain ⟨i, rest, u, hdecode, hexec, rfl⟩ := step_next h
  simp only [dropInput_seg]
  rcases exec_segs hexec with hkept | ⟨hfar, hkept⟩
  · exact ⟨hkept .ds, hkept .ss, hkept .es, fun _ _ _ _ => hkept .cs⟩
  · refine ⟨hkept .ds (by decide), hkept .ss (by decide), hkept .es (by decide), fun j _ hj hnear => ?_⟩
    cases hdecode.symm.trans hj
    exact absurd hfar hnear

end Sys2Proof.Machine
end

section
/-! The length of what decodes (`30_encoding.md` R108), and where IP goes. -/

namespace Sys2Proof

/-- The instruction that a shape makes of operands has the length that the shape's format gives those operands. -/
def Shape.LenAgrees : Shape → Prop
  | .rmr mk => ∀ d o, (mk d o).len = o.len
  | .rmr0 mk => ∀ o, (mk o).len = o.len
  | .rmi mk => ∀ o, (mk o).len = o.len
  | .rmi0 mk => ∀ o, (mk o).len = o.len
  | .acci mk => ∀ o, (mk o).len = o.len
  | .rmxw mk => ∀ o, (mk o).len = o.len
  | .rmx mk => ∀ rm, (mk rm).len = 2 + rm.dispBytes
  | .none i => i.len = 1
  | .fix2 i => i.len = 2
  | .rel16 mk => ∀ v, (mk v).len = 3
  | .fard mk => ∀ v v2, (mk v v2).len = 5

theorem opcodeTable_lenAgrees : ∀ r ∈ opcodeTable, r.shape.LenAgrees := by
  simp [opcodeTable, Shape.LenAgrees, Instr.len]

theorem takeWord_length {bs rest : List Byte} {v : Word} (h : takeWord bs = some (v, rest)) :
    bs.length = 2 + rest.length := by
  simpa using congrArg List.length (takeWord_some h)

/-- A shape uses as many bytes as the instruction that it makes is long. -/
theorem Shape.parse_length {sh : Shape} (hlen : sh.LenAgrees) {bs rest : List Byte} {i : Instr}
    (h : sh.parse bs = some (i, rest)) : bs.length = i.len + rest.length := by
  unfold Shape.parse at h
  split at h <;>
    simp only [Option.map_eq_some_iff, Option.bind_eq_some_iff, Prod.exists, Prod.mk.injEq, Option.some.injEq,
      reduceCtorEq] at h
  case h_1 mk b m bs =>
    obtain ⟨o, tl, hp, rfl, rfl⟩ := h
    simpa [hlen _ o] using congrArg List.length (encodeRmr_parseRmReg b m bs tl o hp).2
  case h_2 mk b m bs =>
    obtain ⟨o, tl, hp, rfl, rfl⟩ := h
    simpa [hlen o] using congrArg List.length (encodeRmr0_parseRmReg b m bs tl o hp).2
  case h_3 mk b m bs =>
    obtain ⟨o, tl, hp, rfl, rfl⟩ := h
    simpa [hlen o] using congrArg List.length (encodeRmi_parseRmImmS b m bs tl o hp).2
  case h_4 mk b m bs =>
    obtain ⟨o, tl, hp, rfl, rfl⟩ := h
    simpa [hlen o] using congrArg List.length (encodeRmi0_parseRmImm b m bs tl o hp).2
  case h_5 mk b bs =>
    obtain ⟨o, tl, hp, rfl, rfl⟩ := h
    simpa [hlen o] using congrArg List.length (encodeAcci_parseAccImm b bs tl o hp)
  case h_6 mk b m bs =>
    obtain ⟨o, tl, hp, rfl, rfl⟩ := h
    simpa [hlen o] using congrArg List.length (encodeRmxw_parseRmX b m bs tl o hp).2
  case h_7 mk _ m bs =>
    obtain ⟨rm, tl, hp, rfl, rfl⟩ := h
    have := congrArg List.length (encodeRm_parseRm Reg16.code _ Reg16.code_ofCode m bs tl rm hp).2
    simp only [List.length_cons, List.length_append, encodeRm_length] at this ⊢
    rw [hlen rm]
    omega
  case h_8 i _ bs =>
    obtain ⟨rfl, rfl⟩ := h
    have hlen : i.len = 1 := hlen
    rw [hlen, List.length_cons]
    omega
  case h_9 i _ _ bs =>
    obtain ⟨rfl, rfl⟩ := h
    have hlen : i.len = 2 := hlen
    rw [hlen, List.length_cons, List.length_cons]
    omega
  case h_10 mk _ bs =>
    obtain ⟨v, tl, hv, rfl, rfl⟩ := h
    have hbytes := takeWord_length hv
    rw [hlen v, List.length_cons]
    omega
  case h_11 mk _ bs =>
    obtain ⟨v, tl, hv, v2, tl2, hv2, rfl, rfl⟩ := h
    have hbytes := takeWord_length hv
    have hbytes2 := takeWord_length hv2
    rw [hlen v v2, List.length_cons]
    omega

/-- A match is the answer of some row of the table. -/
theorem decode_matched_row {bs rest : List Byte} {i : Instr} (h : decode bs = .matched i rest) :
    ∃ r ∈ opcodeTable, r.decode bs = some (i, rest) := by
  unfold decode at h
  split at h
  · next hrow =>
    cases h
    exact List.exists_of_findSome?_eq_some hrow
  · cases h

/-- Decoding consumes exactly the bytes of the instruction. -/
theorem decode_length {bs rest : List Byte} {i : Instr} (h : decode bs = .matched i rest) :
    bs.length = i.len + rest.length := by
  obtain ⟨r, hr, hrow⟩ := decode_matched_row h
  rw [Row.decode, Option.ite_none_right_eq_some] at hrow
  exact Shape.parse_length (opcodeTable_lenAgrees r hr) hrow.2

end Sys2Proof

namespace Sys2Proof.Machine

/-- Settles O53: IP moves by the instruction's length, and that is the number of bytes that decoding consumed. -/
theorem ipAdvances : Obligations.IpAdvances := by
  intro s t i rest hdecode hstays h
  rw [step_of_decode_matched hdecode] at h
  obtain ⟨u, hexec, rfl⟩ := (finishStep_next _ t).mp h
  rw [decode_length hdecode, Nat.add_sub_cancel]
  exact (exec_ip_segs_of_not_transfer hstays hexec).1

end Sys2Proof.Machine
end

section
/-! The halves of the 16-bit registers. -/

namespace Sys2Proof

/-- A word is its high byte above its low byte (`10_state.md` R24). -/
theorem highByte_append_lowByte (v : Word) : highByte v ++ lowByte v = v := by
  apply BitVec.eq_of_toNat_eq
  have hlow : (lowByte v).toNat < 2 ^ 8 := (lowByte v).isLt
  rw [BitVec.toNat_append, ← Nat.shiftLeft_add_eq_or_of_lt hlow, Nat.shiftLeft_eq]
  simp only [lowByte, highByte, BitVec.toNat_ofNat]
  omega

end Sys2Proof

namespace Sys2Proof.Machine

/-- An 8-bit write keeps every 16-bit register but the parent (R24). -/
theorem setReg8_regsKept (s : State) (r : Reg8) (v : Byte) : RegsKept s (s.setReg8 r v) [r.parent] := by
  intro q hq
  rw [setReg8_reg16, if_neg (by simpa using hq)]

/-- Settles O15: the numberings by evaluation, the rest by what register writes do. -/
theorem registerHalves : Obligations.RegisterHalves := by
  refine ⟨by decide, by decide, fun s => ?_, fun s r q v => setReg8_reg8 s r q v, setReg8_regsKept,
    fun s r q v => setReg16_reg16 s r q v⟩
  have halves (r : Reg16) : s.reg16 r = highByte (s.reg16 r) ++ lowByte (s.reg16 r) :=
    (highByte_append_lowByte (s.reg16 r)).symm
  exact ⟨halves .ax, halves .cx, halves .dx, halves .bx⟩

end Sys2Proof.Machine
end

section
/-! Which flags an instruction sees and which it writes: other flags in place of those of the state, and what the
instruction then does. -/

namespace Sys2Proof.Machine

/-! ## Replaced flags and the named operations -/

@[simp] theorem setFlags_setFlags (s : State) (f g : Flags) : (s.setFlags f).setFlags g = s.setFlags g := rfl

@[simp] theorem setFlags_rmLoc {R : Type} (s : State) (f : Flags) (rm : Rm R) :
    (s.setFlags f).rmLoc rm = s.rmLoc rm := by
  cases rm <;> rfl

theorem setFlags_advance (s : State) (f : Flags) (n : Nat) : (s.setFlags f).advance n = (s.advance n).setFlags f := rfl

theorem setFlags_set8 (s : State) (f : Flags) (l : Loc Reg8) (v : Byte) :
    (s.setFlags f).set8 l v = (s.set8 l v).setFlags f := by
  cases l <;> rfl

theorem setFlags_set16 (s : State) (f : Flags) (l : Loc Reg16) (v : Word) :
    (s.setFlags f).set16 l v = (s.set16 l v).setFlags f := by
  cases l <;> rfl

@[simp] theorem setFlags_farTarget (s : State) (f : Flags) (l : Loc Reg16) :
    (s.setFlags f).farTarget l = s.farTarget l := by
  cases l <;> rfl

/-- The nibble test sees AF only. -/
theorem setFlags_needsNibbleAdjust {s : State} {g : Flags} (haf : g.AF = s.flags.AF) :
    needsNibbleAdjust (s.setFlags g) = needsNibbleAdjust s := by
  simp [needsNibbleAdjust, haf]

/-! ## Passing flags through -/

@[simp] theorem mergeFlags_none (f g : Flags) : mergeFlags {} f g = g := rfl

@[simp] theorem mapNext_next (f : State → State) (t : State) : mapNext f (.next t) = .next (f t) := rfl

/-- The flags `g` in place of those of `s` change nothing of what `run` does, but that the flags outside `written` pass
through from `g`. -/
def PassesFlags (written : Flags) (run : State → Host.Outcome State Fault Refusal) (s : State) (g : Flags) : Prop :=
  run (s.setFlags g) = mapNext (fun t => t.setFlags (mergeFlags written t.flags g)) (run s)

/-! ## Arithmetic and logic -/

/-- The result sees the flags through CF, and only in ADC and SBB. -/
theorem aluResult_congr {W : Nat} (op : AluOp) (a b : BitVec W) {f g : Flags}
    (hcf : readsCF op.mnemonic → g.CF = f.CF) : op.result a b g = op.result a b f := by
  cases op with
  | adc | sbb => rw [AluOp.result, AluOp.result, hcf (by simp [readsCF, AluOp.mnemonic])]
  | add | or | and | sub | xor | cmp | test => rfl

/-- All six arithmetic flags are written, from the operands and, in ADC and SBB, from CF. -/
theorem aluFlags_eq_mergeFlags {W : Nat} (op : AluOp) (a b : BitVec W) {f g : Flags}
    (hcf : readsCF op.mnemonic → g.CF = f.CF) :
    op.flags a b g = mergeFlags (flagsWritten op.mnemonic) (op.flags a b f) g := by
  cases op with
  | adc | sbb =>
    rw [AluOp.flags, AluOp.flags, hcf (by simp [readsCF, AluOp.mnemonic])]
    rfl
  | add | or | and | sub | xor | cmp | test => rfl

theorem aluTo8_setFlags (op : AluOp) (dst : Loc Reg8) (b : Byte) (n : Nat) {s : State} {g : Flags}
    (hcf : readsCF op.mnemonic → g.CF = s.flags.CF) :
    aluTo8 op dst b n (s.setFlags g) =
      (aluTo8 op dst b n s).setFlags (mergeFlags (flagsWritten op.mnemonic) (aluTo8 op dst b n s).flags g) := by
  rw [aluTo8_flags, ← aluFlags_eq_mergeFlags op _ b hcf, aluTo8, aluTo8]
  simp only [setFlags_get8, setFlags_flags, setFlags_setFlags, aluResult_congr op _ b hcf]
  split
  · simp only [setFlags_set8, setFlags_advance, setFlags_setFlags]
  · rfl

theorem aluTo16_setFlags (op : AluOp) (dst : Loc Reg16) (b : Word) (n : Nat) {s : State} {g : Flags}
    (hcf : readsCF op.mnemonic → g.CF = s.flags.CF) :
    aluTo16 op dst b n (s.setFlags g) =
      (aluTo16 op dst b n s).setFlags (mergeFlags (flagsWritten op.mnemonic) (aluTo16 op dst b n s).flags g) := by
  rw [aluTo16_flags, ← aluFlags_eq_mergeFlags op _ b hcf, aluTo16, aluTo16]
  simp only [setFlags_get16, setFlags_flags, setFlags_setFlags, aluResult_congr op _ b hcf]
  split
  · simp only [setFlags_set16, setFlags_advance, setFlags_setFlags]
  · rfl

theorem aluOperands_run_setFlags (op : AluOp) (x : AluOperands) {s : State} {g : Flags}
    (hcf : readsCF op.mnemonic → g.CF = s.flags.CF) :
    x.run op (s.setFlags g) =
      (x.run op s).setFlags (mergeFlags (flagsWritten op.mnemonic) (x.run op s).flags g) := by
  rcases aluOperands_run op x s with ⟨dst, b, hrun⟩ | ⟨dst, b, hrun⟩
  · have hself : x.run op s = aluTo8 op dst b x.len s := hrun s.flags
    rw [hrun, hself, aluTo8_setFlags op dst b x.len hcf]
  · have hself : x.run op s = aluTo16 op dst b x.len s := hrun s.flags
    rw [hrun, hself, aluTo16_setFlags op dst b x.len hcf]

/-! ## Decimal and ASCII adjust -/

theorem asciiAdjust_setFlags (adj : Bool) (al ah : Byte) (s : State) (g : Flags) :
    asciiAdjust adj al ah (s.setFlags g) =
      (asciiAdjust adj al ah s).setFlags
        (mergeFlags { CF := true, AF := true } (asciiAdjust adj al ah s).flags g) := rfl

theorem decimalAdjust_setFlags (al : Byte) (cf af : Bool) (s : State) (g : Flags) :
    decimalAdjust al cf af (s.setFlags g) =
      (decimalAdjust al cf af s).setFlags
        (mergeFlags { CF := true, ZF := true, SF := true, PF := true, AF := true } (decimalAdjust al cf af s).flags g) :=
  rfl

theorem radixAdjust_setFlags (al ah : Byte) (s : State) (g : Flags) :
    radixAdjust al ah (s.setFlags g) =
      (radixAdjust al ah s).setFlags
        (mergeFlags { ZF := true, SF := true, PF := true } (radixAdjust al ah s).flags g) := rfl

theorem execAaa_passesFlags {s : State} {g : Flags} (haf : g.AF = s.flags.AF) :
    PassesFlags { CF := true, AF := true } execAaa s g := by
  simp only [PassesFlags, execAaa_eq, setFlags_needsNibbleAdjust haf, setFlags_reg8, asciiAdjust_setFlags, mapNext_next]

theorem execAas_passesFlags {s : State} {g : Flags} (haf : g.AF = s.flags.AF) :
    PassesFlags { CF := true, AF := true } execAas s g := by
  simp only [PassesFlags, execAas_eq, setFlags_needsNibbleAdjust haf, setFlags_reg8, asciiAdjust_setFlags, mapNext_next]

theorem execDaa_passesFlags {s : State} {g : Flags} (hcf : g.CF = s.flags.CF) (haf : g.AF = s.flags.AF) :
    PassesFlags { CF := true, ZF := true, SF := true, PF := true, AF := true } execDaa s g := by
  rw [PassesFlags, execDaa, execDaa, mapNext_next, ← decimalAdjust_setFlags]
  rw [setFlags_needsNibbleAdjust haf, setFlags_reg8, setFlags_flags, hcf]

theorem execDas_passesFlags {s : State} {g : Flags} (hcf : g.CF = s.flags.CF) (haf : g.AF = s.flags.AF) :
    PassesFlags { CF := true, ZF := true, SF := true, PF := true, AF := true } execDas s g := by
  rw [PassesFlags, execDas, execDas, mapNext_next, ← decimalAdjust_setFlags]
  rw [setFlags_needsNibbleAdjust haf, setFlags_reg8, setFlags_flags, hcf]

theorem execAam_passesFlags (s : State) (g : Flags) :
    PassesFlags { ZF := true, SF := true, PF := true } execAam s g := by
  simp only [PassesFlags, execAam, setFlags_reg8, radixAdjust_setFlags, mapNext_next]

theorem execAad_passesFlags (s : State) (g : Flags) :
    PassesFlags { ZF := true, SF := true, PF := true } execAad s g := by
  simp only [PassesFlags, execAad, setFlags_reg8, radixAdjust_setFlags, mapNext_next]

/-! ## Instructions that see and write no flag -/

theorem execMovRmReg_passesFlags (d : Dir) (o : RmReg) (s : State) (g : Flags) :
    PassesFlags {} (execMovRmReg d o) s g := by
  cases d <;> cases o <;>
    simp only [PassesFlags, execMovRmReg, setFlags_rmLoc, setFlags_reg8, setFlags_reg16, setFlags_get8, setFlags_get16,
      setFlags_set8, setFlags_set16, setFlags_advance, mapNext_next, mergeFlags_none]

theorem execMovRmImm_passesFlags (o : RmImm) (s : State) (g : Flags) : PassesFlags {} (execMovRmImm o) s g := by
  cases o <;>
    simp only [PassesFlags, execMovRmImm, setFlags_rmLoc, setFlags_set8, setFlags_set16, setFlags_advance, mapNext_next,
      mergeFlags_none]

theorem finishDivide8_passesFlags (r : Option (Byte × Byte)) (n : Nat) (s : State) (g : Flags) :
    PassesFlags {} (finishDivide8 r n) s g := by
  cases r <;> rfl

theorem finishDivide16_passesFlags (r : Option (Word × Word)) (n : Nat) (s : State) (g : Flags) :
    PassesFlags {} (finishDivide16 r n) s g := by
  cases r <;> rfl

theorem setFlags_dxax (s : State) (f : Flags) : (s.setFlags f).dxax = s.dxax := rfl

theorem execDiv_passesFlags (o : RmX) (s : State) (g : Flags) : PassesFlags {} (execDiv o) s g := by
  cases o with
  | byte rm =>
    simpa only [PassesFlags, execDiv, setFlags_rmLoc, setFlags_get8, setFlags_reg16] using
      finishDivide8_passesFlags (unsignedDivide 8 (s.reg16 .ax).toNat (s.get8 (s.rmLoc rm)).toNat) _ s g
  | word rm =>
    simpa only [PassesFlags, execDiv, setFlags_rmLoc, setFlags_get16, setFlags_dxax] using
      finishDivide16_passesFlags (unsignedDivide 16 s.dxax.toNat (s.get16 (s.rmLoc rm)).toNat) _ s g

theorem execIdiv_passesFlags (o : RmX) (s : State) (g : Flags) : PassesFlags {} (execIdiv o) s g := by
  cases o with
  | byte rm =>
    simp only [PassesFlags, execIdiv, setFlags_rmLoc, setFlags_get8, setFlags_reg16, setFlags_cfg]
    exact finishDivide8_passesFlags _ _ s g
  | word rm =>
    simp only [PassesFlags, execIdiv, setFlags_rmLoc, setFlags_get16, setFlags_dxax, setFlags_cfg]
    exact finishDivide16_passesFlags _ _ s g

theorem execCallFarRm_passesFlags (rm : Rm Reg16) (s : State) (g : Flags) :
    PassesFlags {} (execCallFarRm rm) s g := by
  simp only [PassesFlags, execCallFarRm, setFlags_rmLoc, setFlags_farTarget]
  cases s.farTarget (s.rmLoc rm) <;> rfl

theorem execJmpFarRm_passesFlags (rm : Rm Reg16) (s : State) (g : Flags) :
    PassesFlags {} (execJmpFarRm rm) s g := by
  simp only [PassesFlags, execJmpFarRm, setFlags_rmLoc, setFlags_farTarget]
  cases s.farTarget (s.rmLoc rm) <;> rfl

/-! ## The table of `10_state.md` R30 -/

/-- Settles O50, instruction by instruction. The arithmetic and logic forms are one case; the near and the direct transfers
compute with no flag at all, so their states with other flags are the same by definition. -/
theorem flagTable : Obligations.FlagTable := by
  intro i s g hcf haf
  cases instrView i with
  | alu i op x hname _ _ hrun =>
    rw [hname] at hcf ⊢
    rw [hrun, hrun, aluOperands_run_setFlags op x hcf, mapNext_next]
  | movRmReg d o => exact execMovRmReg_passesFlags d o s g
  | movRmImm o => exact execMovRmImm_passesFlags o s g
  | daa => exact execDaa_passesFlags (hcf (by simp [readsCF, Instr.mnemonic])) (haf (by simp [readsAF, Instr.mnemonic]))
  | das => exact execDas_passesFlags (hcf (by simp [readsCF, Instr.mnemonic])) (haf (by simp [readsAF, Instr.mnemonic]))
  | aaa => exact execAaa_passesFlags (haf (by simp [readsAF, Instr.mnemonic]))
  | aas => exact execAas_passesFlags (haf (by simp [readsAF, Instr.mnemonic]))
  | aam => exact execAam_passesFlags s g
  | aad => exact execAad_passesFlags s g
  | div o => exact execDiv_passesFlags o s g
  | idiv o => exact execIdiv_passesFlags o s g
  | callFarRm rm => exact execCallFarRm_passesFlags rm s g
  | jmpFarRm rm => exact execJmpFarRm_passesFlags rm s g
  | callNear | callRm | callFar | jmpNear | jmpRm | jmpFar => rfl

/-! ## IF, DF and TF (R31) -/

theorem flagsWritten_control (m : String) :
    (flagsWritten m).IF = false ∧ (flagsWritten m).DF = false ∧ (flagsWritten m).TF = false := by
  unfold flagsWritten
  split
  · exact ⟨rfl, rfl, rfl⟩
  split
  · exact ⟨rfl, rfl, rfl⟩
  split
  · exact ⟨rfl, rfl, rfl⟩
  split <;> exact ⟨rfl, rfl, rfl⟩

/-- The flags after an instruction are those it writes, and the old ones elsewhere: the table with the state's own flags
in place of themselves. -/
theorem exec_flags_eq_mergeFlags {i : Instr} {s t : State} (h : exec i s = .next t) :
    t.flags = mergeFlags (flagsWritten i.mnemonic) t.flags s.flags := by
  have hself : exec i s = _ := flagTable i s s.flags (fun _ => rfl) fun _ => rfl
  rw [h, mapNext_next, Host.Outcome.next.injEq] at hself
  exact congrArg State.flags hself

theorem exec_controlFlagsKept {i : Instr} {s t : State} (h : exec i s = .next t) : ControlFlagsKept s.flags t.flags := by
  obtain ⟨hif, hdf, htf⟩ := flagsWritten_control i.mnemonic
  rw [exec_flags_eq_mergeFlags h]
  simp [ControlFlagsKept, mergeFlags, hif, hdf, htf]

/-- Where the control flags are not written, replacing them in the old flags replaces them in the merged ones. -/
theorem mergeFlags_control (m : String) (new old : Flags) (x y z : Bool) :
    mergeFlags (flagsWritten m) new { old with IF := x, DF := y, TF := z } =
      { mergeFlags (flagsWritten m) new old with IF := x, DF := y, TF := z } := by
  obtain ⟨hif, hdf, htf⟩ := flagsWritten_control m
  simp [mergeFlags, hif, hdf, htf]

theorem exec_withControl (i : Instr) (s : State) (x y z : Bool) :
    exec i (s.withControl x y z) = mapNext (fun t => t.withControl x y z) (exec i s) := by
  refine (flagTable i s { s.flags with IF := x, DF := y, TF := z } (fun _ => rfl) fun _ => rfl).trans ?_
  cases hexec : exec i s with
  | next t => rw [mapNext_next, mapNext_next, mergeFlags_control, ← exec_flags_eq_mergeFlags hexec, State.withControl]
  | fault r => rfl
  | refused r => rfl

theorem finishStep_mapNext_withControl (o : Host.Outcome State Fault Refusal) (x y z : Bool) :
    finishStep (mapNext (fun t => t.withControl x y z) o) = mapNext (fun t => t.withControl x y z) (finishStep o) := by
  cases o <;> rfl

theorem withControl_fetchBytes (s : State) (x y z : Bool) : (s.withControl x y z).fetchBytes = s.fetchBytes := rfl

theorem step_withControl (s : State) (x y z : Bool) :
    step (s.withControl x y z) = mapNext (fun t => t.withControl x y z) (step s) := by
  cases hdecode : decode s.fetchBytes with
  | matched i rest =>
    rw [step_of_decode_matched hdecode, step_of_decode_matched (s := s.withControl x y z) hdecode, exec_withControl,
      finishStep_mapNext_withControl]
  | noMatch => simp only [step, withControl_fetchBytes, hdecode, mapNext]
  | malformedField => simp only [step, withControl_fetchBytes, hdecode, mapNext]

/-- Settles O51: the table of R30 gives IF, DF and TF to no instruction, and neither fetch nor decode sees a flag. -/
theorem controlFlagsUntouched : Obligations.ControlFlagsUntouched := by
  refine ⟨step_withControl, fun s t h => ?_⟩
  obtain ⟨i, -, u, -, hexec, rfl⟩ := step_next h
  rw [dropInput_flags]
  exact exec_controlFlagsKept hexec

end Sys2Proof.Machine
end

section
/-! The instructions that store nothing in whatever form: memory and the parameters stay. -/

namespace Sys2Proof.Machine

/-- The adjusts, the divisions and JMP, none of which has a memory destination. -/
def storesNothing : Instr → Bool
  | .daa | .das | .aaa | .aas | .aam | .aad | .div _ | .idiv _ | .jmpNear _ | .jmpRm _ | .jmpFar _ _ | .jmpFarRm _ =>
    true
  | _ => false

theorem asciiAdjust_mem_cfg (adj : Bool) (al ah : Byte) (s : State) :
    (asciiAdjust adj al ah s).mem = s.mem ∧ (asciiAdjust adj al ah s).cfg = s.cfg := ⟨rfl, rfl⟩

theorem decimalAdjust_mem_cfg (al : Byte) (cf af : Bool) (s : State) :
    (decimalAdjust al cf af s).mem = s.mem ∧ (decimalAdjust al cf af s).cfg = s.cfg := ⟨rfl, rfl⟩

theorem radixAdjust_mem_cfg (al ah : Byte) (s : State) :
    (radixAdjust al ah s).mem = s.mem ∧ (radixAdjust al ah s).cfg = s.cfg := ⟨rfl, rfl⟩

theorem finishDivide8_mem_cfg {r : Option (Byte × Byte)} {n : Nat} {s t : State} (h : finishDivide8 r n s = .next t) :
    t.mem = s.mem ∧ t.cfg = s.cfg := by
  cases r with
  | none => cases h
  | some p => cases h; exact ⟨rfl, rfl⟩

theorem finishDivide16_mem_cfg {r : Option (Word × Word)} {n : Nat} {s t : State}
    (h : finishDivide16 r n s = .next t) : t.mem = s.mem ∧ t.cfg = s.cfg := by
  cases r with
  | none => cases h
  | some p => cases h; exact ⟨rfl, rfl⟩

theorem exec_mem_cfg_of_storesNothing {i : Instr} {s t : State} (hi : storesNothing i = true)
    (h : exec i s = .next t) : t.mem = s.mem ∧ t.cfg = s.cfg := by
  cases i with
  | daa | das => cases h; exact decimalAdjust_mem_cfg ..
  | aaa => cases (execAaa_eq s).symm.trans h; exact asciiAdjust_mem_cfg ..
  | aas => cases (execAas_eq s).symm.trans h; exact asciiAdjust_mem_cfg ..
  | aam | aad => exact Host.Outcome.next.inj h ▸ radixAdjust_mem_cfg ..
  | div o | idiv o =>
    cases o with
    | byte rm => exact finishDivide8_mem_cfg h
    | word rm => exact finishDivide16_mem_cfg h
  | jmpNear | jmpRm | jmpFar => cases h; exact ⟨rfl, rfl⟩
  | jmpFarRm rm =>
    obtain ⟨off, seg, -, rfl⟩ := execJmpFarRm_next h
    exact ⟨rfl, rfl⟩
  | _ => cases hi

end Sys2Proof.Machine
end

section
/-! The invariant: memory stays canonical and inside the physical address space. -/

namespace Sys2Proof.Machine

theorem aluTo8_inv {s : State} (h : s.Inv) (op : AluOp) (dst : Loc Reg8) (b : Byte) (n : Nat) :
    (aluTo8 op dst b n s).Inv := by
  unfold aluTo8
  split
  · exact Inv.set8 (s := s.setFlags (op.flags (s.get8 dst) b s.flags)) h dst _
  · exact h

theorem aluTo16_inv {s : State} (h : s.Inv) (op : AluOp) (dst : Loc Reg16) (b : Word) (n : Nat) :
    (aluTo16 op dst b n s).Inv := by
  unfold aluTo16
  split
  · exact Inv.set16 (s := s.setFlags (op.flags (s.get16 dst) b s.flags)) h dst _
  · exact h

theorem aluOperands_run_inv {s : State} (h : s.Inv) (op : AluOp) (x : AluOperands) : (x.run op s).Inv := by
  rcases aluOperands_run op x s with ⟨dst, b, hrun⟩ | ⟨dst, b, hrun⟩
  · have hrun : x.run op s = aluTo8 op dst b x.len s := hrun s.flags
    exact hrun ▸ aluTo8_inv h op dst b x.len
  · have hrun : x.run op s = aluTo16 op dst b x.len s := hrun s.flags
    exact hrun ▸ aluTo16_inv h op dst b x.len

theorem execMovRmReg_inv {d : Dir} {o : RmReg} {s t : State} (h : s.Inv) (hexec : execMovRmReg d o s = .next t) :
    t.Inv := by
  cases hexec
  cases d <;> cases o
  case toRm.byte | toReg.byte => exact Inv.set8 h _ _
  case toRm.word | toReg.word => exact Inv.set16 h _ _

theorem execMovRmImm_inv {o : RmImm} {s t : State} (h : s.Inv) (hexec : execMovRmImm o s = .next t) : t.Inv := by
  cases hexec
  cases o with
  | byte rm v => exact Inv.set8 h _ v
  | word rm v => exact Inv.set16 h _ v

theorem callFarTo_inv {s : State} (h : s.Inv) (off seg : Word) (n : Nat) : (callFarTo off seg n s).Inv :=
  Inv.push16 (Inv.push16 h (s.seg .cs)) _

/-- Every instruction that completes keeps the invariant: stores go through `MemWrite`, which reduces the address. -/
theorem exec_inv {i : Instr} {s t : State} (h : s.Inv) (hexec : exec i s = .next t) : t.Inv := by
  cases instrView i with
  | alu _ op x _ _ _ hrun =>
    rw [hrun, Host.Outcome.next.injEq] at hexec
    exact hexec ▸ aluOperands_run_inv h op x
  | movRmReg d o => exact execMovRmReg_inv h hexec
  | movRmImm o => exact execMovRmImm_inv h hexec
  | daa | das | aaa | aas | aam | aad | div | idiv | jmpNear | jmpRm | jmpFar | jmpFarRm =>
    obtain ⟨hmem, hcfg⟩ := exec_mem_cfg_of_storesNothing rfl hexec
    exact Inv.of_mem_cfg h hmem hcfg
  | callNear | callRm => cases hexec; exact Inv.push16 h _
  | callFar off seg => cases hexec; exact callFarTo_inv h off seg 5
  | callFarRm rm =>
    obtain ⟨off, seg, -, rfl⟩ := execCallFarRm_next hexec
    exact callFarTo_inv h off seg _

/-- Settles O59: the decoded instruction keeps the invariant, and using up an input changes neither memory nor
parameters. -/
theorem stepKeepsInvariant : Obligations.StepKeepsInvariant := by
  intro s t h hstep
  obtain ⟨i, -, u, -, hexec, rfl⟩ := step_next hstep
  exact Inv.of_mem_cfg (exec_inv h hexec) rfl rfl

/-- Settles O60: the memory of the reset state lists nothing. -/
theorem resetMeetsInvariant : Obligations.ResetMeetsInvariant :=
  ⟨⟨.nil, nofun⟩, nofun⟩

end Sys2Proof.Machine
end

section
/-! The two bytes of a word, and the accesses to memory (`20_memory.md` R51, R55, R56). -/

namespace Sys2Proof

theorem extractLsb'_high (v : Word) : v.extractLsb' 8 8 = highByte v := by
  apply BitVec.eq_of_toNat_eq
  simp [highByte, Nat.shiftRight_eq_div_pow]

theorem extractLsb'_low (v : Word) : v.extractLsb' 0 8 = lowByte v := by
  apply BitVec.eq_of_toNat_eq
  simp [lowByte]

theorem wordOf_eq_append (lo hi : Byte) : wordOf lo hi = hi ++ lo := by
  simpa using (highByte_append_lowByte (wordOf lo hi)).symm

end Sys2Proof

namespace Sys2Proof.Machine

/-- Settles O14: addresses and byte reads by definition, a word read as its two bytes, and what reads see after
writes. -/
theorem memoryAccess : Obligations.MemoryAccess := by
  intro s seg off a
  refine ⟨rfl, rfl, wordOf_eq_append _ _, fun v => ?_, fun v => ?_, memWrite16_memRead16 s seg off⟩
  · rw [memWrite8_mem, read_write]
  · rw [memWrite16_read, extractLsb'_high, extractLsb'_low]

end Sys2Proof.Machine
end

section
/-! Memory after an instruction, as the bytes that it stored over the memory before it. -/

namespace Sys2Proof.Machine

/-! ## Stores over a memory -/

/-- The memory of `t` reads as that of `s` with the stores, the last written first. -/
def MemAfter (s t : State) (stores : List Host.Cell) : Prop :=
  ∀ a, Memory.read t.mem a = afterStores stores s.mem a

@[simp] theorem afterStores_nil (m : Memory) (a : Nat) : afterStores [] m a = Memory.read m a := rfl

@[simp] theorem afterStores_cons (k : Nat) (v : Byte) (l : List Host.Cell) (m : Memory) (a : Nat) :
    afterStores ((k, v) :: l) m a = if a = k then v else afterStores l m a := by
  by_cases h : a = k
  · simp [afterStores, h]
  · rw [afterStores, List.lookup_cons, beq_false_of_ne h, if_neg h, afterStores]

theorem memAfter_nil {s t : State} (h : t.mem = s.mem) : MemAfter s t [] := by
  intro a
  rw [h, afterStores_nil]

/-- Stores after stores. -/
theorem MemAfter.append {s t u : State} {l k : List Host.Cell} (hl : MemAfter s t l) (hk : MemAfter t u k) :
    MemAfter s u (k ++ l) := by
  intro a
  rw [hk a, afterStores, hl a, afterStores, afterStores, List.lookup_append]
  cases k.lookup a <;> rfl

theorem memAfter_memWrite8 (s : State) (g o : Word) (v : Byte) : MemAfter s (s.memWrite8 g o v) [(s.phys g o, v)] := by
  intro a
  rw [memWrite8_mem, read_write, afterStores_cons, afterStores_nil]

theorem memAfter_memWrite16 (s : State) (g o v : Word) : MemAfter s (s.memWrite16 g o v) (wordStore s g o v) := by
  intro a
  rw [memWrite16_read, wordStore, afterStores_cons, afterStores_cons, afterStores_nil, extractLsb'_high,
    extractLsb'_low]

/-! ## Stores to a location -/

/-- The cell of a byte written to a location; none for a register. -/
def locStore8 (s : State) (l : Loc Reg8) (v : Byte) : List Host.Cell :=
  match l with
  | .reg _ => []
  | .mem sel base addend => [(s.phys (s.seg sel) (s.ea base addend), v)]

/-- The cells of a word written to a location. -/
def locStore16 (s : State) (l : Loc Reg16) (v : Word) : List Host.Cell :=
  match l with
  | .reg _ => []
  | .mem sel base addend => wordStore s (s.seg sel) (s.ea base addend) v

theorem memAfter_set8 (s : State) (l : Loc Reg8) (v : Byte) : MemAfter s (s.set8 l v) (locStore8 s l v) := by
  cases l with
  | reg r => exact memAfter_nil rfl
  | mem sel base addend => exact memAfter_memWrite8 _ _ _ _

theorem memAfter_set16 (s : State) (l : Loc Reg16) (v : Word) : MemAfter s (s.set16 l v) (locStore16 s l v) := by
  cases l with
  | reg r => exact memAfter_nil rfl
  | mem sel base addend => exact memAfter_memWrite16 _ _ _ _

/-- The table of R85 gives the default segment of R146. -/
theorem specSegment_eq (m : MemOp) : specSegment m = m.defaultSeg := by
  cases m with
  | direct ea => rfl
  | noDisp b | disp8 b | disp16 b => cases b <;> rfl

/-- The table of R85 and the addend give the effective address of R143. -/
theorem specOffset_eq (s : State) (m : MemOp) : specOffset s m = s.ea m.base m.addend := by
  cases m with
  | direct ea => simp [specOffset, State.ea, MemOp.base, MemOp.addend]
  | noDisp b | disp8 b d | disp16 b d =>
    cases b <;> simp [specOffset, State.ea, MemOp.base, MemOp.addend, sext16]

theorem locStore8_rmLoc (s : State) (rm : Rm Reg8) (v : Byte) : locStore8 s (s.rmLoc rm) v = rmStore8 s rm v := by
  cases rm with
  | reg r => rfl
  | mem m => rw [rmStore8, specSegment_eq, specOffset_eq]; rfl

theorem locStore16_rmLoc (s : State) (rm : Rm Reg16) (v : Word) : locStore16 s (s.rmLoc rm) v = rmStore16 s rm v := by
  cases rm with
  | reg r => rfl
  | mem m => rw [rmStore16, specSegment_eq, specOffset_eq]; rfl

theorem memAfter_set8_rmLoc (s : State) (rm : Rm Reg8) (v : Byte) :
    MemAfter s (s.set8 (s.rmLoc rm) v) (rmStore8 s rm v) :=
  locStore8_rmLoc s rm v ▸ memAfter_set8 s (s.rmLoc rm) v

theorem memAfter_set16_rmLoc (s : State) (rm : Rm Reg16) (v : Word) :
    MemAfter s (s.set16 (s.rmLoc rm) v) (rmStore16 s rm v) :=
  locStore16_rmLoc s rm v ▸ memAfter_set16 s (s.rmLoc rm) v

/-! ## Arithmetic and logic -/

/-- The result that an operation writes back, as bit-vector arithmetic with the old carry. -/
def storedResult (op : AluOp) (f : Flags) (W : Nat) (a b : BitVec W) : BitVec W :=
  match op with
  | .add => a + b
  | .adc => a + b + BitVec.ofNat W f.CF.toNat
  | .sub | .cmp => a - b
  | .sbb => a - b - BitVec.ofNat W f.CF.toNat
  | .and | .test => a &&& b
  | .or => a ||| b
  | .xor => a ^^^ b

theorem result_eq_storedResult (op : AluOp) {W : Nat} (a b : BitVec W) (f : Flags) :
    op.result a b f = storedResult op f W a b := by
  cases op with
  | add => exact addResult_false a b
  | adc => exact addResult_carry a b f.CF
  | sub | cmp => exact subResult_false a b
  | sbb => exact subResult_borrow a b f.CF
  | and | test | or | xor => rfl

theorem memAfter_aluTo8 {op : AluOp} (h : op.writesBack = true) (dst : Loc Reg8) (b : Byte) (n : Nat) (s : State) :
    MemAfter s (aluTo8 op dst b n s) (locStore8 s dst (storedResult op s.flags 8 (s.get8 dst) b)) := by
  rw [aluTo8, if_pos h, result_eq_storedResult, setFlags_set8]
  exact memAfter_set8 s dst _

theorem memAfter_aluTo8_rmLoc {op : AluOp} (h : op.writesBack = true) (rm : Rm Reg8) (b : Byte) (n : Nat)
    (s : State) :
    MemAfter s (aluTo8 op (s.rmLoc rm) b n s)
      (rmStore8 s rm (storedResult op s.flags 8 (s.get8 (s.rmLoc rm)) b)) :=
  locStore8_rmLoc s rm _ ▸ memAfter_aluTo8 h (s.rmLoc rm) b n s

theorem memAfter_aluTo16 {op : AluOp} (h : op.writesBack = true) (dst : Loc Reg16) (b : Word) (n : Nat) (s : State) :
    MemAfter s (aluTo16 op dst b n s) (locStore16 s dst (storedResult op s.flags 16 (s.get16 dst) b)) := by
  rw [aluTo16, if_pos h, result_eq_storedResult, setFlags_set16]
  exact memAfter_set16 s dst _

theorem memAfter_aluTo16_rmLoc {op : AluOp} (h : op.writesBack = true) (rm : Rm Reg16) (b : Word) (n : Nat)
    (s : State) :
    MemAfter s (aluTo16 op (s.rmLoc rm) b n s)
      (rmStore16 s rm (storedResult op s.flags 16 (s.get16 (s.rmLoc rm)) b)) :=
  locStore16_rmLoc s rm _ ▸ memAfter_aluTo16 h (s.rmLoc rm) b n s

theorem memAfter_aluRmReg {op : AluOp} (h : op.writesBack = true) (d : Dir) (o : RmReg) (s : State) :
    MemAfter s (aluRmReg op d o s) (rmRegStores s (storedResult op s.flags) d o) := by
  cases d with
  | toRm =>
    cases o with
    | byte rm reg => exact memAfter_aluTo8_rmLoc h rm (s.reg8 reg) _ s
    | word rm reg => exact memAfter_aluTo16_rmLoc h rm (s.reg16 reg) _ s
  | toReg =>
    cases o with
    | byte rm reg => exact memAfter_aluTo8 h (.reg reg) (s.get8 (s.rmLoc rm)) _ s
    | word rm reg => exact memAfter_aluTo16 h (.reg reg) (s.get16 (s.rmLoc rm)) _ s

theorem memAfter_aluRmImmS {op : AluOp} (h : op.writesBack = true) (o : RmImmS) (s : State) :
    MemAfter s (aluRmImmS op o s) (rmImmStores s (storedResult op s.flags) o) := by
  cases o with
  | byte sx rm v => exact memAfter_aluTo8_rmLoc h rm v _ s
  | word rm v => exact memAfter_aluTo16_rmLoc h rm v _ s
  | wordSext rm v => exact memAfter_aluTo16_rmLoc h rm (sext16 v) _ s

/-- The accumulator is no memory. -/
theorem memAfter_aluAccImm (op : AluOp) (o : AccImm) (s : State) : MemAfter s (aluAccImm op o s) [] := by
  apply memAfter_nil
  cases o with
  | byte v => rw [aluAccImm, aluTo8]; split <;> rfl
  | word v => rw [aluAccImm, aluTo16]; split <;> rfl

/-- A form that discards its result stores nothing, whatever its operands. -/
theorem memAfter_aluOperands_run {op : AluOp} (h : op.writesBack = false) (x : AluOperands) (s : State) :
    MemAfter s (x.run op s) [] := by
  apply memAfter_nil
  rcases aluOperands_run op x s with ⟨dst, b, hrun⟩ | ⟨dst, b, hrun⟩
  · have hrun : x.run op s = aluTo8 op dst b x.len s := hrun s.flags
    rw [hrun, aluTo8, if_neg (by simp [h])]
    rfl
  · have hrun : x.run op s = aluTo16 op dst b x.len s := hrun s.flags
    rw [hrun, aluTo16, if_neg (by simp [h])]
    rfl

/-! ## MOV -/

theorem memAfter_execMovRmReg {d : Dir} {o : RmReg} {s t : State} (h : execMovRmReg d o s = .next t) :
    MemAfter s t (rmRegStores s (fun _ _ b => b) d o) := by
  cases h
  cases d with
  | toRm =>
    cases o with
    | byte rm reg => exact memAfter_set8_rmLoc s rm _
    | word rm reg => exact memAfter_set16_rmLoc s rm _
  | toReg => cases o <;> exact memAfter_nil rfl

theorem memAfter_execMovRmImm {o : RmImm} {s t : State} (h : execMovRmImm o s = .next t) :
    MemAfter s t (storesOf (.movRmImm o) s) := by
  cases h
  cases o with
  | byte rm v => exact memAfter_set8_rmLoc s rm v
  | word rm v => exact memAfter_set16_rmLoc s rm v

/-! ## CALL -/

theorem memAfter_push16 (s : State) (v : Word) :
    MemAfter s (s.push16 v) (wordStore s (s.seg .ss) (s.reg16 .sp - 2) v) :=
  memAfter_memWrite16 (s.setReg16 .sp (s.reg16 .sp - 2)) (s.seg .ss) (s.reg16 .sp - 2) v

theorem memAfter_callNearTo (target : Word) (n : Nat) (s : State) :
    MemAfter s (callNearTo target n s) (nearCallStores s n) :=
  memAfter_push16 s (s.nextIP n)

/-- The return offset lies 4 below the old SP, stored after CS. -/
theorem memAfter_callFarTo (off seg : Word) (n : Nat) (s : State) :
    MemAfter s (callFarTo off seg n s) (farCallStores s n) := by
  have hsp : (s.push16 (s.seg .cs)).reg16 .sp - 2 = s.reg16 .sp - 4 := by
    rw [push16_reg16, if_pos rfl]
    bv_omega
  have hret := memAfter_push16 (s.push16 (s.seg .cs)) (s.nextIP n)
  rw [hsp] at hret
  exact (memAfter_push16 s (s.seg .cs)).append hret

/-! ## Every instruction -/

/-- Memory after an instruction that completes is the memory before it with the instruction's stores. -/
theorem exec_memAfter {i : Instr} {s t : State} (h : exec i s = .next t) : MemAfter s t (storesOf i s) := by
  cases i with
  | addRmReg d o | orRmReg d o | adcRmReg d o | sbbRmReg d o | andRmReg d o | subRmReg d o | xorRmReg d o =>
    cases h; exact memAfter_aluRmReg rfl d o s
  | addRmImm o | orRmImm o | adcRmImm o | sbbRmImm o | andRmImm o | subRmImm o | xorRmImm o =>
    cases h; exact memAfter_aluRmImmS rfl o s
  | addAccImm o | orAccImm o | adcAccImm o | sbbAccImm o | andAccImm o | subAccImm o | xorAccImm o | cmpAccImm o
  | testAccImm o =>
    cases h; exact memAfter_aluAccImm _ o s
  | cmpRmReg d o => cases h; exact memAfter_aluOperands_run rfl (.rmReg d o) s
  | cmpRmImm o => cases h; exact memAfter_aluOperands_run rfl (.rmImmS o) s
  | testRmReg o => cases h; exact memAfter_aluOperands_run rfl (.rmReg .toRm o) s
  | testRmImm o => cases h; exact memAfter_aluOperands_run rfl (.rmImm o) s
  | movRmReg d o => exact memAfter_execMovRmReg h
  | movRmImm o => exact memAfter_execMovRmImm h
  | daa | das | aaa | aas | aam | aad | div | idiv | jmpNear | jmpRm | jmpFar | jmpFarRm =>
    exact memAfter_nil (exec_mem_cfg_of_storesNothing rfl h).1
  | callNear val => cases h; exact memAfter_callNearTo _ 3 s
  | callRm rm => cases h; exact memAfter_callNearTo _ _ s
  | callFar off seg => cases h; exact memAfter_callFarTo off seg 5 s
  | callFarRm rm =>
    obtain ⟨off, seg, -, rfl⟩ := execCallFarRm_next h
    exact memAfter_callFarTo off seg _ s

/-- Settles O57: using up an input leaves memory, and a byte fetched from memory is a read of it. -/
theorem storeSeenByFetch : Obligations.StoreSeenByFetch := by
  intro s t i rest hdecode hstep
  rw [step_of_decode_matched hdecode] at hstep
  obtain ⟨u, hexec, rfl⟩ := (finishStep_next _ t).mp hstep
  have hmem : MemAfter s u.dropInput (storesOf i s) := fun a => exec_memAfter hexec a
  refine ⟨hmem, fun hstream k => ?_⟩
  rw [← hmem, State.fetch, hstream]
  rfl

end Sys2Proof.Machine
end

section
/-! Where instruction bytes come from (`20_memory.md` R67). -/

namespace Sys2Proof.Machine

theorem fetch_memory {s : State} (h : s.input.stream = .memory) (k : Nat) :
    s.fetch k = some (s.memRead8 (s.seg .cs) (s.ip + BitVec.ofNat 16 k)) := by
  rw [State.fetch, h]

theorem fetch_supplied {s : State} {bytes : List Byte} {offset : Nat}
    (h : s.input.stream = .supplied bytes offset) (k : Nat) : s.fetch k = (bytes.drop offset)[k]? := by
  rw [State.fetch, h, List.getElem?_drop]

/-- Looking up the first indices of a list gives its first elements, as far as it has them. -/
theorem filterMap_getElem?_range {α : Type} (l : List α) (n : Nat) :
    (List.range n).filterMap (fun k => l[k]?) = l.take n := by
  induction n with
  | zero => simp
  | succ n ih =>
    rw [List.range_succ, List.filterMap_append, ih, List.take_add_one]
    cases h : l[n]? <;> simp [h]

theorem fetchBytes_memory {s : State} (h : s.input.stream = .memory) :
    s.fetchBytes = (List.range 6).map fun k => s.memRead8 (s.seg .cs) (s.ip + BitVec.ofNat 16 k) := by
  rw [State.fetchBytes, funext (fetch_memory h), List.filterMap_eq_map']
  rfl

theorem fetchBytes_supplied {s : State} {bytes : List Byte} {offset : Nat}
    (h : s.input.stream = .supplied bytes offset) : s.fetchBytes = (bytes.drop offset).take 6 := by
  rw [State.fetchBytes, funext (fetch_supplied h)]
  exact filterMap_getElem?_range _ 6

/-- Settles O18, for each binding of the stream. -/
theorem fetchSource : Obligations.FetchSource := by
  intro s k
  refine ⟨fun h => ⟨fetch_memory h k, ?_⟩, fun bytes offset h => ⟨fetch_supplied h k, fetchBytes_supplied h⟩⟩
  rw [fetchBytes_memory h, List.length_map, List.length_range]

/-- Bytes that stand in memory at CS:IP begin what is fetched, if they are six at most. -/
theorem take_fetchBytes_of_memory {s : State} (h : s.input.stream = .memory) {bs : List Byte} (hlen : bs.length ≤ 6)
    (hbs : ∀ (k : Nat) (hk : k < bs.length), s.memRead8 (s.seg .cs) (s.ip + BitVec.ofNat 16 k) = bs[k]) :
    s.fetchBytes.take bs.length = bs := by
  rw [fetchBytes_memory h]
  refine List.ext_getElem ?_ fun k _ hk => ?_
  · rw [List.length_take, List.length_map, List.length_range]
    exact Nat.min_eq_left hlen
  · rw [List.getElem_take, List.getElem_map, List.getElem_range]
    exact hbs k hk

theorem fetchBytes_eq_of_memory {s : State} (h : s.input.stream = .memory) {bs : List Byte} (hlen : bs.length = 6)
    (hbs : ∀ (k : Nat) (hk : k < bs.length), s.memRead8 (s.seg .cs) (s.ip + BitVec.ofNat 16 k) = bs[k]) :
    s.fetchBytes = bs := by
  have htake := take_fetchBytes_of_memory h (Nat.le_of_eq hlen) hbs
  have hfetched : s.fetchBytes.length = 6 := by rw [fetchBytes_memory h, List.length_map, List.length_range]
  rwa [List.take_of_length_le (by omega)] at htake

/-! ## Placed words -/

theorem tableBytes_length {nbits : Nat} (h : nbits ≤ 48) (w : Nat) : (tableBytes nbits w).length = 6 := by
  simp only [tableBytes, maxLen, List.length_append, List.length_map, List.length_range, List.length_replicate]
  omega

theorem storeAtIP_input (s : State) (bs : List Byte) (n : Nat) : (s.storeAtIP bs n).input = s.input := by
  rw [State.input, State.input, storeAtIP_inputs]

/-- Six bytes stored at CS:IP are what is fetched from memory. -/
theorem storeAtIP_fetchBytes {s : State} (h : s.input.stream = .memory) {bs : List Byte} (hlen : bs.length = 6) :
    (s.storeAtIP bs 0).fetchBytes = bs := by
  refine fetchBytes_eq_of_memory (by rw [storeAtIP_input, h]) hlen fun k hk => ?_
  have hread := storeAtIP_memRead8 s bs 0 k hk (by omega)
  rw [Nat.zero_add] at hread
  rw [storeAtIP_ip, State.seg, storeAtIP_segs]
  exact hread

/-- A placed word is fetched whole: its bytes stand at CS:IP, or they are the supplied stream. -/
theorem withFetchWord_fetchBytes (s : State) {nbits : Nat} (h : nbits ≤ 48) (w : Nat) :
    (s.withFetchWord nbits w).fetchBytes = tableBytes nbits w := by
  have hlen := tableBytes_length h w
  cases hstream : s.input.stream with
  | memory =>
    rw [State.withFetchWord, hstream]
    exact storeAtIP_fetchBytes hstream hlen
  | supplied bytes offset =>
    rw [State.withFetchWord, hstream, fetchBytes_supplied rfl, List.drop_zero,
      List.take_of_length_le (Nat.le_of_eq hlen)]

/-- Settles O58: the word is fetched whole, and what it decodes to runs. -/
theorem placedWordIsFetched : Obligations.PlacedWordIsFetched := by
  intro s nbits w h
  refine ⟨withFetchWord_fetchBytes s h w, tableBytes_length h w, fun i hi => ?_⟩
  rw [decodeTableWord, ← withFetchWord_fetchBytes s h w] at hi
  cases hdecode : decode (s.withFetchWord nbits w).fetchBytes with
  | matched j rest =>
    rw [hdecode, Option.some.injEq] at hi
    rw [step_of_decode_matched hdecode, hi]
  | noMatch | malformedField => rw [hdecode] at hi; cases hi

end Sys2Proof.Machine
end

section
/-! What is encoded decodes back: the table's rows exclude each other, and the operands of each format parse back. -/

namespace Sys2Proof

/-! ## The rows exclude each other (`30_encoding.md` R101) -/

/-- At some leading byte the two rows fix a common bit differently. -/
def fixedConflict : List (Byte × Byte) → List (Byte × Byte) → Bool
  | (key, mask) :: fs, (key', mask') :: gs => key &&& mask' != key' &&& mask || fixedConflict fs gs
  | _, _ => false

theorem not_matchesFixed_of_conflict {fs gs : List (Byte × Byte)} {bs : List Byte} (h : fixedConflict fs gs = true)
    (hf : matchesFixed fs bs = true) : matchesFixed gs bs ≠ true := by
  induction fs generalizing gs bs with
  | nil => simp [fixedConflict] at h
  | cons f fs ih =>
    obtain ⟨key, mask⟩ := f
    cases gs with
    | nil => simp [fixedConflict] at h
    | cons g gs =>
      obtain ⟨key', mask'⟩ := g
      cases bs with
      | nil => simp [matchesFixed]
      | cons b bs =>
        simp only [matchesFixed, Bool.and_eq_true, beq_iff_eq, ne_eq] at hf ⊢
        obtain ⟨rfl, hfs⟩ := hf
        rintro ⟨rfl, hgs⟩
        simp only [fixedConflict, BitVec.and_assoc, BitVec.and_comm mask, bne_self_eq_false, Bool.false_or] at h
        exact ih h hfs hgs

theorem opcodeTable_conflict : opcodeTable.Pairwise fun r q => fixedConflict r.fixed q.fixed = true := by
  decide

/-- No stream matches the literal bits of two rows. -/
theorem opcodeTable_exclusive :
    opcodeTable.Pairwise fun r q => ∀ bs, ¬(matchesFixed r.fixed bs = true ∧ matchesFixed q.fixed bs = true) :=
  opcodeTable_conflict.imp fun h _ ⟨hr, hq⟩ => not_matchesFixed_of_conflict h hr hq

/-- At most one row matches: two places of the table that both match are the same place. -/
theorem row_unique {q r : Row} (hq : q ∈ opcodeTable) (hr : r ∈ opcodeTable) {bs : List Byte}
    (hqfixed : matchesFixed q.fixed bs = true) (hrfixed : matchesFixed r.fixed bs = true) : q = r := by
  obtain ⟨j, hj, rfl⟩ := List.getElem_of_mem hq
  obtain ⟨k, hk, rfl⟩ := List.getElem_of_mem hr
  have hexclusive := List.pairwise_iff_getElem.mp opcodeTable_exclusive
  rcases Nat.lt_trichotomy j k with hjk | rfl | hkj
  · exact absurd ⟨hqfixed, hrfixed⟩ (hexclusive j k hj hk hjk bs)
  · rfl
  · exact absurd ⟨hrfixed, hqfixed⟩ (hexclusive k j hk hj hkj bs)

/-- A row that matches and parses decides what the whole table decodes. -/
theorem decode_of_row {r : Row} (hr : r ∈ opcodeTable) {bs rest : List Byte} {i : Instr}
    (hfixed : matchesFixed r.fixed bs = true) (hparse : r.shape.parse bs = some (i, rest)) :
    decode bs = .matched i rest := by
  have honly (q) (hq : q ∈ opcodeTable) (hqfixed : matchesFixed q.fixed bs = true) : q = r :=
    row_unique hq hr hqfixed hfixed
  have hprobe : opcodeTable.findSome? (fun q => q.decode bs) = r.shape.parse bs :=
    findSome?_only opcodeTable (fun q => matchesFixed q.fixed bs) (fun q => q.shape.parse bs) r hr honly hfixed
  rw [decode, hprobe, hparse]

/-! ## Formats: a row's form decodes from its encoding -/

/-- Six literal bits before two fields, against the table's mask. -/
theorem and_0xFC (b : Byte) : b &&& 0xFC = b.extractLsb' 2 6 ++ 0#2 := by
  revert b; decide

/-- Seven literal bits before one field. -/
theorem and_0xFE (b : Byte) : b &&& 0xFE = b.extractLsb' 1 7 ++ 0#1 := by
  revert b; decide

/-- Eight literal bits. -/
theorem and_0xFF (b : Byte) : b &&& 0xFF = b := BitVec.and_allOnes

/-- The opcode extension of the ModRM byte (R87). -/
theorem and_0x38 (m : Byte) : m &&& 0x38 = 0#2 ++ regField m ++ 0#3 := by
  revert m; decide

section
variable {n : Nat} {ts : List String}

theorem decode_encodeRmr {op : BitVec 6} {mk : Dir → RmReg → Instr}
    (hrow : opcodeTable[n]? = some ⟨ts, [(op ++ 0#2, 0xFC)], .rmr mk⟩) (d : Dir) {o : RmReg} (hw : o.wf = true)
    (rest : List Byte) : decode (encodeRmr op d o ++ rest) = .matched (mk d o) rest := by
  obtain ⟨b, m, tl, hbytes, hop, hd, hparse⟩ := parseRmReg_encodeRmr op d o hw
  rw [hbytes]
  refine decode_of_row (List.mem_of_getElem? hrow) ?_ ?_
  · simp only [List.cons_append, matchesFixed, and_0xFC, hop, beq_self_eq_true, Bool.and_true]
  · simp [Shape.parse, hparse, hd]

theorem decode_encodeRmr0 {op : BitVec 7} {mk : RmReg → Instr}
    (hrow : opcodeTable[n]? = some ⟨ts, [(op ++ 0#1, 0xFE)], .rmr0 mk⟩) {o : RmReg} (hw : o.wf = true)
    (rest : List Byte) : decode (encodeRmr0 op o ++ rest) = .matched (mk o) rest := by
  obtain ⟨b, m, tl, hbytes, hop, hparse⟩ := parseRmReg_encodeRmr0 op o hw
  rw [hbytes]
  refine decode_of_row (List.mem_of_getElem? hrow) ?_ ?_
  · simp only [List.cons_append, matchesFixed, and_0xFE, hop, beq_self_eq_true, Bool.and_true]
  · simp [Shape.parse, hparse]

theorem decode_encodeRmi {op : BitVec 6} {ext : BitVec 3} {mk : RmImmS → Instr}
    (hrow : opcodeTable[n]? = some ⟨ts, [(op ++ 0#2, 0xFC), (0#2 ++ ext ++ 0#3, 0x38)], .rmi mk⟩) {o : RmImmS}
    (hw : o.wf = true) (rest : List Byte) : decode (encodeRmi op ext o ++ rest) = .matched (mk o) rest := by
  obtain ⟨b, m, tl, hbytes, hop, hext, hparse⟩ := parseRmImmS_encodeRmi op ext o hw
  rw [hbytes]
  refine decode_of_row (List.mem_of_getElem? hrow) ?_ ?_
  · simp only [List.cons_append, matchesFixed, and_0xFC, hop, and_0x38, hext, beq_self_eq_true, Bool.and_true]
  · simp [Shape.parse, hparse]

theorem decode_encodeRmi0 {op : BitVec 7} {ext : BitVec 3} {mk : RmImm → Instr}
    (hrow : opcodeTable[n]? = some ⟨ts, [(op ++ 0#1, 0xFE), (0#2 ++ ext ++ 0#3, 0x38)], .rmi0 mk⟩) {o : RmImm}
    (hw : o.wf = true) (rest : List Byte) : decode (encodeRmi0 op ext o ++ rest) = .matched (mk o) rest := by
  obtain ⟨b, m, tl, hbytes, hop, hext, hparse⟩ := parseRmImm_encodeRmi0 op ext o hw
  rw [hbytes]
  refine decode_of_row (List.mem_of_getElem? hrow) ?_ ?_
  · simp only [List.cons_append, matchesFixed, and_0xFE, hop, and_0x38, hext, beq_self_eq_true, Bool.and_true]
  · simp [Shape.parse, hparse]

theorem decode_encodeAcci {op : BitVec 7} {mk : AccImm → Instr}
    (hrow : opcodeTable[n]? = some ⟨ts, [(op ++ 0#1, 0xFE)], .acci mk⟩) (o : AccImm) (rest : List Byte) :
    decode (encodeAcci op o ++ rest) = .matched (mk o) rest := by
  obtain ⟨b, tl, hbytes, hop, hparse⟩ := parseAccImm_encodeAcci op o
  rw [hbytes]
  refine decode_of_row (List.mem_of_getElem? hrow) ?_ ?_
  · simp only [List.cons_append, matchesFixed, and_0xFE, hop, beq_self_eq_true, Bool.and_true]
  · simp [Shape.parse, hparse]

theorem decode_encodeRmxw {op : BitVec 7} {ext : BitVec 3} {mk : RmX → Instr}
    (hrow : opcodeTable[n]? = some ⟨ts, [(op ++ 0#1, 0xFE), (0#2 ++ ext ++ 0#3, 0x38)], .rmxw mk⟩) {o : RmX}
    (hw : o.wf = true) (rest : List Byte) : decode (encodeRmxw op ext o ++ rest) = .matched (mk o) rest := by
  obtain ⟨b, m, tl, hbytes, hop, hext, hparse⟩ := parseRmX_encodeRmxw op ext o hw
  rw [hbytes]
  refine decode_of_row (List.mem_of_getElem? hrow) ?_ ?_
  · simp only [List.cons_append, matchesFixed, and_0xFE, hop, and_0x38, hext, beq_self_eq_true, Bool.and_true]
  · simp [Shape.parse, hparse]

/-- The form `11111111 mmeeebbb`. -/
theorem decode_encodeRm {ext : BitVec 3} {mk : Rm Reg16 → Instr}
    (hrow : opcodeTable[n]? = some ⟨ts, [(0xFF, 0xFF), (0#2 ++ ext ++ 0#3, 0x38)], .rmx mk⟩) {rm : Rm Reg16}
    (hw : rm.wf = true) (rest : List Byte) :
    decode (0xFF :: encodeRm Reg16.code ext rm ++ rest) = .matched (mk rm) rest := by
  obtain ⟨m, tl, hbytes, hext, hparse⟩ := parseRm_encodeRm Reg16.code Reg16.ofCode Reg16.ofCode_code ext rm hw
  rw [hbytes]
  refine decode_of_row (List.mem_of_getElem? hrow) ?_ ?_
  · simp only [List.cons_append, matchesFixed, BitVec.and_self, and_0x38, hext, beq_self_eq_true, Bool.and_true]
  · simp [Shape.parse, hparse]

/-- An opcode byte and a word (`CALL` and `JMP` near-relative). -/
theorem decode_rel16 {b : Byte} {mk : Word → Instr} (hrow : opcodeTable[n]? = some ⟨ts, [(b, 0xFF)], .rel16 mk⟩)
    (v : Word) (rest : List Byte) : decode (b :: wordBytes v ++ rest) = .matched (mk v) rest := by
  refine decode_of_row (List.mem_of_getElem? hrow) ?_ ?_
  · simp only [List.cons_append, matchesFixed, and_0xFF, beq_self_eq_true, Bool.and_true]
  · simp [Shape.parse]

/-- An opcode byte and two words (`CALL` and `JMP` far-direct). -/
theorem decode_fard {b : Byte} {mk : Word → Word → Instr}
    (hrow : opcodeTable[n]? = some ⟨ts, [(b, 0xFF)], .fard mk⟩) (v v2 : Word) (rest : List Byte) :
    decode (b :: wordBytes v ++ wordBytes v2 ++ rest) = .matched (mk v v2) rest := by
  refine decode_of_row (List.mem_of_getElem? hrow) ?_ ?_
  · simp only [List.cons_append, matchesFixed, and_0xFF, beq_self_eq_true, Bool.and_true]
  · simp [Shape.parse]

end

/-! ## Every instruction -/

/-- A well-formed instruction decodes from its encoding, whatever bytes follow. The numbers are those of the rows of the
opcode table. -/
theorem decode_encode {i : Instr} (hw : i.wf = true) (rest : List Byte) :
    decode (encode i ++ rest) = .matched i rest := by
  cases i with
  | addRmReg d o => exact decode_encodeRmr (n := 0) rfl d hw rest
  | addAccImm o => exact decode_encodeAcci (n := 1) rfl o rest
  | addRmImm o => exact decode_encodeRmi (n := 2) rfl hw rest
  | orRmReg d o => exact decode_encodeRmr (n := 3) rfl d hw rest
  | orAccImm o => exact decode_encodeAcci (n := 4) rfl o rest
  | orRmImm o => exact decode_encodeRmi (n := 5) rfl hw rest
  | adcRmReg d o => exact decode_encodeRmr (n := 6) rfl d hw rest
  | adcAccImm o => exact decode_encodeAcci (n := 7) rfl o rest
  | adcRmImm o => exact decode_encodeRmi (n := 8) rfl hw rest
  | sbbRmReg d o => exact decode_encodeRmr (n := 9) rfl d hw rest
  | sbbAccImm o => exact decode_encodeAcci (n := 10) rfl o rest
  | sbbRmImm o => exact decode_encodeRmi (n := 11) rfl hw rest
  | andRmReg d o => exact decode_encodeRmr (n := 12) rfl d hw rest
  | andAccImm o => exact decode_encodeAcci (n := 13) rfl o rest
  | andRmImm o => exact decode_encodeRmi (n := 14) rfl hw rest
  | subRmReg d o => exact decode_encodeRmr (n := 15) rfl d hw rest
  | subAccImm o => exact decode_encodeAcci (n := 16) rfl o rest
  | subRmImm o => exact decode_encodeRmi (n := 17) rfl hw rest
  | xorRmReg d o => exact decode_encodeRmr (n := 18) rfl d hw rest
  | xorAccImm o => exact decode_encodeAcci (n := 19) rfl o rest
  | xorRmImm o => exact decode_encodeRmi (n := 20) rfl hw rest
  | cmpRmReg d o => exact decode_encodeRmr (n := 21) rfl d hw rest
  | cmpAccImm o => exact decode_encodeAcci (n := 22) rfl o rest
  | cmpRmImm o => exact decode_encodeRmi (n := 23) rfl hw rest
  | testRmReg o => exact decode_encodeRmr0 (n := 24) rfl hw rest
  | testAccImm o => exact decode_encodeAcci (n := 25) rfl o rest
  | testRmImm o => exact decode_encodeRmi0 (n := 26) rfl hw rest
  | movRmReg d o => exact decode_encodeRmr (n := 27) rfl d hw rest
  | movRmImm o => exact decode_encodeRmi0 (n := 28) rfl hw rest
  | daa | das | aaa | aas | aam | aad => rfl
  | div o => exact decode_encodeRmxw (n := 35) rfl hw rest
  | idiv o => exact decode_encodeRmxw (n := 36) rfl hw rest
  | callNear v => exact decode_rel16 (n := 37) rfl v rest
  | callRm rm => exact decode_encodeRm (n := 38) rfl hw rest
  | callFar v v2 => exact decode_fard (n := 39) rfl v v2 rest
  | callFarRm rm => exact decode_encodeRm (n := 40) rfl hw rest
  | jmpNear v => exact decode_rel16 (n := 41) rfl v rest
  | jmpRm rm => exact decode_encodeRm (n := 42) rfl hw rest
  | jmpFar v v2 => exact decode_fard (n := 43) rfl v v2 rest
  | jmpFarRm rm => exact decode_encodeRm (n := 44) rfl hw rest

end Sys2Proof
end

section
/-! Lengths of instructions (`30_encoding.md` R108), and the step of an instruction whose bytes stand where they are
fetched. -/

namespace Sys2Proof.Machine

theorem AluOperands.len_le (x : AluOperands) : x.len ≤ 6 := by
  cases x with
  | rmReg d o => exact o.len_range.2
  | accImm o => exact o.len_range.2
  | rmImmS o => exact o.len_range.2
  | rmImm o => exact o.len_range.2

theorem len_le (i : Instr) : i.len ≤ 6 := by
  cases instrView i with
  | alu _ _ x _ hlen => exact hlen ▸ x.len_le
  | movRmReg d o => exact o.len_range.2
  | movRmImm o => exact o.len_range.2
  | div o | idiv o => exact o.len_range.2
  | callRm rm | callFarRm rm | jmpRm rm | jmpFarRm rm =>
    have := dispBytes_le rm
    simp only [Instr.len]
    omega
  | daa | das | aaa | aas | aam | aad | callNear | callFar | jmpNear | jmpFar => simp [Instr.len]

/-- The encoding has the length of the instruction: decoding it consumes all of it. -/
theorem encode_length {i : Instr} (hw : i.wf = true) : (encode i).length = i.len := by
  simpa using decode_length (decode_encode hw [])

/-- Fetched bytes that begin with an instruction's encoding make the step that instruction's. -/
theorem step_of_fetchBytes {s : State} {i : Instr} (hw : i.wf = true) {rest : List Byte}
    (h : s.fetchBytes = encode i ++ rest) : step s = finishStep (exec i s) :=
  step_of_decode_matched (h ▸ decode_encode hw rest)

/-- Settles O56: no encoding is longer than the six bytes looked at, so they begin with it. -/
theorem stepRunsStored : Obligations.StepRunsStored := by
  intro s i hw
  have hlen : (encode i).length ≤ 6 := encode_length hw ▸ len_le i
  refine ⟨fun hstream hbytes => ?_, fun bytes offset rest hstream hdrop => ?_⟩
  · have hsplit := List.take_append_drop (encode i).length s.fetchBytes
    rw [take_fetchBytes_of_memory hstream hlen hbytes] at hsplit
    exact step_of_fetchBytes hw hsplit.symm
  · refine step_of_fetchBytes hw (rest := rest.take (6 - (encode i).length)) ?_
    rw [fetchBytes_supplied hstream, hdrop, List.take_append, List.take_of_length_le hlen]

end Sys2Proof.Machine
end

section
/-! The memory operand of an instruction and what the segment override reaches (`40_operand_resolver.md` R143 to R147,
R152). -/

namespace Sys2Proof.Machine

/-! ## Where a memory operand lies -/

/-- The selector is the override's if there is one, else that of the table. -/
theorem rmLoc_mem {R : Type} (s : State) (m : MemOp) :
    s.rmLoc (R := R) (.mem m) = .mem (s.input.segovr.getD (specSegment m)) m.base m.addend := by
  rw [specSegment_eq]
  rfl

/-- A larger addend moves the effective address by as much, mod 2^16. -/
theorem ea_add (s : State) (base : Option Base) (addend n : Word) :
    s.ea base (addend + n) = s.ea base addend + n :=
  (BitVec.add_assoc _ _ _).symm

/-- The word after a memory operand lies two bytes further on in the segment of the operand. -/
theorem next_mem_get16 (s : State) (sel : SegReg) (m : MemOp) :
    ∃ l, (Loc.mem sel m.base m.addend).next = some l ∧ s.get16 l = s.memRead16 (s.seg sel) (specOffset s m + 2) := by
  refine ⟨.mem sel m.base (m.addend + 2), rfl, ?_⟩
  rw [specOffset_eq, ← ea_add]
  rfl

/-- Settles O16: the operand's location is the recipe of the table's segment and offset, which every access
evaluates. -/
theorem effectiveAddress : Obligations.EffectiveAddress := by
  intro s m
  simp only [rmLoc_mem, specOffset_eq]
  exact ⟨rfl, rfl, fun _ => rfl, fun _ => rfl⟩

/-! ## The override input -/

@[simp] theorem withOverride_segovr (s : State) (o : Option SegReg) : (s.withOverride o).input.segovr = o := rfl

/-- A push does not see the override, and keeps it. -/
theorem withOverride_push16 (s : State) (o : Option SegReg) (v : Word) :
    (s.withOverride o).push16 v = (s.push16 v).withOverride o := rfl

/-- Instruction fetch does not see the override. -/
theorem withOverride_fetchBytes (s : State) (o : Option SegReg) : (s.withOverride o).fetchBytes = s.fetchBytes := rfl

/-- Settles O17: the override enters the location of a memory operand and nothing else. -/
theorem overrideScope : Obligations.OverrideScope := by
  intro s g
  refine ⟨fun m => ?_, fun m => ?_, fun r => ⟨rfl, rfl⟩, withOverride_push16 s (some g),
    withOverride_fetchBytes s (some g)⟩
  · obtain ⟨l, hnext, hget⟩ := next_mem_get16 s g m
    exact ⟨l, by simp [rmLoc_mem], hnext, hget⟩
  · simp [rmLoc_mem]

end Sys2Proof.Machine
end

section
/-! The flag computation engine (`41_flag_engine.md`): the masked results, ZF, SF and PF of a result, and signed
overflow and the nibble carry of an addition. A subtraction is the addition of the complement, with the carry-in
complemented too (`subResult_eq_addResult_not`), so its laws come from those of the addition. -/

namespace Sys2Proof.Machine

section
variable {W : Nat}

/-! ## The results (R161) -/

theorem addResult_toNat (a b : BitVec W) (c : Bool) :
    (addResult a b c).toNat = (a.toNat + b.toNat + c.toNat) % 2 ^ W := BitVec.toNat_ofNat _ _

theorem subResult_toNat (a b : BitVec W) (c : Bool) :
    ((subResult a b c).toNat : Int) = ((a.toNat : Int) - b.toNat - c.toNat) % 2 ^ W := by
  have hne : (2 : Int) ^ W ≠ 0 := Int.pow_ne_zero (by decide)
  rw [subResult, BitVec.toNat_ofInt, Int.natCast_pow]
  exact Int.toNat_of_nonneg (Int.emod_nonneg _ hne)

/-- a − b − c = a + ¬b + ¬c modulo 2^W. -/
theorem subResult_eq_addResult_not (a b : BitVec W) (c : Bool) : subResult a b c = addResult a (~~~b) (!c) := by
  rw [subResult_borrow, addResult_carry, BitVec.not_eq_neg_add]
  cases c <;> simp only [BitVec.sub_eq_add_neg, BitVec.add_assoc, BitVec.add_left_neg, BitVec.neg_zero,
    BitVec.add_zero, Bool.not_false, Bool.not_true, Bool.toNat_false, Bool.toNat_true]

/-- The addition does not reach 2^W, or wraps once. -/
theorem addResult_toNat_cases (a b : BitVec W) (c : Bool) :
    (addResult a b c).toNat = a.toNat + b.toNat + c.toNat ∨
      (addResult a b c).toNat + 2 ^ W = a.toNat + b.toNat + c.toNat := by
  have ha := a.isLt
  have hb := b.isLt
  have hc := c.toNat_le
  rw [addResult_toNat]
  by_cases h : a.toNat + b.toNat + c.toNat < 2 ^ W
  · exact .inl (Nat.mod_eq_of_lt h)
  · rw [Nat.mod_eq_sub_mod (by omega), Nat.mod_eq_of_lt (by omega)]
    omega

/-! ## ZF, SF and PF (R163, R164, R168, R173) -/

theorem ite_getLsbD (r : BitVec W) (i : Nat) : (if r.getLsbD i then 1 else 0) = r.toNat / 2 ^ i % 2 := by
  rw [← Nat.toNat_testBit, BitVec.testBit_toNat]
  cases r.getLsbD i <;> rfl

theorem lowPopcount_eq_popcount8 (r : BitVec W) : lowPopcount r = popcount8 r.toNat := by
  have hrange : List.range 8 = [0, 1, 2, 3, 4, 5, 6, 7] := rfl
  simp only [lowPopcount, popcount8, hrange, List.countP_cons, List.countP_nil, ite_getLsbD, Nat.reducePow,
    Nat.div_one, Nat.zero_add]
  ac_rfl

theorem signFlag_eq_msb (r : BitVec W) : signFlag r = r.msb := (BitVec.msb_eq_getLsbD_last r).symm

/-- What `SetSZP` writes follows the result. -/
theorem setSZP_flagsOfResult (r : BitVec W) (f : Flags) : FlagsOfResult r (setSZP r f) := by
  refine ⟨?_, ?_, ?_⟩
  · simp [setSZP, zeroFlag, BitVec.toNat_eq]
  · simp [setSZP, signFlag_eq_msb, BitVec.msb_eq_decide]
  · simp [setSZP, parityFlag, lowPopcount_eq_popcount8]

/-! ## OF (R160, R165, R166) -/

theorem signMask_eq_twoPow (W : Nat) : signMask W = BitVec.twoPow W (W - 1) := by
  apply BitVec.eq_of_toNat_eq
  rw [signMask, BitVec.toNat_ofNat, BitVec.toNat_twoPow]

theorem signMask_ne_zero (hW : 0 < W) : signMask W ≠ 0#W := by
  simp [signMask_eq_twoPow, BitVec.toNat_eq, BitVec.toNat_twoPow_of_lt (Nat.sub_lt hW Nat.one_pos)]

/-- The mask selects the sign bit. -/
theorem and_signMask_ne_zero (hW : 0 < W) (x : BitVec W) : x &&& signMask W ≠ 0#W ↔ x.msb = true := by
  rw [BitVec.msb_eq_getLsbD_last, signMask_eq_twoPow, BitVec.and_twoPow, ← signMask_eq_twoPow]
  cases x.getLsbD (W - 1) with
  | false => simp
  | true => simp [signMask_ne_zero hW]

theorem msb_signMask (hW : 0 < W) : (signMask W).msb = true := by
  rw [← and_signMask_ne_zero hW, BitVec.and_self]
  exact signMask_ne_zero hW

theorem flagsAdd_OF_iff (hW : 0 < W) (a b : BitVec W) (c : Bool) (f : Flags) :
    (flagsAdd a b c f).OF = true ↔ a.msb = b.msb ∧ (addResult a b c).msb ≠ a.msb := by
  rw [flagsAdd, bne_iff_ne, and_signMask_ne_zero hW, BitVec.msb_and, BitVec.msb_xor, BitVec.msb_xor, BitVec.msb_xor,
    msb_signMask hW]
  cases a.msb <;> cases b.msb <;> simp

theorem flagsSub_OF_iff (hW : 0 < W) (a b : BitVec W) (c : Bool) (f : Flags) :
    (flagsSub a b c f).OF = true ↔ a.msb ≠ b.msb ∧ (subResult a b c).msb ≠ a.msb := by
  rw [flagsSub, bne_iff_ne, and_signMask_ne_zero hW, BitVec.msb_and, BitVec.msb_xor, BitVec.msb_xor]
  cases a.msb <;> cases b.msb <;> simp

/-- The operands have the same sign and the result the other one: the signed sum is out of range. -/
theorem addResult_overflow_iff (hW : 0 < W) (a b : BitVec W) (c : Bool) :
    (a.msb = b.msb ∧ (addResult a b c).msb ≠ a.msb) ↔ ¬InRange W (a.toInt + b.toInt + c.toNat) := by
  obtain ⟨n, rfl⟩ := Nat.exists_eq_add_one.mpr hW
  have ha := a.isLt
  have hb := b.isLt
  have hc := c.toNat_le
  have hr := addResult_toNat_cases a b c
  have hr' := (addResult a b c).isLt
  rw [Nat.pow_succ] at ha hb hr hr'
  have hpow : (2 : Int) ^ n = (2 ^ n : Nat) := by norm_cast
  simp only [InRange, BitVec.toInt_eq_msb_cond, BitVec.msb_eq_decide, Nat.add_sub_cancel, Nat.pow_succ, hpow, ne_eq,
    decide_eq_decide, decide_eq_true_eq]
  generalize 2 ^ n = M at *
  split <;> split <;> omega

/-- In signed values, ¬b = −b − 1. -/
theorem toInt_not_eq (hW : 0 < W) (b : BitVec W) : (~~~b).toInt = -b.toInt - 1 := by
  obtain ⟨n, rfl⟩ := Nat.exists_eq_add_one.mpr hW
  have hb := b.isLt
  rw [BitVec.toInt_eq_toNat_cond, BitVec.toInt_eq_toNat_cond, BitVec.toNat_not]
  split <;> split <;> omega

theorem subResult_overflow_iff (hW : 0 < W) (a b : BitVec W) (c : Bool) :
    (a.msb ≠ b.msb ∧ (subResult a b c).msb ≠ a.msb) ↔ ¬InRange W (a.toInt - b.toInt - c.toNat) := by
  have hmsb : a.msb ≠ b.msb ↔ a.msb = (~~~b).msb := by simp [BitVec.msb_not, hW, Bool.eq_not]
  have hsum : a.toInt - b.toInt - c.toNat = a.toInt + (~~~b).toInt + (!c).toNat := by
    rw [toInt_not_eq hW]
    cases c <;> simp <;> omega
  rw [hmsb, hsum, subResult_eq_addResult_not]
  exact addResult_overflow_iff hW a (~~~b) (!c)

/-! ## AF (R169) -/

/-- The carry out of the low nibble is what bit 4 of the sum adds to the operands' own bits. -/
theorem flagsAdd_AF_eq (hW : 4 < W) (a b : BitVec W) (c : Bool) (f : Flags) :
    (flagsAdd a b c f).AF = (a ^^^ b ^^^ addResult a b c).getLsbD 4 := by
  have hcarry : (flagsAdd a b c f).AF = BitVec.carry 4 a b c := rfl
  have hsum : addResult a b c = a + b + (BitVec.ofBool c).setWidth W := by
    rw [addResult_carry, ← BitVec.toNat_ofBool, BitVec.ofNat_toNat]
  rw [hcarry, hsum, BitVec.getLsbD_xor, BitVec.getLsbD_xor, BitVec.getLsbD_add_add_bool hW]
  cases a.getLsbD 4 <;> cases b.getLsbD 4 <;> simp

theorem lowNibble_not (hW : 4 ≤ W) (b : BitVec W) : lowNibble (~~~b) = 15 - lowNibble b := by
  have hb := b.isLt
  obtain ⟨n, rfl⟩ := Nat.exists_eq_add_of_le hW
  rw [Nat.pow_add] at hb
  simp only [lowNibble, BitVec.toNat_not, Nat.pow_add]
  omega

/-- The low nibbles borrow where those of the addition of the complement do not carry. -/
theorem flagsSub_AF_eq_not_flagsAdd (hW : 4 ≤ W) (a b : BitVec W) (c : Bool) (f : Flags) :
    (flagsSub a b c f).AF = !(flagsAdd a (~~~b) (!c) f).AF := by
  have hb : lowNibble b < 16 := Nat.mod_lt _ (by decide)
  simp only [flagsSub, flagsAdd, lowNibble_not hW]
  rw [← decide_not, decide_eq_decide]
  cases c <;> simp <;> omega

theorem flagsSub_AF_eq (hW : 4 < W) (a b : BitVec W) (c : Bool) (f : Flags) :
    (flagsSub a b c f).AF = (a ^^^ b ^^^ subResult a b c).getLsbD 4 := by
  rw [flagsSub_AF_eq_not_flagsAdd (Nat.le_of_lt hW), flagsAdd_AF_eq hW, subResult_eq_addResult_not]
  simp [hW]

end

/-! ## The obligations -/

/-- Settles O20: every clause at any width above 4. -/
theorem addEngine : Obligations.AddEngine := by
  intro W hW a b c f
  have hW4 : 4 < W := by omega
  have hW0 : 0 < W := by omega
  have hOF := flagsAdd_OF_iff hW0 a b c f
  exact ⟨addResult_toNat a b c, decide_eq_true_iff, setSZP_flagsOfResult _ f, bne_iff_ne,
    hOF.trans (addResult_overflow_iff hW0 a b c), decide_eq_true_iff, flagsAdd_AF_eq hW4 a b c f,
    rfl, rfl, rfl⟩

/-- Settles O21: as the addition, through the complement. -/
theorem subEngine : Obligations.SubEngine := by
  intro W hW a b c f
  have hW4 : 4 < W := by omega
  have hW0 : 0 < W := by omega
  have hOF := flagsSub_OF_iff hW0 a b c f
  exact ⟨subResult_toNat a b c, decide_eq_true_iff, setSZP_flagsOfResult _ f, bne_iff_ne,
    hOF.trans (subResult_overflow_iff hW0 a b c), decide_eq_true_iff, flagsSub_AF_eq hW4 a b c f,
    rfl, rfl, rfl⟩

/-- Settles O19: the addition without a carry-in at width 8. -/
theorem addFlagProperty : Obligations.AddFlagProperty := by
  intro a b f
  have hr : (addResult a b false).toNat = (a.toNat + b.toNat) % 256 := addResult_toNat a b false
  obtain ⟨hZF, hSF, hPF⟩ := setSZP_flagsOfResult (addResult a b false) f
  rw [hr] at hZF hSF hPF
  exact ⟨hZF, decide_eq_true_iff, hSF.trans (by omega), hPF⟩

/-- Settles O22: both write ZF, SF and PF by `SetSZP`. -/
theorem logicEngine : Obligations.LogicEngine := by
  intro W _ r f
  have hSZP := setSZP_flagsOfResult r f
  exact ⟨⟨hSZP, rfl, rfl, rfl, rfl, rfl, rfl⟩, hSZP, rfl, rfl, rfl, rfl, rfl, rfl⟩

end Sys2Proof.Machine
end

section
/-! Which byte streams decode to a row's form (`30_encoding.md` R101, R104): a row makes instructions that no other row
makes, so the form of what decodes and the literal bits that match name the same row. -/

namespace Sys2Proof

/-- The instructions that a shape makes. -/
def Shape.Makes : Shape → Instr → Prop
  | .rmr mk, i => ∃ d o, i = mk d o
  | .rmr0 mk, i => ∃ o, i = mk o
  | .rmi mk, i => ∃ o, i = mk o
  | .rmi0 mk, i => ∃ o, i = mk o
  | .acci mk, i => ∃ o, i = mk o
  | .rmxw mk, i => ∃ o, i = mk o
  | .rmx mk, i => ∃ rm, i = mk rm
  | .none j, i => i = j
  | .fix2 j, i => i = j
  | .rel16 mk, i => ∃ v, i = mk v
  | .fard mk, i => ∃ v v2, i = mk v v2

theorem Shape.makes_of_parse {sh : Shape} {bs rest : List Byte} {i : Instr} (h : sh.parse bs = some (i, rest)) :
    sh.Makes i := by
  unfold Shape.parse at h
  split at h <;>
    simp only [Option.map_eq_some_iff, Option.bind_eq_some_iff, Prod.exists, Prod.mk.injEq, Option.some.injEq,
      reduceCtorEq] at h
  case h_1 => obtain ⟨o, _, _, rfl, _⟩ := h; exact ⟨_, o, rfl⟩
  case h_2 | h_3 | h_4 | h_5 | h_6 | h_7 | h_10 => obtain ⟨o, _, _, rfl, _⟩ := h; exact ⟨o, rfl⟩
  case h_8 | h_9 => exact h.1.symm
  case h_11 => obtain ⟨v, _, _, v2, _, _, rfl, _⟩ := h; exact ⟨v, v2, rfl⟩

/-- The rows stand in the order of the constructors: the row in place `n` makes instructions of constructor `n`. -/
theorem opcodeTable_ctorIdx : ∀ p ∈ opcodeTable.zipIdx, ∀ i, p.1.shape.Makes i → i.ctorIdx = p.2 := by
  simp +contextual [opcodeTable, Shape.Makes, Instr.ctorIdx]

/-- No instruction is made by two rows. -/
theorem row_unique_of_makes {q r : Row} (hq : q ∈ opcodeTable) (hr : r ∈ opcodeTable) {i : Instr}
    (hqi : q.shape.Makes i) (hri : r.shape.Makes i) : q = r := by
  obtain ⟨j, hj⟩ := List.mem_iff_getElem?.mp hq
  obtain ⟨k, hk⟩ := List.mem_iff_getElem?.mp hr
  have hij := opcodeTable_ctorIdx (q, j) (List.mk_mem_zipIdx_iff_getElem?.mpr hj) i hqi
  have hik := opcodeTable_ctorIdx (r, k) (List.mk_mem_zipIdx_iff_getElem?.mpr hk) i hri
  have hjk : j = k := hij.symm.trans hik
  exact Option.some.inj (hj.symm.trans (hjk ▸ hk))

end Sys2Proof

namespace Sys2Proof.Machine

/-- What decodes has the form of a row of the table exactly if its bytes match the row's literal bits. -/
theorem encodedBy_row {n : Nat} {r : Row} (hrow : opcodeTable[n]? = some r) : EncodedBy r.shape.Makes r.fixed := by
  intro bs i rest hdecode
  have hr := List.mem_of_getElem? hrow
  obtain ⟨q, hq, hqrow⟩ := decode_matched_row hdecode
  rw [Row.decode, Option.ite_none_right_eq_some] at hqrow
  obtain ⟨hqfixed, hqparse⟩ := hqrow
  have hqi := Shape.makes_of_parse hqparse
  constructor
  · intro hri
    rwa [← row_unique_of_makes hq hr hqi hri]
  · intro hrfixed
    rwa [← row_unique hq hr hqfixed hrfixed]

/-- The three rows of a group-1 mnemonic stand together. -/
theorem group1Encoding_of_rows {n : Nat} {k : Byte} {ts ts' ts'' : List String} {rr : Dir → RmReg → Instr}
    {ai : AccImm → Instr} {ri : RmImmS → Instr}
    (hrr : opcodeTable[n]? = some ⟨ts, [(k <<< 3, 0xFC)], .rmr rr⟩)
    (hai : opcodeTable[n + 1]? = some ⟨ts', [(k <<< 3 ||| 0x04, 0xFE)], .acci ai⟩)
    (hri : opcodeTable[n + 2]? = some ⟨ts'', [(0x80, 0xFC), (k <<< 3, 0x38)], .rmi ri⟩) :
    Group1Encoding k rr ai ri :=
  ⟨encodedBy_row hrr, encodedBy_row hai, encodedBy_row hri⟩

end Sys2Proof.Machine
end

section
/-! Two-operand arithmetic and logic, and TEST (`42_alu.md`): every form is the common handler of R183 on the operands it
binds, so what the handler does (`aluTo8_writes` and its kin) is what the form does. -/

namespace Sys2Proof.Machine

/-- The instruction is the operation `op` on the operands `x`, of the operands' length. -/
def RunsAlu (op : AluOp) (i : Instr) (x : AluOperands) : Prop := i.len = x.len ∧ ∀ s, exec i s = .next (x.run op s)

/-- The forms `rr` (`RMR`), `ai` (`ACCI`) and `ri` (`RMI`) of a group-1 mnemonic run the operation `op`. -/
structure Group1Runs (op : AluOp) (rr : Dir → RmReg → Instr) (ai : AccImm → Instr) (ri : RmImmS → Instr) : Prop where
  rmReg : ∀ d o, RunsAlu op (rr d o) (.rmReg d o)
  accImm : ∀ o, RunsAlu op (ai o) (.accImm o)
  rmImmS : ∀ o, RunsAlu op (ri o) (.rmImmS o)

/-- Operands that bind a byte destination `dst` and a source value `b` run the handler on them. -/
theorem RunsAlu.exec_byte {op : AluOp} {i : Instr} {x : AluOperands} (h : RunsAlu op i x) {s : State}
    {dst : Loc Reg8} {b : Byte} (hx : x.run op s = aluTo8 op dst b x.len s) :
    exec i s = .next (aluTo8 op dst b i.len s) := by
  obtain ⟨hlen, hexec⟩ := h
  rw [hexec, hx, hlen]

theorem RunsAlu.exec_word {op : AluOp} {i : Instr} {x : AluOperands} (h : RunsAlu op i x) {s : State}
    {dst : Loc Reg16} {b : Word} (hx : x.run op s = aluTo16 op dst b x.len s) :
    exec i s = .next (aluTo16 op dst b i.len s) := by
  obtain ⟨hlen, hexec⟩ := h
  rw [hexec, hx, hlen]

section
variable {op : AluOp} {rr : Dir → RmReg → Instr} {ai : AccImm → Instr} {ri : RmImmS → Instr} {s : State} {i : Instr}

/-- A byte form runs the handler on the destination and the source value that the form binds (R180 to R182). -/
theorem Group1Runs.exec_byte (hg : Group1Runs op rr ai ri) {dst : Loc Reg8} {b : Byte}
    (h : AluByte rr ai ri s i dst b) : exec i s = .next (aluTo8 op dst b i.len s) := by
  cases h with
  | toRm rm reg => exact (hg.rmReg _ _).exec_byte rfl
  | toReg rm reg => exact (hg.rmReg _ _).exec_byte rfl
  | acc v => exact (hg.accImm _).exec_byte rfl
  | imm sx rm v => exact (hg.rmImmS _).exec_byte rfl

theorem Group1Runs.exec_word (hg : Group1Runs op rr ai ri) {dst : Loc Reg16} {b : Word}
    (h : AluWord rr ai ri s i dst b) : exec i s = .next (aluTo16 op dst b i.len s) := by
  cases h with
  | toRm rm reg => exact (hg.rmReg _ _).exec_word rfl
  | toReg rm reg => exact (hg.rmReg _ _).exec_word rfl
  | acc v => exact (hg.accImm _).exec_word rfl
  | imm rm v => exact (hg.rmImmS _).exec_word rfl
  | immSext rm v => exact (hg.rmImmS _).exec_word rfl

/-! ## Operations that write back, and operations that write flags only -/

theorem byteRuns_of_exec (hw : op.writesBack = true) {dst : Loc Reg8} {b : Byte}
    (h : exec i s = .next (aluTo8 op dst b i.len s)) :
    ByteRuns i s dst (storedResult op s.flags 8 (s.get8 dst) b) (op.flags (s.get8 dst) b s.flags) := by
  obtain ⟨hdst, honly⟩ := aluTo8_writes op dst b i.len s hw
  rw [result_eq_storedResult] at hdst
  exact ⟨_, h, hdst, aluTo8_flags op dst b i.len s, aluTo8_ip op dst b i.len s, honly⟩

theorem wordRuns_of_exec (hw : op.writesBack = true) {dst : Loc Reg16} {b : Word}
    (h : exec i s = .next (aluTo16 op dst b i.len s)) :
    WordRuns i s dst (storedResult op s.flags 16 (s.get16 dst) b) (op.flags (s.get16 dst) b s.flags) := by
  obtain ⟨hdst, honly⟩ := aluTo16_writes op dst b i.len s hw
  rw [result_eq_storedResult] at hdst
  exact ⟨_, h, hdst, aluTo16_flags op dst b i.len s, aluTo16_ip op dst b i.len s, honly⟩

theorem flagsRun_of_exec_byte (hw : op.writesBack = false) {dst : Loc Reg8} {b : Byte}
    (h : exec i s = .next (aluTo8 op dst b i.len s)) : FlagsRun i s (op.flags (s.get8 dst) b s.flags) :=
  ⟨_, h, aluTo8_flags op dst b i.len s, aluTo8_ip op dst b i.len s, aluTo8_discards op dst b i.len s hw⟩

theorem flagsRun_of_exec_word (hw : op.writesBack = false) {dst : Loc Reg16} {b : Word}
    (h : exec i s = .next (aluTo16 op dst b i.len s)) : FlagsRun i s (op.flags (s.get16 dst) b s.flags) :=
  ⟨_, h, aluTo16_flags op dst b i.len s, aluTo16_ip op dst b i.len s, aluTo16_discards op dst b i.len s hw⟩

/-- All forms of a group-1 mnemonic whose operation writes back. -/
theorem Group1Runs.aluRuns (hg : Group1Runs op rr ai ri) (hw : op.writesBack = true) :
    AluRuns rr ai ri (fun W a b f => storedResult op f W a b) (fun _ a b f => op.flags a b f) :=
  ⟨fun _ _ _ _ h => byteRuns_of_exec hw (hg.exec_byte h), fun _ _ _ _ h => wordRuns_of_exec hw (hg.exec_word h)⟩

end

/-! ## The mnemonics -/

theorem add_group1Runs : Group1Runs .add .addRmReg .addAccImm .addRmImm :=
  ⟨fun _ _ => ⟨rfl, fun _ => rfl⟩, fun _ => ⟨rfl, fun _ => rfl⟩, fun _ => ⟨rfl, fun _ => rfl⟩⟩

theorem or_group1Runs : Group1Runs .or .orRmReg .orAccImm .orRmImm :=
  ⟨fun _ _ => ⟨rfl, fun _ => rfl⟩, fun _ => ⟨rfl, fun _ => rfl⟩, fun _ => ⟨rfl, fun _ => rfl⟩⟩

theorem adc_group1Runs : Group1Runs .adc .adcRmReg .adcAccImm .adcRmImm :=
  ⟨fun _ _ => ⟨rfl, fun _ => rfl⟩, fun _ => ⟨rfl, fun _ => rfl⟩, fun _ => ⟨rfl, fun _ => rfl⟩⟩

theorem sbb_group1Runs : Group1Runs .sbb .sbbRmReg .sbbAccImm .sbbRmImm :=
  ⟨fun _ _ => ⟨rfl, fun _ => rfl⟩, fun _ => ⟨rfl, fun _ => rfl⟩, fun _ => ⟨rfl, fun _ => rfl⟩⟩

theorem and_group1Runs : Group1Runs .and .andRmReg .andAccImm .andRmImm :=
  ⟨fun _ _ => ⟨rfl, fun _ => rfl⟩, fun _ => ⟨rfl, fun _ => rfl⟩, fun _ => ⟨rfl, fun _ => rfl⟩⟩

theorem sub_group1Runs : Group1Runs .sub .subRmReg .subAccImm .subRmImm :=
  ⟨fun _ _ => ⟨rfl, fun _ => rfl⟩, fun _ => ⟨rfl, fun _ => rfl⟩, fun _ => ⟨rfl, fun _ => rfl⟩⟩

theorem xor_group1Runs : Group1Runs .xor .xorRmReg .xorAccImm .xorRmImm :=
  ⟨fun _ _ => ⟨rfl, fun _ => rfl⟩, fun _ => ⟨rfl, fun _ => rfl⟩, fun _ => ⟨rfl, fun _ => rfl⟩⟩

theorem cmp_group1Runs : Group1Runs .cmp .cmpRmReg .cmpAccImm .cmpRmImm :=
  ⟨fun _ _ => ⟨rfl, fun _ => rfl⟩, fun _ => ⟨rfl, fun _ => rfl⟩, fun _ => ⟨rfl, fun _ => rfl⟩⟩

/-! ## The obligations. The numbers are those of the rows of the opcode table. -/

/-- Settles O23: the operation `add` of the common handler, whose result is `a + b`. -/
theorem addMeaning : Obligations.AddMeaning :=
  ⟨group1Encoding_of_rows (n := 0) rfl rfl rfl, add_group1Runs.aluRuns rfl⟩

/-- Settles O24: the operation `or` of the common handler. -/
theorem orMeaning : Obligations.OrMeaning :=
  ⟨group1Encoding_of_rows (n := 3) rfl rfl rfl, or_group1Runs.aluRuns rfl⟩

/-- Settles O25: the operation `adc` of the common handler, which reads CF before it writes the flags. -/
theorem adcMeaning : Obligations.AdcMeaning :=
  ⟨group1Encoding_of_rows (n := 6) rfl rfl rfl, adc_group1Runs.aluRuns rfl⟩

/-- Settles O26: the operation `sbb` of the common handler, which reads CF before it writes the flags. -/
theorem sbbMeaning : Obligations.SbbMeaning :=
  ⟨group1Encoding_of_rows (n := 9) rfl rfl rfl, sbb_group1Runs.aluRuns rfl⟩

/-- Settles O27: the operation `and` of the common handler. -/
theorem andMeaning : Obligations.AndMeaning :=
  ⟨group1Encoding_of_rows (n := 12) rfl rfl rfl, and_group1Runs.aluRuns rfl⟩

/-- Settles O28: the operation `sub` of the common handler, whose result is `a - b`. -/
theorem subMeaning : Obligations.SubMeaning :=
  ⟨group1Encoding_of_rows (n := 15) rfl rfl rfl, sub_group1Runs.aluRuns rfl⟩

/-- Settles O29: the operation `xor` of the common handler. -/
theorem xorMeaning : Obligations.XorMeaning :=
  ⟨group1Encoding_of_rows (n := 18) rfl rfl rfl, xor_group1Runs.aluRuns rfl⟩

/-- Settles O30: the operation `cmp` of the common handler discards its result. -/
theorem cmpMeaning : Obligations.CmpMeaning :=
  ⟨group1Encoding_of_rows (n := 21) rfl rfl rfl,
    fun _ _ _ _ h => flagsRun_of_exec_byte rfl (cmp_group1Runs.exec_byte h),
    fun _ _ _ _ h => flagsRun_of_exec_word rfl (cmp_group1Runs.exec_word h)⟩

/-- Settles O31: the operation `test` of the common handler discards its result, in each of the six forms. -/
theorem testMeaning : Obligations.TestMeaning := by
  refine ⟨⟨encodedBy_row (n := 24) rfl, encodedBy_row (n := 25) rfl, encodedBy_row (n := 26) rfl⟩,
    fun s => ⟨fun rm reg => ?_, fun rm reg => ?_, fun v => ?_, fun v => ?_, fun rm v => ?_, fun rm v => ?_⟩⟩
  · exact flagsRun_of_exec_byte (op := .test) (dst := s.rmLoc rm) rfl rfl
  · exact flagsRun_of_exec_word (op := .test) (dst := s.rmLoc rm) rfl rfl
  · exact flagsRun_of_exec_byte (op := .test) (dst := .reg .al) rfl rfl
  · exact flagsRun_of_exec_word (op := .test) (dst := .reg .ax) rfl rfl
  · exact flagsRun_of_exec_byte (op := .test) (dst := s.rmLoc rm) rfl rfl
  · exact flagsRun_of_exec_word (op := .test) (dst := s.rmLoc rm) rfl rfl

end Sys2Proof.Machine
end

section
/-! What comparisons and wide additions are for: the orders after CMP, and 32-bit sums from ADD and ADC. -/

namespace Sys2Proof.Machine

/-! ## The orders that a subtraction's flags decide (`41_flag_engine.md` R162, R163, R166) -/

section
variable {W : Nat}

theorem flagsSub_ZF_iff (a b : BitVec W) (f : Flags) : (flagsSub a b false f).ZF = true ↔ a = b := by
  have hZF : (flagsSub a b false f).ZF = (subResult a b false == 0#W) := rfl
  rw [hZF, subResult_false, beq_iff_eq, BitVec.sub_eq_iff_eq_add, BitVec.zero_add]

theorem flagsSub_CF_iff (a b : BitVec W) (f : Flags) : (flagsSub a b false f).CF = true ↔ a.toNat < b.toNat :=
  decide_eq_true_iff

/-- The difference does not go below zero, or wraps once. -/
theorem sub_toNat_cases (a b : BitVec W) :
    (a - b).toNat + b.toNat = a.toNat ∨ (a - b).toNat + b.toNat = a.toNat + 2 ^ W := by
  have hb := b.isLt
  rcases Nat.lt_or_ge a.toNat b.toNat with hlt | hge
  · rw [BitVec.toNat_sub_of_lt hlt]
    omega
  · rw [BitVec.toNat_sub_of_le hge]
    omega

/-- SF is the sign of the true difference, unless the difference is out of range: then it is the other one. -/
theorem flagsSub_SF_ne_OF_iff (hW : 0 < W) (a b : BitVec W) (f : Flags) :
    (flagsSub a b false f).SF ≠ (flagsSub a b false f).OF ↔ a.toInt < b.toInt := by
  have hSF : (flagsSub a b false f).SF = (a - b).msb := by rw [← signFlag_eq_msb, ← subResult_false]; rfl
  obtain ⟨n, rfl⟩ := Nat.exists_eq_add_one.mpr hW
  have ha := a.isLt
  have hb := b.isLt
  have hr := (a - b).isLt
  have hcases := sub_toNat_cases a b
  rw [Ne, Bool.eq_iff_iff, flagsSub_OF_iff hW, hSF, subResult_false]
  simp only [BitVec.toInt_eq_msb_cond, BitVec.msb_eq_decide, Nat.add_sub_cancel, Nat.pow_succ, ne_eq,
    decide_eq_decide, decide_eq_true_eq] at *
  generalize 2 ^ n = M at *
  split <;> split <;> omega

end

/-- Settles O49: the flags are those of the subtraction without a borrow-in, whatever the form. -/
theorem compareOrders : Obligations.CompareOrders := by
  refine ⟨fun s i dst b h => ?_, fun s i dst b h => ?_⟩
  · refine ⟨_, cmp_group1Runs.exec_byte h, ?_⟩
    rw [aluTo8_flags]
    exact ⟨flagsSub_ZF_iff _ b _, flagsSub_CF_iff _ b _, flagsSub_SF_ne_OF_iff (by decide) _ b _⟩
  · refine ⟨_, cmp_group1Runs.exec_word h, ?_⟩
    rw [aluTo16_flags]
    exact ⟨flagsSub_ZF_iff _ b _, flagsSub_CF_iff _ b _, flagsSub_SF_ne_OF_iff (by decide) _ b _⟩

/-! ## 32-bit sums in two halves -/

theorem append_toNat (hi lo : Word) : (hi ++ lo).toNat = 65536 * hi.toNat + lo.toNat := by
  rw [BitVec.toNat_append, ← Nat.shiftLeft_add_eq_or_of_lt lo.isLt, Nat.shiftLeft_eq, Nat.mul_comm]

theorem append_toInt (hi lo : Word) : (hi ++ lo).toInt = 65536 * hi.toInt + lo.toNat := BitVec.toInt_append

section
variable (ah al bh bl : Word) (f g : Flags)

/-- The carry out of the low halves is what they add up to beyond their 16 bits. -/
theorem low_sum_carry : (al + bl).toNat + 65536 * (flagsAdd al bl false f).CF.toNat = al.toNat + bl.toNat := by
  have hal := al.isLt
  have hbl := bl.isLt
  have hCF : (flagsAdd al bl false f).CF = decide (al.toNat + bl.toNat > 65535) := rfl
  rw [hCF, BitVec.toNat_add]
  rcases Nat.lt_or_ge 65535 (al.toNat + bl.toNat) with h | h
  · rw [decide_eq_true h, Bool.toNat_true]
    omega
  · rw [decide_eq_false (Nat.not_lt.mpr h), Bool.toNat_false]
    omega

theorem append_add_append :
    (ah + bh + BitVec.ofNat 16 (flagsAdd al bl false f).CF.toNat) ++ (al + bl) = (ah ++ al) + (bh ++ bl) := by
  apply BitVec.eq_of_toNat_eq
  have hlow := low_sum_carry al bl f
  have hl := (al + bl).isLt
  rw [append_toNat, BitVec.toNat_add (ah ++ al), append_toNat, append_toNat, BitVec.toNat_add, BitVec.toNat_add,
    BitVec.toNat_ofNat]
  omega

theorem high_sum_CF_iff :
    (flagsAdd ah bh (flagsAdd al bl false f).CF g).CF = true ↔ (ah ++ al).toNat + (bh ++ bl).toNat ≥ 2 ^ 32 := by
  have hlow := low_sum_carry al bl f
  have hl := (al + bl).isLt
  rw [append_toNat, append_toNat, flagsAdd, decide_eq_true_iff]
  omega

theorem high_sum_OF_iff :
    (flagsAdd ah bh (flagsAdd al bl false f).CF g).OF = true ↔ ¬InRange 32 ((ah ++ al).toInt + (bh ++ bl).toInt) := by
  have hlow := low_sum_carry al bl f
  have hl := (al + bl).isLt
  rw [flagsAdd_OF_iff (by decide), addResult_overflow_iff (by decide), append_toInt, append_toInt]
  refine not_congr ?_
  rw [InRange, InRange]
  omega

end

/-- Settles O48: ADD leaves DX and puts the carry of the low words into CF, ADC counts it and leaves AX. -/
theorem wideAddition : Obligations.WideAddition := by
  intro s lo hi
  have hrunsAdd := wordRuns_of_exec rfl (add_group1Runs.exec_word (.imm (s := s) (.reg .ax) lo))
  obtain ⟨t, hadd, htax, htflags, -, htregs, -⟩ := hrunsAdd
  have hrunsAdc := wordRuns_of_exec rfl (adc_group1Runs.exec_word (.imm (s := t) (.reg .dx) hi))
  obtain ⟨u, hadc, hudx, huflags, -, huregs, -⟩ := hrunsAdc
  have htax : t.reg16 .ax = s.reg16 .ax + lo := htax
  have htdx : t.reg16 .dx = s.reg16 .dx := htregs .dx (by simp [State.rmLoc])
  have htflags : t.flags = flagsAdd (s.reg16 .ax) lo false s.flags := htflags
  have hudx : u.reg16 .dx = t.reg16 .dx + hi + BitVec.ofNat 16 t.flags.CF.toNat := hudx
  have huax : u.reg16 .ax = t.reg16 .ax := huregs .ax (by simp [State.rmLoc])
  have huflags : u.flags = flagsAdd (t.reg16 .dx) hi t.flags.CF t.flags := huflags
  refine ⟨t, u, hadd, hadc, ?_, ?_, ?_⟩
  · rw [hudx, huax, htax, htdx, htflags]
    exact append_add_append _ _ hi lo s.flags
  · rw [huflags, htdx, htflags]
    exact high_sum_CF_iff _ _ hi lo s.flags _
  · rw [huflags, htdx, htflags]
    exact high_sum_OF_iff _ _ hi lo s.flags _

end Sys2Proof.Machine
end

section
/-! Decimal arithmetic on two digits (`42_alu.md` R186, R187 with `44_decimal_adjust.md` R212, R213): the tests of DAA and
DAS say which digit of the sum or difference carries or borrows, and the corrections put it back below ten. -/

namespace Sys2Proof.Machine

/-! ## DAA and DAS as the common end of the decimal adjusts -/

/-- The test of the second correction of DAA and DAS: "old_AL > 0x99 or old_CF set". -/
def needsHighAdjust (s : State) : Bool := decide ((s.reg8 .al).toNat > 0x99) || s.flags.CF

theorem execDaa_eq (s : State) :
    execDaa s = .next (decimalAdjust
      (s.reg8 .al + (if needsNibbleAdjust s then 6 else 0) + (if needsHighAdjust s then 0x60 else 0))
      (needsHighAdjust s) (needsNibbleAdjust s) s) := by
  unfold execDaa
  change Host.Outcome.next (decimalAdjust (if needsHighAdjust s then _ else _) (needsHighAdjust s) _ s) = _
  cases needsNibbleAdjust s <;> cases needsHighAdjust s <;> simp

theorem execDas_eq (s : State) :
    execDas s = .next (decimalAdjust
      (s.reg8 .al - (if needsNibbleAdjust s then 6 else 0) - (if needsHighAdjust s then 0x60 else 0))
      (needsHighAdjust s || needsNibbleAdjust s && (s.flags.CF || decide ((s.reg8 .al).toNat < 6)))
      (needsNibbleAdjust s) s) := by
  unfold execDas
  change Host.Outcome.next (decimalAdjust (if needsHighAdjust s then _ else _) (needsHighAdjust s || _) _ s) = _
  cases needsNibbleAdjust s <;> cases needsHighAdjust s <;> simp

/-! ## Digits -/

/-- A byte is a pair of decimal digits if those are its nibbles, and the digits give its value. -/
theorem isBcd_of_digits {r : Byte} {tens ones : Nat} (hr : r.toNat = 16 * tens + ones) (htens : tens ≤ 9)
    (hones : ones ≤ 9) : IsBcd r ∧ bcdValue r = 10 * tens + ones := by
  simp only [IsBcd, bcdValue, hr]
  omega

/-- A test as the digit that it carries or borrows. -/
theorem toNat_of_iff {x : Bool} {p : Prop} (h : x = true ↔ p) : x.toNat = 1 ∧ p ∨ x.toNat = 0 ∧ ¬p := by
  cases x with
  | true => exact .inl ⟨rfl, h.mp rfl⟩
  | false => exact .inr ⟨rfl, fun hp => Bool.false_ne_true (h.mpr hp)⟩

theorem ite_6_toNat (x : Bool) : (if x then (6 : Byte) else 0).toNat = 6 * x.toNat := by cases x <;> rfl

theorem ite_0x60_toNat (x : Bool) : (if x then (0x60 : Byte) else 0).toNat = 0x60 * x.toNat := by cases x <;> rfl

/-! ## Addition -/

section
variable {t : State} {a b : Byte} {c : Bool} {f : Flags}

theorem needsNibbleAdjust_of_add (hal : t.reg8 .al = addResult a b c) (hflags : t.flags = flagsAdd a b c f) :
    needsNibbleAdjust t = true ↔ a.toNat % 16 + b.toNat % 16 + c.toNat > 9 := by
  have hr : (addResult a b c).toNat % 16 = (a.toNat % 16 + b.toNat % 16 + c.toNat) % 16 := by
    rw [addResult_toNat]
    omega
  have hc := c.toNat_le
  rw [needsNibbleAdjust, hal, hflags, flagsAdd, Bool.or_eq_true, decide_eq_true_iff, decide_eq_true_iff, lowNibble,
    lowNibble, lowNibble]
  omega

theorem needsHighAdjust_of_add (hal : t.reg8 .al = addResult a b c) (hflags : t.flags = flagsAdd a b c f)
    (ha : IsBcd a) (hb : IsBcd b) : needsHighAdjust t = true ↔ bcdValue a + bcdValue b + c.toNat > 99 := by
  have hr := addResult_toNat a b c
  have hc := c.toNat_le
  obtain ⟨ha10, ha1⟩ := ha
  obtain ⟨hb10, hb1⟩ := hb
  simp only [needsHighAdjust, hal, hflags, flagsAdd, bcdValue, Bool.or_eq_true, decide_eq_true_eq]
  omega

/-- The corrected sum: both digits are below ten, and what they write is the sum but for the carry. -/
theorem bcdValue_corrected_add (ha : IsBcd a) (hb : IsBcd b) {low high : Bool} {r : Byte}
    (hlow : low = true ↔ a.toNat % 16 + b.toNat % 16 + c.toNat > 9)
    (hhigh : high = true ↔ bcdValue a + bcdValue b + c.toNat > 99)
    (hr : r = addResult a b c + (if low then 6 else 0) + (if high then 0x60 else 0)) :
    IsBcd r ∧ bcdValue r + 100 * high.toNat = bcdValue a + bcdValue b + c.toNat := by
  have hc := c.toNat_le
  obtain ⟨ha10, ha1⟩ := ha
  obtain ⟨hb10, hb1⟩ := hb
  rw [bcdValue, bcdValue] at hhigh
  have hlow := toNat_of_iff hlow
  have hhigh := toNat_of_iff hhigh
  have hdigits : r.toNat = 16 * (a.toNat / 16 + b.toNat / 16 + low.toNat - 10 * high.toNat) +
      (a.toNat % 16 + b.toNat % 16 + c.toNat - 10 * low.toNat) := by
    rw [hr, BitVec.toNat_add, BitVec.toNat_add, addResult_toNat, Nat.mod_add_mod, ite_6_toNat,
      ite_0x60_toNat]
    omega
  obtain ⟨hbcd, hvalue⟩ := isBcd_of_digits hdigits (by omega) (by omega)
  refine ⟨hbcd, ?_⟩
  rw [hvalue, bcdValue, bcdValue]
  omega

end

/-! ## Subtraction -/

section
variable {t : State} {a b : Byte} {c : Bool} {f : Flags}

theorem needsNibbleAdjust_of_sub (hal : t.reg8 .al = subResult a b c) (hflags : t.flags = flagsSub a b c f)
    (ha : IsBcd a) : needsNibbleAdjust t = true ↔ a.toNat % 16 < b.toNat % 16 + c.toNat := by
  have hr : ((subResult a b c).toNat % 16 : Int) = ((a.toNat % 16 : Int) - b.toNat % 16 - c.toNat) % 16 := by
    rw [subResult_toNat]
    omega
  have hc := c.toNat_le
  have ha1 := ha.2
  rw [needsNibbleAdjust, hal, hflags, flagsSub, Bool.or_eq_true, decide_eq_true_iff, decide_eq_true_iff, lowNibble,
    lowNibble, lowNibble]
  omega

theorem needsHighAdjust_of_sub (hal : t.reg8 .al = subResult a b c) (hflags : t.flags = flagsSub a b c f)
    (ha : IsBcd a) : needsHighAdjust t = true ↔ a.toNat < b.toNat + c.toNat := by
  have hr := subResult_toNat a b c
  obtain ⟨ha10, ha1⟩ := ha
  simp only [needsHighAdjust, hal, hflags, flagsSub, Bool.or_eq_true, decide_eq_true_eq]
  omega

/-- CF after DAS: where the low digits borrow and the numbers do not, at least 6 is left to take the first correction
from. -/
theorem dasCarry_of_sub (hal : t.reg8 .al = subResult a b c) (hflags : t.flags = flagsSub a b c f) (ha : IsBcd a)
    (hb : IsBcd b) :
    (needsHighAdjust t || needsNibbleAdjust t && (t.flags.CF || decide ((t.reg8 .al).toNat < 6))) =
      needsHighAdjust t := by
  have hr := subResult_toNat a b c
  have hc := c.toNat_le
  have hb1 := hb.2
  have hlow := needsNibbleAdjust_of_sub hal hflags ha
  have hhigh := needsHighAdjust_of_sub hal hflags ha
  have hCF : t.flags.CF = true ↔ a.toNat < b.toNat + c.toNat := by rw [hflags]; exact decide_eq_true_iff
  rw [Bool.or_eq_left_iff_imp, Bool.and_eq_true, Bool.or_eq_true, decide_eq_true_eq, hlow, hhigh, hCF, hal]
  omega

/-- The corrected difference: both digits are below ten, and what they write is the difference but for the borrow. -/
theorem bcdValue_corrected_sub (ha : IsBcd a) (hb : IsBcd b) {low high : Bool} {r : Byte}
    (hlow : low = true ↔ a.toNat % 16 < b.toNat % 16 + c.toNat) (hhigh : high = true ↔ a.toNat < b.toNat + c.toNat)
    (hr : r = subResult a b c - (if low then 6 else 0) - (if high then 0x60 else 0)) :
    IsBcd r ∧ bcdValue r + bcdValue b + c.toNat = bcdValue a + 100 * high.toNat := by
  have hc := c.toNat_le
  obtain ⟨ha10, ha1⟩ := ha
  obtain ⟨hb10, hb1⟩ := hb
  have hlow := toNat_of_iff hlow
  have hhigh := toNat_of_iff hhigh
  have hsub := subResult_toNat a b c
  have hdigits : r.toNat = 16 * (a.toNat / 16 + 10 * high.toNat - b.toNat / 16 - low.toNat) +
      (a.toNat % 16 + 10 * low.toNat - b.toNat % 16 - c.toNat) := by
    rw [hr, BitVec.toNat_sub, BitVec.toNat_sub, Nat.add_mod_mod, ite_6_toNat, ite_0x60_toNat]
    omega
  obtain ⟨hbcd, hvalue⟩ := isBcd_of_digits hdigits (by omega) (by omega)
  refine ⟨hbcd, ?_⟩
  rw [hvalue, bcdValue, bcdValue]
  omega

end

/-! ## The obligations -/

/-- Settles O45: DAA's two tests ask whether the low digits pass nine and the numbers pass ninety-nine. -/
theorem decimalAddition : Obligations.DecimalAddition := by
  intro s b ha hb
  let t := aluTo8 .adc (.reg .al) b 2 s
  have hal : t.reg8 .al = addResult (s.reg8 .al) b s.flags.CF := (aluTo8_writes .adc (.reg .al) b 2 s rfl).1
  have hflags : t.flags = flagsAdd (s.reg8 .al) b s.flags.CF s.flags := aluTo8_flags .adc (.reg .al) b 2 s
  have hlow := needsNibbleAdjust_of_add hal hflags
  have hhigh := needsHighAdjust_of_add hal hflags ha hb
  refine ⟨t, _, adc_group1Runs.exec_byte (.acc b), execDaa_eq t, ?_⟩
  obtain ⟨hr, -, hf, -⟩ := decimalAdjust_spec _ (needsHighAdjust t) (needsNibbleAdjust t) t
  rw [hr, hf, hal]
  exact bcdValue_corrected_add ha hb hlow hhigh rfl

/-- Settles O46: DAS's two tests ask whether the low digits and the numbers borrow, and CF says the latter. -/
theorem decimalSubtraction : Obligations.DecimalSubtraction := by
  intro s b ha hb
  let t := aluTo8 .sbb (.reg .al) b 2 s
  have hal : t.reg8 .al = subResult (s.reg8 .al) b s.flags.CF := (aluTo8_writes .sbb (.reg .al) b 2 s rfl).1
  have hflags : t.flags = flagsSub (s.reg8 .al) b s.flags.CF s.flags := aluTo8_flags .sbb (.reg .al) b 2 s
  have hlow := needsNibbleAdjust_of_sub hal hflags ha
  have hhigh := needsHighAdjust_of_sub hal hflags ha
  refine ⟨t, _, sbb_group1Runs.exec_byte (.acc b), execDas_eq t, ?_⟩
  rw [dasCarry_of_sub hal hflags ha hb]
  obtain ⟨hr, -, hf, -⟩ := decimalAdjust_spec _ (needsHighAdjust t) (needsNibbleAdjust t) t
  rw [hr, hf, hal]
  exact bcdValue_corrected_sub ha hb hlow hhigh rfl

end Sys2Proof.Machine
end

section
/-! MOV (`43_mov.md` R200, R201): every form is a `Set` of its destination followed by the move of IP, so what `Set`
does (`set8_only` and its kin) is what the form does. -/

namespace Sys2Proof.Machine

section
variable {i : Instr} {s : State}

/-- An instruction that sets a byte location and moves IP past itself completes, with the flags kept. -/
theorem byteRuns_of_exec_set8 {dst : Loc Reg8} {b : Byte} (h : exec i s = .next ((s.set8 dst b).advance i.len)) :
    ByteRuns i s dst b s.flags := by
  have hdst : ((s.set8 dst b).advance i.len).get8 dst = b := by rw [advance_get8, set8_get8]
  exact ⟨_, h, hdst, by simp, by simp, (set8_only s dst b).advance i.len⟩

/-- The same for a word location. -/
theorem wordRuns_of_exec_set16 {dst : Loc Reg16} {b : Word} (h : exec i s = .next ((s.set16 dst b).advance i.len)) :
    WordRuns i s dst b s.flags := by
  have hdst : ((s.set16 dst b).advance i.len).get16 dst = b := by rw [advance_get16, set16_get16]
  exact ⟨_, h, hdst, by simp, by simp, (set16_only s dst b).advance i.len⟩

end

/-- Settles O32: rows 27 and 28 of the opcode table, and one `Set` in each of the six forms. -/
theorem movMeaning : Obligations.MovMeaning := by
  refine ⟨⟨encodedBy_row (n := 27) rfl, encodedBy_row (n := 28) rfl⟩,
    fun s => ⟨fun rm reg => ?_, fun rm reg => ?_, fun rm reg => ?_, fun rm reg => ?_, fun rm v => ?_, fun rm v => ?_⟩⟩
  · exact byteRuns_of_exec_set8 (dst := s.rmLoc rm) rfl
  · exact byteRuns_of_exec_set8 (dst := .reg reg) rfl
  · exact wordRuns_of_exec_set16 (dst := s.rmLoc rm) rfl
  · exact wordRuns_of_exec_set16 (dst := .reg reg) rfl
  · exact byteRuns_of_exec_set8 (dst := s.rmLoc rm) rfl
  · exact wordRuns_of_exec_set16 (dst := s.rmLoc rm) rfl

end Sys2Proof.Machine
end

section
/-! Decimal and ASCII adjust (`44_decimal_adjust.md` R210 to R215): each instruction is the common end of its pair on
values that it computes from AL and AH, so what that end does (`asciiAdjust_spec` and its kin) is what the instruction
does. -/

namespace Sys2Proof.Machine

/-! ## The obligations. The numbers are those of the rows of the opcode table. -/

/-- Settles O33: both instructions end in `asciiAdjust`, whatever the test of AL and AF says. -/
theorem asciiAdjustMeaning : Obligations.AsciiAdjustMeaning := by
  refine ⟨⟨encodedBy_row (n := 31) rfl, encodedBy_row (n := 32) rfl⟩, fun s => ⟨?_, ?_⟩⟩
  · exact ⟨_, execAaa_eq s, asciiAdjust_spec ..⟩
  · exact ⟨_, execAas_eq s, asciiAdjust_spec ..⟩

/-- Settles O34: CF and AF are the two tests, and the corrections are those that the tests ask for. -/
theorem daaMeaning : Obligations.DaaMeaning :=
  ⟨encodedBy_row (n := 29) rfl, fun s => ⟨_, execDaa_eq s, decimalAdjust_spec ..⟩⟩

/-- Settles O35: CF is the second test or the borrow of the first correction. -/
theorem dasMeaning : Obligations.DasMeaning := by
  refine ⟨encodedBy_row (n := 30) rfl, fun s => ?_⟩
  simp only [Bool.if_true_left, Bool.decide_eq_true]
  exact ⟨_, execDas_eq s, decimalAdjust_spec ..⟩

/-! ## The base-10 quotient and remainder of a byte -/

theorem ofNat_div_10_toNat (v : Byte) : (BitVec.ofNat 8 (v.toNat / 10)).toNat = v.toNat / 10 := by
  have hlt := v.isLt
  exact Nat.mod_eq_of_lt (by omega)

theorem ofNat_mod_10_toNat (v : Byte) : (BitVec.ofNat 8 (v.toNat % 10)).toNat = v.toNat % 10 :=
  Nat.mod_eq_of_lt (by omega)

/-- Settles O36: quotient and remainder of a byte by ten fit a byte, and the remainder is too small for a sign. -/
theorem radixAdjustMeaning : Obligations.RadixAdjustMeaning := by
  refine ⟨⟨encodedBy_row (n := 33) rfl, encodedBy_row (n := 34) rfl⟩, fun s => ⟨?_, ?_⟩⟩
  · have hrem := ofNat_mod_10_toNat (s.reg8 .al)
    obtain ⟨hal, hah, hflags, hip, honly⟩ := radixAdjust_spec (BitVec.ofNat 8 ((s.reg8 .al).toNat % 10))
      (BitVec.ofNat 8 ((s.reg8 .al).toNat / 10)) s
    obtain ⟨hZF, hSF, -⟩ := setSZP_flagsOfResult (BitVec.ofNat 8 ((s.reg8 .al).toNat % 10)) s.flags
    rw [← hflags, hrem] at hZF hSF
    refine ⟨_, rfl, ?_, ?_, ?_, ?_, hZF, hip, honly⟩
    · rw [hah, ofNat_div_10_toNat]
    · rw [hal, hrem]
    · rw [hal, hflags]
    · rw [← Bool.not_eq_true, hSF]
      omega
  · obtain ⟨hal, hah, hflags, hip, honly⟩ := radixAdjust_spec
      (BitVec.ofNat 8 ((s.reg8 .ah).toNat * 10 + (s.reg8 .al).toNat)) 0 s
    refine ⟨_, rfl, ?_, hah, ?_, hip, honly⟩
    · rw [hal, BitVec.toNat_ofNat]
    · rw [hal, hflags]

/-- Settles O47: ten times the quotient and the remainder make AL again, and AAD writes every flag that AAM wrote. -/
theorem splitThenJoinDigits : Obligations.SplitThenJoinDigits := by
  intro s
  obtain ⟨t, haam, htah, htal, htflags, -⟩ := (radixAdjustMeaning.2 s).1
  obtain ⟨u, haad, hual, huah, huflags, -⟩ := (radixAdjustMeaning.2 t).2
  have hal : u.reg8 .al = s.reg8 .al := by
    have hlt := (s.reg8 .al).isLt
    apply BitVec.eq_of_toNat_eq
    rw [hual, htah, htal]
    omega
  refine ⟨t, u, haam, haad, ?_, ?_⟩
  · rw [← huah, ← hal]
    exact (highByte_append_lowByte (u.reg16 .ax)).symm
  · rw [huflags, hal, htflags]
    rfl

end Sys2Proof.Machine
end

section
/-! DIV and IDIV (`45_divide.md` R231, R232): each is the common end of a division at its width on a quotient and a
remainder, so the obligations come down to when these exist and what numbers they write. -/

namespace Sys2Proof.Machine

/-! ## The end of a division -/

section
variable {n : Nat} {s : State}

theorem finishDivide8_fault {r : Option (Byte × Byte)} (h : r = none) : finishDivide8 r n s = .fault .divideError := by
  rw [h]
  rfl

theorem finishDivide16_fault {r : Option (Word × Word)} (h : r = none) :
    finishDivide16 r n s = .fault .divideError := by
  rw [h]
  rfl

theorem finishDivide8_next {r : Option (Byte × Byte)} {q m : Byte} (h : r = some (q, m)) :
    ∃ t, finishDivide8 r n s = .next t ∧ t.reg8 .al = q ∧ t.reg8 .ah = m ∧ t.flags = s.flags ∧
      t.ip = s.ip + BitVec.ofNat 16 n ∧ OnlyRegs s t [.ax] := by
  subst h
  obtain ⟨hnone, -⟩ | ⟨q', m', t, hsome, ht⟩ := finishDivide8_spec (some (q, m)) n s
  · cases hnone
  · cases hsome
    exact ⟨t, ht⟩

theorem finishDivide16_next {r : Option (Word × Word)} {q m : Word} (h : r = some (q, m)) :
    ∃ t, finishDivide16 r n s = .next t ∧ t.reg16 .ax = q ∧ t.reg16 .dx = m ∧ t.flags = s.flags ∧
      t.ip = s.ip + BitVec.ofNat 16 n ∧ OnlyRegs s t [.ax, .dx] := by
  subst h
  obtain ⟨hnone, -⟩ | ⟨q', m', t, hsome, ht⟩ := finishDivide16_spec (some (q, m)) n s
  · cases hnone
  · cases hsome
    exact ⟨t, ht⟩

end

/-! ## The dividend -/

theorem reg8_ah_toNat (s : State) : (s.reg8 .ah).toNat = (s.reg16 .ax).toNat / 256 := by
  have hlt := (s.reg16 .ax).isLt
  exact Nat.mod_eq_of_lt (by omega)

theorem dxax_toNat (s : State) : s.dxax.toNat = (s.reg16 .dx).toNat * 65536 + (s.reg16 .ax).toNat := by
  have hdx := (s.reg16 .dx).isLt
  have hax := (s.reg16 .ax).isLt
  exact Nat.mod_eq_of_lt (by omega)

theorem dxax_div_toNat (s : State) : s.dxax.toNat / 65536 = (s.reg16 .dx).toNat := by
  have hax := (s.reg16 .ax).isLt
  rw [dxax_toNat]
  omega

theorem dxax_eq_append (s : State) : s.dxax = s.reg16 .dx ++ s.reg16 .ax := by
  apply BitVec.eq_of_toNat_eq
  rw [dxax_toNat, append_toNat, Nat.mul_comm]

/-! ## Unsigned quotient and remainder -/

section
variable {W n : Nat}

theorem unsignedDivide_eq_none {v : Nat} (h : v = 0 ∨ n / v > 2 ^ W - 1) : unsignedDivide W n v = none := by
  unfold unsignedDivide
  split
  · rfl
  · next hv => rw [if_pos (h.resolve_left hv)]

/-- The remainder is below the divisor, which is a word of the same width. -/
theorem unsignedDivide_eq_some {v : BitVec W} (hv : v.toNat ≠ 0) (hq : n / v.toNat ≤ 2 ^ W - 1) :
    ∃ q m, unsignedDivide W n v.toNat = some (q, m) ∧ q.toNat = n / v.toNat ∧ m.toNat = n % v.toNat := by
  have hW := Nat.two_pow_pos W
  have hm := Nat.mod_lt n (Nat.pos_of_ne_zero hv)
  refine ⟨_, _, (if_neg hv).trans (if_neg (Nat.not_lt.mpr hq)), ?_, ?_⟩
  · exact Nat.mod_eq_of_lt (by omega)
  · exact Nat.mod_eq_of_lt (Nat.lt_trans hm v.isLt)

/-- The quotient is too large exactly if the high half of the dividend, `n / B`, is not below the divisor. -/
theorem lt_div_iff_le_highHalf {B v : Nat} (hB : 0 < B) (hv : v ≠ 0) : B - 1 < n / v ↔ v ≤ n / B :=
  calc B - 1 < n / v
    _ ↔ B ≤ n / v := by omega
    _ ↔ B * v ≤ n := Nat.le_div_iff_mul_le (Nat.pos_of_ne_zero hv)
    _ ↔ v * B ≤ n := by rw [Nat.mul_comm]
    _ ↔ v ≤ n / B := (Nat.le_div_iff_mul_le hB).symm

end

/-- Settles O37: the quotient fits if the high half of the dividend is below the divisor, and the remainder always
fits. -/
theorem divMeaning : Obligations.DivMeaning := by
  refine ⟨encodedBy_row (n := 35) rfl, fun s rm => ⟨fun hfault => ?_, fun hv => ?_, fun hv hfits => ?_⟩,
    fun s rm => ⟨fun hfault => ?_, fun hv => ?_, fun hv hfits => ?_⟩⟩
  · exact finishDivide8_fault (unsignedDivide_eq_none hfault)
  · rw [reg8_ah_toNat]
    exact lt_div_iff_le_highHalf (B := 256) (by decide) hv
  · obtain ⟨q, m, hr, hq, hm⟩ := unsignedDivide_eq_some hv hfits
    obtain ⟨t, ht, rfl, rfl, hrest⟩ := finishDivide8_next hr
    exact ⟨t, ht, hq, hm, hrest⟩
  · rw [← dxax_toNat] at hfault
    exact finishDivide16_fault (unsignedDivide_eq_none hfault)
  · rw [← dxax_toNat, ← dxax_div_toNat]
    exact lt_div_iff_le_highHalf (B := 65536) (by decide) hv
  · rw [← dxax_toNat] at hfits ⊢
    obtain ⟨q, m, hr, hq, hm⟩ := unsignedDivide_eq_some hv hfits
    obtain ⟨t, ht, rfl, rfl, hrest⟩ := finishDivide16_next hr
    exact ⟨t, ht, hq, hm, hrest⟩

/-! ## Signed quotient and remainder -/

theorem idivMin_8 (limit : IdivLimit) : idivMin limit 8 = if limit = .symmetric then -127 else -128 := by
  cases limit <;> rfl

theorem idivMin_16 (limit : IdivLimit) : idivMin limit 16 = if limit = .symmetric then -32767 else -32768 := by
  cases limit <;> rfl

/-- Neither limit admits a quotient that is no signed word. -/
theorem le_idivMin (limit : IdivLimit) (W : Nat) : -2 ^ (W - 1) ≤ idivMin limit W := by
  cases limit with
  | symmetric => simp only [idivMin]; omega
  | full => exact Int.le_refl _

section
variable {limit : IdivLimit} {W : Nat} {n : Int}

theorem signedDivide_eq_none {v : Int} (h : v = 0 ∨ n.tdiv v > 2 ^ (W - 1) - 1 ∨ n.tdiv v < idivMin limit W) :
    signedDivide limit W n v = none := by
  unfold signedDivide
  split
  · rfl
  · next hv => rw [if_pos (h.resolve_left hv)]

/-- The remainder is smaller in magnitude than the divisor, so it is a signed word whatever its sign. -/
theorem tmod_toInt_range (n : Int) {v : BitVec W} (hv : v.toInt ≠ 0) :
    -2 ^ (W - 1) ≤ n.tmod v.toInt ∧ n.tmod v.toInt < 2 ^ (W - 1) := by
  have hlow := BitVec.le_toInt v
  have hhigh := BitVec.toInt_lt (x := v)
  have hm : (n.tmod v.toInt).natAbs < v.toInt.natAbs := by
    rw [Int.natAbs_tmod]
    exact Nat.mod_lt _ (Int.natAbs_pos.mpr hv)
  omega

theorem signedDivide_eq_some (hW : 0 < W) {v : BitVec W} (hv : v.toInt ≠ 0) (hmax : n.tdiv v.toInt ≤ 2 ^ (W - 1) - 1)
    (hmin : idivMin limit W ≤ n.tdiv v.toInt) :
    ∃ q m, signedDivide limit W n v.toInt = some (q, m) ∧ q.toInt = n.tdiv v.toInt ∧ m.toInt = n.tmod v.toInt := by
  obtain ⟨hmlow, hmhigh⟩ := tmod_toInt_range n hv
  have hfits : ¬(n.tdiv v.toInt > 2 ^ (W - 1) - 1 ∨ n.tdiv v.toInt < idivMin limit W) := by omega
  refine ⟨_, _, (if_neg hv).trans (if_neg hfits), ?_, ?_⟩
  · exact BitVec.toInt_ofInt_eq_self hW (Int.le_trans (le_idivMin limit W) hmin) (Int.lt_of_le_sub_one hmax)
  · exact BitVec.toInt_ofInt_eq_self hW hmlow hmhigh

end

/-- Settles O38: the quotient is a signed word where it is between the limits, and the remainder always is one. -/
theorem idivMeaning : Obligations.IdivMeaning := by
  refine ⟨encodedBy_row (n := 36) rfl, fun s rm => ⟨fun hfault => ?_, fun hv hmax hmin => ?_⟩,
    fun s rm => ⟨fun hfault => ?_, fun hv hmax hmin => ?_⟩⟩
  · rw [← idivMin_8] at hfault
    exact finishDivide8_fault (signedDivide_eq_none hfault)
  · rw [← idivMin_8] at hmin
    obtain ⟨q, m, hr, hq, hm⟩ := signedDivide_eq_some (by decide) hv hmax hmin
    obtain ⟨t, ht, rfl, rfl, hrest⟩ := finishDivide8_next hr
    exact ⟨t, ht, hq, hm, hrest⟩
  · rw [← idivMin_16, ← dxax_eq_append] at hfault
    exact finishDivide16_fault (signedDivide_eq_none hfault)
  · rw [← idivMin_16] at hmin
    rw [← dxax_eq_append] at hmax hmin ⊢
    obtain ⟨q, m, hr, hq, hm⟩ := signedDivide_eq_some (by decide) hv hmax hmin
    obtain ⟨t, ht, rfl, rfl, hrest⟩ := finishDivide16_next hr
    exact ⟨t, ht, hq, hm, hrest⟩

end Sys2Proof.Machine
end

section
/-! Control transfer (`46_control_transfer.md` R243 to R250): a CALL is `callNearTo` or `callFarTo` of a target read in
the state before its pushes, so what these do (`callNearTo_spec`, `callFarTo_spec`) is what every form does. -/

namespace Sys2Proof.Machine

/-! ## The two ends of a CALL -/

section
variable {i : Instr} {s : State}

theorem nearCallRuns_of_exec {target : Word} (h : exec i s = .next (callNearTo target i.len s)) :
    NearCallRuns i s target := by
  obtain ⟨hsp, hret, hip, hrest⟩ := callNearTo_spec target i.len s
  exact ⟨_, h, hip, hsp, hret, hrest⟩

theorem farCallRuns_of_exec {off seg : Word} (h : exec i s = .next (callFarTo off seg i.len s)) :
    FarCallRuns i s off seg := by
  obtain ⟨hsp, hcs, hret, hip, hseg, hsegs, hregs, hrest⟩ := callFarTo_spec off seg i.len s
  exact ⟨_, h, hip, hseg, hsp, hcs, hret, hregs, hsegs, hrest⟩

end

/-! ## The operand of a far-indirect transfer -/

/-- A register has no `Next` (R152), so it names no far target. -/
theorem farTarget_reg (s : State) (r : Reg16) : s.farTarget (s.rmLoc (.reg r)) = none := rfl

/-- A memory operand names the word at its address and the word after it in the same segment. -/
theorem farTarget_mem (s : State) (m : MemOp) :
    let g := s.seg (s.input.segovr.getD (specSegment m))
    s.farTarget (s.rmLoc (.mem m)) = some (s.memRead16 g (specOffset s m), s.memRead16 g (specOffset s m + 2)) := by
  obtain ⟨l, hnext, hseg⟩ := next_mem_get16 s (s.input.segovr.getD (specSegment m)) m
  rw [rmLoc_mem, State.farTarget, hnext, Option.map_some, hseg, specOffset_eq]
  rfl

section
variable {s : State} {rm : Rm Reg16}

theorem exec_callFarRm_of_farTarget_eq_none (h : s.farTarget (s.rmLoc rm) = none) :
    exec (.callFarRm rm) s = .fault .unresolvableFarTarget := by
  simp only [exec, execCallFarRm, h, raise]

theorem exec_jmpFarRm_of_farTarget_eq_none (h : s.farTarget (s.rmLoc rm) = none) :
    exec (.jmpFarRm rm) s = .fault .unresolvableFarTarget := by
  simp only [exec, execJmpFarRm, h, raise]

theorem exec_callFarRm_of_farTarget_eq_some {off seg : Word} (h : s.farTarget (s.rmLoc rm) = some (off, seg)) :
    exec (.callFarRm rm) s = .next (callFarTo off seg (Instr.callFarRm rm).len s) := by
  simp only [exec, execCallFarRm, h, Instr.len]

theorem exec_jmpFarRm_of_farTarget_eq_some {off seg : Word} (h : s.farTarget (s.rmLoc rm) = some (off, seg)) :
    exec (.jmpFarRm rm) s = .next (jmpFarTo off seg s) := by
  simp only [exec, execJmpFarRm, h]

end

/-! ## The obligations. The numbers are those of the rows of the opcode table. -/

/-- Settles O39: the near CALL of `IP + 3 + val`. -/
theorem callNearMeaning : Obligations.CallNearMeaning :=
  ⟨encodedBy_row (n := 37) rfl, fun _ _ => ⟨rfl, nearCallRuns_of_exec rfl⟩⟩

/-- Settles O40: the near CALL of the operand's value, which is read in the state before the push. -/
theorem callNearIndirectMeaning : Obligations.CallNearIndirectMeaning :=
  ⟨encodedBy_row (n := 38) rfl, fun _ _ => nearCallRuns_of_exec rfl⟩

/-- Settles O41: the far CALL of the two immediates. -/
theorem callFarMeaning : Obligations.CallFarMeaning :=
  ⟨encodedBy_row (n := 39) rfl, fun _ _ _ => ⟨rfl, farCallRuns_of_exec rfl⟩⟩

/-- Settles O42: the far CALL of the target that the operand names in the state before the pushes, if it names one. -/
theorem callFarIndirectMeaning : Obligations.CallFarIndirectMeaning := by
  refine ⟨encodedBy_row (n := 40) rfl, fun s r => ?_, fun s m => ?_⟩
  · exact exec_callFarRm_of_farTarget_eq_none (farTarget_reg s r)
  · exact farCallRuns_of_exec (exec_callFarRm_of_farTarget_eq_some (farTarget_mem s m))

/-- Settles O43: both forms are one write of IP. -/
theorem jmpNearMeaning : Obligations.JmpNearMeaning :=
  ⟨⟨encodedBy_row (n := 41) rfl, encodedBy_row (n := 42) rfl⟩, fun _ => ⟨fun _ => rfl, fun _ => rfl⟩⟩

/-- Settles O44: both forms are the writes of CS and IP, the indirect one if its operand names a target. -/
theorem jmpFarMeaning : Obligations.JmpFarMeaning := by
  refine ⟨⟨encodedBy_row (n := 43) rfl, encodedBy_row (n := 44) rfl⟩,
    fun s => ⟨fun off seg => ?_, fun r => ?_, fun m => ?_⟩⟩
  · rfl
  · exact exec_jmpFarRm_of_farTarget_eq_none (farTarget_reg s r)
  · exact exec_jmpFarRm_of_farTarget_eq_some (farTarget_mem s m)

end Sys2Proof.Machine
end

section
/-! The outcomes of an instruction (`60_exceptions.md` R270, R271, R275): only a far-indirect transfer of a register
faults in every state, and of all the others only a division may fault. -/

namespace Sys2Proof.Machine

theorem finishDivide8_fault_or_next (r : Option (Byte × Byte)) (n : Nat) (s : State) :
    finishDivide8 r n s = .fault .divideError ∨ ∃ t, finishDivide8 r n s = .next t :=
  (finishDivide8_spec r n s).imp And.right fun ⟨_, _, t, _, hnext, _⟩ => ⟨t, hnext⟩

theorem finishDivide16_fault_or_next (r : Option (Word × Word)) (n : Nat) (s : State) :
    finishDivide16 r n s = .fault .divideError ∨ ∃ t, finishDivide16 r n s = .next t :=
  (finishDivide16_spec r n s).imp And.right fun ⟨_, _, t, _, hnext, _⟩ => ⟨t, hnext⟩

/-- Each form of a division is the common end of a division at its width. -/
theorem exec_of_isDivision {i : Instr} (h : isDivision i) (s : State) :
    exec i s = .fault .divideError ∨ ∃ t, exec i s = .next t := by
  cases i with
  | div o | idiv o =>
    cases o with
    | byte rm => exact finishDivide8_fault_or_next ..
    | word rm => exact finishDivide16_fault_or_next ..
  | _ => cases h

theorem exec_of_isFarRegister {i : Instr} (h : isFarRegister i) (s : State) :
    exec i s = .fault .unresolvableFarTarget := by
  cases i with
  | callFarRm rm =>
    cases rm with
    | reg r => exact exec_callFarRm_of_farTarget_eq_none (farTarget_reg s r)
    | mem m => cases h
  | jmpFarRm rm =>
    cases rm with
    | reg r => exact exec_jmpFarRm_of_farTarget_eq_none (farTarget_reg s r)
    | mem m => cases h
  | _ => cases h

/-- The far-indirect transfers complete because a memory operand always names a target. -/
theorem exec_next_of_not_isDivision_of_not_isFarRegister {i : Instr} (hdiv : ¬isDivision i) (hfar : ¬isFarRegister i)
    (s : State) : ∃ t, exec i s = .next t := by
  cases instrView i with
  | alu _ op x _ _ _ hrun => exact ⟨_, hrun s⟩
  | movRmReg | movRmImm | daa | das | aam | aad | callNear | callRm | callFar | jmpNear | jmpRm | jmpFar =>
    exact ⟨_, rfl⟩
  | aaa => exact ⟨_, execAaa_eq s⟩
  | aas => exact ⟨_, execAas_eq s⟩
  | div | idiv => exact absurd trivial hdiv
  | callFarRm rm =>
    cases rm with
    | reg r => exact absurd trivial hfar
    | mem m => exact ⟨_, exec_callFarRm_of_farTarget_eq_some (farTarget_mem s m)⟩
  | jmpFarRm rm =>
    cases rm with
    | reg r => exact absurd trivial hfar
    | mem m => exact ⟨_, exec_jmpFarRm_of_farTarget_eq_some (farTarget_mem s m)⟩

/-- All that an instruction can do that is no far-indirect transfer of a register. -/
theorem exec_of_not_isFarRegister {i : Instr} (hfar : ¬isFarRegister i) (s : State) :
    (isDivision i ∧ exec i s = .fault .divideError) ∨ ∃ t, exec i s = .next t := by
  by_cases hdiv : isDivision i
  · exact (exec_of_isDivision hdiv s).imp_left fun hfault => ⟨hdiv, hfault⟩
  · exact .inr (exec_next_of_not_isDivision_of_not_isFarRegister hdiv hfar s)

/-- Settles O54: a far-indirect transfer of a register has one outcome, every other instruction one of two, of which the
fault is a division's. -/
theorem onlyTwoFaults : Obligations.OnlyTwoFaults := by
  intro i s
  by_cases hfar : isFarRegister i
  · have hexec := exec_of_isFarRegister hfar s
    simp [hexec, hfar]
  · obtain ⟨hdiv, hexec⟩ | ⟨t, hexec⟩ := exec_of_not_isFarRegister hfar s
    · simp [hexec, hfar, hdiv]
    · simp [hexec, hfar]

end Sys2Proof.Machine
end

section
/-! The rows of the opcode table by format, and the laws between decoding and encoding that follow row by row
(`30_encoding.md` R82, R101, R110, R128). -/

namespace Sys2Proof

open Machine (bitsText typedFields bitField extField rmRegFields accImmFields rmImmSFields rmImmFields rmXFields
  rm16Fields wordField)

/-- The template of a ModRM byte whose `reg` bits are the opcode extension of `ext` (R87). -/
def extTemplate (ext : Byte) : List Char := ['m', 'm'] ++ (bitsText (regField ext) ++ ['b', 'b', 'b'])

/-- A row of the opcode table by its format (R82): the literal bits of `match` stand in the templates, and the row's
instructions have the format's well-formedness, encoding and typed fields. -/
inductive RowView : Row → Prop
  | rmr {key : Byte} {t : String} {mk : Dir → RmReg → Instr} (hkey : key &&& 0xFC = key)
      (ht : t.toList = bitsText (key.extractLsb' 2 6) ++ ['d', 'w']) (hwf : ∀ d o, (mk d o).wf = o.wf)
      (henc : ∀ d o, encode (mk d o) = encodeRmr (key.extractLsb' 2 6) d o)
      (hfields : ∀ d o, typedFields (mk d o) = bitField .d d.bit :: rmRegFields o) :
      RowView ⟨[t, "mmrrrbbb"], [(key, 0xFC)], .rmr mk⟩
  | rmr0 {key : Byte} {t : String} {mk : RmReg → Instr} (hkey : key &&& 0xFE = key)
      (ht : t.toList = bitsText (key.extractLsb' 1 7) ++ ['w']) (hwf : ∀ o, (mk o).wf = o.wf)
      (henc : ∀ o, encode (mk o) = encodeRmr0 (key.extractLsb' 1 7) o)
      (hfields : ∀ o, typedFields (mk o) = rmRegFields o) :
      RowView ⟨[t, "mmrrrbbb"], [(key, 0xFE)], .rmr0 mk⟩
  | rmi {key ext : Byte} {t u : String} {mk : RmImmS → Instr} (hkey : key &&& 0xFC = key) (hext : ext &&& 0x38 = ext)
      (ht : t.toList = bitsText (key.extractLsb' 2 6) ++ ['s', 'w'])
      (hu : u.toList = extTemplate ext) (hwf : ∀ o, (mk o).wf = o.wf)
      (henc : ∀ o, encode (mk o) = encodeRmi (key.extractLsb' 2 6) (regField ext) o)
      (hfields : ∀ o, typedFields (mk o) = extField (regField ext) :: rmImmSFields o) :
      RowView ⟨[t, u], [(key, 0xFC), (ext, 0x38)], .rmi mk⟩
  | rmi0 {key ext : Byte} {t u : String} {mk : RmImm → Instr} (hkey : key &&& 0xFE = key) (hext : ext &&& 0x38 = ext)
      (ht : t.toList = bitsText (key.extractLsb' 1 7) ++ ['w'])
      (hu : u.toList = extTemplate ext) (hwf : ∀ o, (mk o).wf = o.wf)
      (henc : ∀ o, encode (mk o) = encodeRmi0 (key.extractLsb' 1 7) (regField ext) o)
      (hfields : ∀ o, typedFields (mk o) = extField (regField ext) :: rmImmFields o) :
      RowView ⟨[t, u], [(key, 0xFE), (ext, 0x38)], .rmi0 mk⟩
  | acci {key : Byte} {t : String} {mk : AccImm → Instr} (hkey : key &&& 0xFE = key)
      (ht : t.toList = bitsText (key.extractLsb' 1 7) ++ ['w']) (hwf : ∀ o, (mk o).wf = true)
      (henc : ∀ o, encode (mk o) = encodeAcci (key.extractLsb' 1 7) o)
      (hfields : ∀ o, typedFields (mk o) = accImmFields o) :
      RowView ⟨[t], [(key, 0xFE)], .acci mk⟩
  | rmxw {key ext : Byte} {t u : String} {mk : RmX → Instr} (hkey : key &&& 0xFE = key) (hext : ext &&& 0x38 = ext)
      (ht : t.toList = bitsText (key.extractLsb' 1 7) ++ ['w'])
      (hu : u.toList = extTemplate ext) (hwf : ∀ o, (mk o).wf = o.wf)
      (henc : ∀ o, encode (mk o) = encodeRmxw (key.extractLsb' 1 7) (regField ext) o)
      (hfields : ∀ o, typedFields (mk o) = extField (regField ext) :: rmXFields o) :
      RowView ⟨[t, u], [(key, 0xFE), (ext, 0x38)], .rmxw mk⟩
  | rmx {key ext : Byte} {t u : String} {mk : Rm Reg16 → Instr} (hext : ext &&& 0x38 = ext)
      (ht : t.toList = bitsText key) (hu : u.toList = extTemplate ext)
      (hwf : ∀ rm, (mk rm).wf = rm.wf)
      (henc : ∀ rm, encode (mk rm) = key :: encodeRm Reg16.code (regField ext) rm)
      (hfields : ∀ rm, typedFields (mk rm) = extField (regField ext) :: rm16Fields rm) :
      RowView ⟨[t, u], [(key, 0xFF), (ext, 0x38)], .rmx mk⟩
  | none {key : Byte} {t : String} {i : Instr} (ht : t.toList = bitsText key) (hwf : i.wf = true)
      (henc : encode i = [key]) (hfields : typedFields i = []) : RowView ⟨[t], [(key, 0xFF)], .none i⟩
  | fix2 {key second : Byte} {t u : String} {i : Instr} (ht : t.toList = bitsText key) (hu : u.toList = bitsText second)
      (hwf : i.wf = true) (henc : encode i = [key, second]) (hfields : typedFields i = []) :
      RowView ⟨[t, u], [(key, 0xFF), (second, 0xFF)], .fix2 i⟩
  | rel16 {key : Byte} {t : String} {mk : Word → Instr} (ht : t.toList = bitsText key) (hwf : ∀ v, (mk v).wf = true)
      (henc : ∀ v, encode (mk v) = key :: wordBytes v)
      (hfields : ∀ v, typedFields (mk v) = [wordField .val v]) : RowView ⟨[t], [(key, 0xFF)], .rel16 mk⟩
  | fard {key : Byte} {t : String} {mk : Word → Word → Instr} (ht : t.toList = bitsText key)
      (hwf : ∀ v v2, (mk v v2).wf = true)
      (henc : ∀ v v2, encode (mk v v2) = key :: wordBytes v ++ wordBytes v2)
      (hfields : ∀ v v2, typedFields (mk v v2) = [wordField .val v, wordField .val2 v2]) :
      RowView ⟨[t], [(key, 0xFF)], .fard mk⟩

/-- Every row has its shape's view: what the view says of a row is computed from the row. -/
theorem opcodeTable_view : ∀ r ∈ opcodeTable, RowView r := by
  simp only [opcodeTable, List.cons_append, List.nil_append, List.forall_mem_cons, List.not_mem_nil, false_imp_iff,
    implies_true, and_true]
  and_intros
  all_goals
    constructor
    all_goals intros; rfl

/-! ## Literal bits under their masks -/

/-- Six literal bits before two fields. -/
theorem and_0xFC_eq_iff {key : Byte} (hkey : key &&& 0xFC = key) (b : Byte) :
    b &&& 0xFC = key ↔ b.extractLsb' 2 6 = key.extractLsb' 2 6 :=
  calc b &&& 0xFC = key
    _ ↔ b &&& 0xFC = key &&& 0xFC := by rw [hkey]
    _ ↔ b.extractLsb' 2 6 = key.extractLsb' 2 6 := by rw [and_0xFC, and_0xFC, BitVec.append_left_inj]

/-- Seven literal bits before one field. -/
theorem and_0xFE_eq_iff {key : Byte} (hkey : key &&& 0xFE = key) (b : Byte) :
    b &&& 0xFE = key ↔ b.extractLsb' 1 7 = key.extractLsb' 1 7 :=
  calc b &&& 0xFE = key
    _ ↔ b &&& 0xFE = key &&& 0xFE := by rw [hkey]
    _ ↔ b.extractLsb' 1 7 = key.extractLsb' 1 7 := by rw [and_0xFE, and_0xFE, BitVec.append_left_inj]

/-- The opcode extension between two fields (R87). -/
theorem and_0x38_eq_iff {ext : Byte} (hext : ext &&& 0x38 = ext) (m : Byte) :
    m &&& 0x38 = ext ↔ regField m = regField ext :=
  calc m &&& 0x38 = ext
    _ ↔ m &&& 0x38 = ext &&& 0x38 := by rw [hext]
    _ ↔ regField m = regField ext := by rw [and_0x38, and_0x38, BitVec.append_left_inj, BitVec.append_right_inj]

theorem matchesFixed_one {k x b : Byte} {bs : List Byte} : matchesFixed [(k, x)] (b :: bs) = true ↔ b &&& x = k := by
  simp [matchesFixed]

theorem matchesFixed_pair {k x l y b c : Byte} {bs : List Byte} :
    matchesFixed [(k, x), (l, y)] (b :: c :: bs) = true ↔ b &&& x = k ∧ c &&& y = l := by
  simp [matchesFixed]

/-! ## What a row decodes, it encodes -/

/-- How a shape makes an instruction: its operands are parsed from the bytes. -/
inductive Shape.Parses : Shape → List Byte → Instr → List Byte → Prop
  | rmr {mk b m bs o rest} (h : parseRmReg b m bs = some (o, rest)) :
      Parses (.rmr mk) (b :: m :: bs) (mk (Dir.ofBit (dsBit b)) o) rest
  | rmr0 {mk b m bs o rest} (h : parseRmReg b m bs = some (o, rest)) : Parses (.rmr0 mk) (b :: m :: bs) (mk o) rest
  | rmi {mk b m bs o rest} (h : parseRmImmS b m bs = some (o, rest)) : Parses (.rmi mk) (b :: m :: bs) (mk o) rest
  | rmi0 {mk b m bs o rest} (h : parseRmImm b m bs = some (o, rest)) : Parses (.rmi0 mk) (b :: m :: bs) (mk o) rest
  | acci {mk b bs o rest} (h : parseAccImm b bs = some (o, rest)) : Parses (.acci mk) (b :: bs) (mk o) rest
  | rmxw {mk b m bs o rest} (h : parseRmX b m bs = some (o, rest)) : Parses (.rmxw mk) (b :: m :: bs) (mk o) rest
  | rmx {mk b m bs rm rest} (h : parseRm Reg16.ofCode m bs = some (rm, rest)) :
      Parses (.rmx mk) (b :: m :: bs) (mk rm) rest
  | none {i b bs} : Parses (.none i) (b :: bs) i bs
  | fix2 {i b m bs} : Parses (.fix2 i) (b :: m :: bs) i bs
  | rel16 {mk b v rest} : Parses (.rel16 mk) (b :: (wordBytes v ++ rest)) (mk v) rest
  | fard {mk b v v2 rest} : Parses (.fard mk) (b :: (wordBytes v ++ (wordBytes v2 ++ rest))) (mk v v2) rest

theorem Shape.parses_of_parse {sh : Shape} {bs rest : List Byte} {i : Instr} (h : sh.parse bs = some (i, rest)) :
    sh.Parses bs i rest := by
  unfold Shape.parse at h
  split at h <;>
    simp only [Option.map_eq_some_iff, Option.bind_eq_some_iff, Prod.exists, Prod.mk.injEq, Option.some.injEq,
      reduceCtorEq] at h
  case h_8 | h_9 =>
    obtain ⟨rfl, rfl⟩ := h
    constructor
  case h_10 =>
    obtain ⟨v, _, hv, rfl, rfl⟩ := h
    exact takeWord_some hv ▸ .rel16
  case h_11 =>
    obtain ⟨v, _, hv, v2, _, hv2, rfl, rfl⟩ := h
    exact takeWord_some hv ▸ takeWord_some hv2 ▸ .fard
  all_goals
    obtain ⟨_, _, hp, rfl, rfl⟩ := h
    constructor
    exact hp

/-- A row's instruction is well-formed and encodes to the bytes that the row's literal bits and shape accepted. -/
theorem encode_of_row {r : Row} (hview : RowView r) {bs rest : List Byte} {i : Instr}
    (hfixed : matchesFixed r.fixed bs = true) (hparse : r.shape.parse bs = some (i, rest)) :
    i.wf = true ∧ bs = encode i ++ rest := by
  have hparses := Shape.parses_of_parse hparse
  cases hview with
  | rmr hkey _ hwf henc _ =>
    cases hparses with | rmr hp =>
    rw [matchesFixed_one, and_0xFC_eq_iff hkey] at hfixed
    rw [hwf, henc, ← hfixed]
    exact encodeRmr_parseRmReg _ _ _ _ _ hp
  | rmr0 hkey _ hwf henc _ =>
    cases hparses with | rmr0 hp =>
    rw [matchesFixed_one, and_0xFE_eq_iff hkey] at hfixed
    rw [hwf, henc, ← hfixed]
    exact encodeRmr0_parseRmReg _ _ _ _ _ hp
  | rmi hkey hext _ _ hwf henc _ =>
    cases hparses with | rmi hp =>
    rw [matchesFixed_pair, and_0xFC_eq_iff hkey, and_0x38_eq_iff hext] at hfixed
    obtain ⟨hop, hsecond⟩ := hfixed
    rw [hwf, henc, ← hop, ← hsecond]
    exact encodeRmi_parseRmImmS _ _ _ _ _ hp
  | rmi0 hkey hext _ _ hwf henc _ =>
    cases hparses with | rmi0 hp =>
    rw [matchesFixed_pair, and_0xFE_eq_iff hkey, and_0x38_eq_iff hext] at hfixed
    obtain ⟨hop, hsecond⟩ := hfixed
    rw [hwf, henc, ← hop, ← hsecond]
    exact encodeRmi0_parseRmImm _ _ _ _ _ hp
  | acci hkey _ hwf henc _ =>
    cases hparses with | acci hp =>
    rw [matchesFixed_one, and_0xFE_eq_iff hkey] at hfixed
    rw [henc, ← hfixed]
    exact ⟨hwf _, encodeAcci_parseAccImm _ _ _ _ hp⟩
  | rmxw hkey hext _ _ hwf henc _ =>
    cases hparses with | rmxw hp =>
    rw [matchesFixed_pair, and_0xFE_eq_iff hkey, and_0x38_eq_iff hext] at hfixed
    obtain ⟨hop, hsecond⟩ := hfixed
    rw [hwf, henc, ← hop, ← hsecond]
    exact encodeRmxw_parseRmX _ _ _ _ _ hp
  | rmx hext _ _ hwf henc _ =>
    cases hparses with | rmx hp =>
    rw [matchesFixed_pair, and_0xFF, and_0x38_eq_iff hext] at hfixed
    obtain ⟨hop, hsecond⟩ := hfixed
    obtain ⟨hrm, hbytes⟩ := encodeRm_parseRm Reg16.code _ Reg16.code_ofCode _ _ _ _ hp
    rw [hwf, henc, ← hop, ← hsecond, hbytes]
    exact ⟨hrm, rfl⟩
  | none _ hwf henc _ =>
    cases hparses with | none =>
    rw [matchesFixed_one, and_0xFF] at hfixed
    rw [henc, ← hfixed]
    exact ⟨hwf, rfl⟩
  | fix2 _ _ hwf henc _ =>
    cases hparses with | fix2 =>
    rw [matchesFixed_pair, and_0xFF, and_0xFF] at hfixed
    obtain ⟨hop, hsecond⟩ := hfixed
    rw [henc, ← hop, ← hsecond]
    exact ⟨hwf, rfl⟩
  | rel16 _ hwf henc _ =>
    cases hparses with | rel16 =>
    rw [matchesFixed_one, and_0xFF] at hfixed
    rw [henc, ← hfixed]
    exact ⟨hwf _, rfl⟩
  | fard _ hwf henc _ =>
    cases hparses with | fard =>
    rw [matchesFixed_one, and_0xFF] at hfixed
    rw [henc, ← hfixed]
    exact ⟨hwf _ _, rfl⟩

/-- A match is made by a row whose literal bits the stream has. -/
theorem exists_row_of_decode {bs rest : List Byte} {i : Instr} (h : decode bs = .matched i rest) :
    ∃ r ∈ opcodeTable, matchesFixed r.fixed bs = true ∧ r.shape.parse bs = some (i, rest) := by
  obtain ⟨r, hr, hrow⟩ := decode_matched_row h
  rw [Row.decode, Option.ite_none_right_eq_some] at hrow
  exact ⟨r, hr, hrow⟩

end Sys2Proof

namespace Sys2Proof.Machine

/-- Settles O1: each word is decoded by running the probe. -/
theorem specWordsDecode : Obligations.SpecWordsDecode := by
  and_intros <;> rfl

/-- Settles O2: the rows exclude each other, and the operands of every format parse back. -/
theorem decodeEncode : Obligations.DecodeEncode :=
  fun _ hw rest => decode_encode hw rest

/-- Settles O3: the row that decodes encodes its instruction to the bytes that it was read from. -/
theorem encodeDecode : Obligations.EncodeDecode := by
  intro bs i rest h
  obtain ⟨r, hr, hfixed, hparse⟩ := exists_row_of_decode h
  exact encode_of_row (opcodeTable_view r hr) hfixed hparse

/-- The probe in any order of the rows finds what it finds in the table's order: at most one row answers. -/
theorem findSome?_decode_perm {rows : List Row} (hrows : rows.Perm opcodeTable) (bs : List Byte) :
    rows.findSome? (fun r => r.decode bs) = opcodeTable.findSome? (fun r => r.decode bs) := by
  by_cases h : ∃ r ∈ opcodeTable, matchesFixed r.fixed bs = true
  · obtain ⟨r, hr, hfixed⟩ := h
    have honly (q) (hq : q ∈ opcodeTable) (hqfixed : matchesFixed q.fixed bs = true) : q = r :=
      row_unique hq hr hqfixed hfixed
    have htable := findSome?_only opcodeTable (fun q => matchesFixed q.fixed bs) (fun q => q.shape.parse bs) r hr honly
      hfixed
    have hperm := findSome?_only rows (fun q => matchesFixed q.fixed bs) (fun q => q.shape.parse bs) r
      (hrows.mem_iff.mpr hr) (fun q hq => honly q (hrows.mem_iff.mp hq)) hfixed
    exact hperm.trans htable.symm
  · have hnone (q) (hq : q ∈ opcodeTable) : q.decode bs = none := if_neg fun hqfixed => h ⟨q, hq, hqfixed⟩
    rw [List.findSome?_eq_none_iff.mpr hnone,
      List.findSome?_eq_none_iff.mpr fun q hq => hnone q (hrows.mem_iff.mp hq)]

/-- Settles O5: the rows exclude each other. -/
theorem rowsDisjoint : Obligations.RowsDisjoint :=
  ⟨opcodeTable_exclusive, fun _ hrows bs => findSome?_decode_perm hrows bs⟩

end Sys2Proof.Machine
end

section
/-! How many bytes a match uses (`30_encoding.md` R84, R108), and which streams match at all (R103, R112). -/

namespace Sys2Proof

open Machine (specDispBytes specLength inScope)

/-! ## Parsers that use a number of bytes -/

/-- A parser's answer on a stream: it uses the first `n` bytes, and there is none exactly if the stream is shorter. -/
def UsesBytes {α : Type} (n : Nat) (bs : List Byte) : Option (α × List Byte) → Prop
  | none => bs.length < n
  | some (_, rest) => bs.length = n + rest.length

section
variable {α β : Type} {n k : Nat} {bs : List Byte} {p : Option (α × List Byte)}

theorem UsesBytes.map (h : UsesBytes n bs p) (f : α → β) : UsesBytes n bs (p.map fun q => (f q.1, q.2)) := by
  cases p with
  | none => exact h
  | some q => exact h

theorem UsesBytes.bind (h : UsesBytes n bs p) {f : α × List Byte → Option (β × List Byte)}
    (hf : ∀ q, UsesBytes k q.2 (f q)) : UsesBytes (n + k) bs (p.bind f) := by
  cases p with
  | none =>
    have h : bs.length < n := h
    exact Nat.lt_add_right k h
  | some q =>
    have h : bs.length = n + q.2.length := h
    have hq := hf q
    cases hfq : f q with
    | none =>
      rw [hfq] at hq
      have hq : q.2.length < k := hq
      simp only [Option.bind_some, hfq, UsesBytes]
      omega
    | some r =>
      rw [hfq] at hq
      have hq : q.2.length = k + r.2.length := hq
      simp only [Option.bind_some, hfq, UsesBytes]
      omega

/-- A leading byte that a parser has looked at. -/
theorem UsesBytes.cons (h : UsesBytes n bs p) (b : Byte) : UsesBytes (n + 1) (b :: bs) p := by
  cases p with
  | none => exact Nat.succ_lt_succ h
  | some q =>
    have h : bs.length = n + q.2.length := h
    simp only [UsesBytes, List.length_cons]
    omega

theorem UsesBytes.isSome_iff (h : UsesBytes n bs p) : p.isSome = true ↔ n ≤ bs.length := by
  cases p with
  | none => simpa using Nat.not_le_of_lt h
  | some q => simpa using (h.symm ▸ Nat.le_add_right n _ : n ≤ bs.length)

end

theorem takeByte_usesBytes (bs : List Byte) : UsesBytes 1 bs (takeByte bs) := by
  cases bs with
  | nil => exact Nat.zero_lt_one
  | cons b bs => exact Nat.add_comm ..

theorem takeWord_usesBytes (bs : List Byte) : UsesBytes 2 bs (takeWord bs) := by
  match bs with
  | [] => exact Nat.zero_lt_two
  | [_] => exact Nat.one_lt_two
  | _ :: _ :: bs => exact (Nat.add_comm 2 bs.length).symm

theorem parseRm_usesBytes {R : Type} (ofCode : BitVec 3 → R) (m : Byte) (bs : List Byte) :
    UsesBytes (specDispBytes m) bs (parseRm ofCode m bs) := by
  unfold parseRm
  split
  · next hmod => simp [specDispBytes, hmod, UsesBytes]
  · next hmod =>
    split
    · next hrm => simpa [specDispBytes, hmod, hrm] using (takeWord_usesBytes bs).map (Rm.mem <| .direct ·)
    · next hrm => simpa [specDispBytes, hmod, UsesBytes] using hrm
  · next hmod =>
    simpa [specDispBytes, hmod] using (takeByte_usesBytes bs).map (Rm.mem <| .disp8 (Base.ofCode (rmField m)) ·)
  · next hmod =>
    simpa [specDispBytes, hmod] using (takeWord_usesBytes bs).map (Rm.mem <| .disp16 (Base.ofCode (rmField m)) ·)

/-- The number of bytes that a shape's format takes, from the first byte and the ModRM byte (R108). -/
def Shape.byteCount (b m : Byte) : Shape → Nat
  | .rmr _ | .rmr0 _ | .rmxw _ | .rmx _ => specDispBytes m + 2
  | .rmi _ => specDispBytes m + (if wBit b = true ∧ dsBit b = false then 2 else 1) + 2
  | .rmi0 _ => specDispBytes m + (if wBit b = true then 2 else 1) + 2
  | .acci _ => (if wBit b = true then 2 else 1) + 1
  | .none _ => 1
  | .fix2 _ => 2
  | .rel16 _ => 3
  | .fard _ => 5

theorem parseRmReg_usesBytes (b m : Byte) (bs : List Byte) :
    UsesBytes (specDispBytes m) bs (parseRmReg b m bs) := by
  unfold parseRmReg
  split
  · exact (parseRm_usesBytes Reg16.ofCode m bs).map (RmReg.word · (Reg16.ofCode (regField m)))
  · exact (parseRm_usesBytes Reg8.ofCode m bs).map (RmReg.byte · (Reg8.ofCode (regField m)))

theorem parseRmImmS_usesBytes (b m : Byte) (bs : List Byte) :
    UsesBytes (specDispBytes m + if wBit b = true ∧ dsBit b = false then 2 else 1) bs (parseRmImmS b m bs) := by
  unfold parseRmImmS
  cases hw : wBit b with
  | true =>
    refine (parseRm_usesBytes Reg16.ofCode m bs).bind fun q => ?_
    cases hs : dsBit b with
    | true => exact (takeByte_usesBytes q.2).map (RmImmS.wordSext q.1)
    | false => exact (takeWord_usesBytes q.2).map (RmImmS.word q.1)
  | false =>
    exact (parseRm_usesBytes Reg8.ofCode m bs).bind fun q => (takeByte_usesBytes q.2).map (RmImmS.byte (dsBit b) q.1)

theorem parseRmImm_usesBytes (b m : Byte) (bs : List Byte) :
    UsesBytes (specDispBytes m + if wBit b = true then 2 else 1) bs (parseRmImm b m bs) := by
  unfold parseRmImm
  split
  · exact (parseRm_usesBytes Reg16.ofCode m bs).bind fun q => (takeWord_usesBytes q.2).map (RmImm.word q.1)
  · exact (parseRm_usesBytes Reg8.ofCode m bs).bind fun q => (takeByte_usesBytes q.2).map (RmImm.byte q.1)

theorem parseAccImm_usesBytes (b : Byte) (bs : List Byte) :
    UsesBytes (if wBit b = true then 2 else 1) bs (parseAccImm b bs) := by
  unfold parseAccImm
  split
  · exact (takeWord_usesBytes bs).map AccImm.word
  · exact (takeByte_usesBytes bs).map AccImm.byte

theorem parseRmX_usesBytes (b m : Byte) (bs : List Byte) : UsesBytes (specDispBytes m) bs (parseRmX b m bs) := by
  unfold parseRmX
  split
  · exact (parseRm_usesBytes Reg16.ofCode m bs).map RmX.word
  · exact (parseRm_usesBytes Reg8.ofCode m bs).map RmX.byte

/-- A format of one leading byte or more: it is enough to look at streams that have it. -/
theorem Shape.parse_usesBytes_of_one {sh : Shape} (hnil : sh.parse [] = Option.none)
    (hcount : ∀ b m, 1 ≤ sh.byteCount b m)
    (h : ∀ b bs, UsesBytes (sh.byteCount b (bs.getD 0 0)) (b :: bs) (sh.parse (b :: bs))) (bs : List Byte) :
    UsesBytes (sh.byteCount (bs.getD 0 0) (bs.getD 1 0)) bs (sh.parse bs) := by
  match bs with
  | [] => exact hnil ▸ hcount _ _
  | b :: bs => exact h b bs

/-- A format of two leading bytes or more. -/
theorem Shape.parse_usesBytes_of_two {sh : Shape} (hnil : sh.parse [] = Option.none)
    (hone : ∀ b, sh.parse [b] = Option.none) (hcount : ∀ b m, 2 ≤ sh.byteCount b m)
    (h : ∀ b m bs, UsesBytes (sh.byteCount b m) (b :: m :: bs) (sh.parse (b :: m :: bs))) (bs : List Byte) :
    UsesBytes (sh.byteCount (bs.getD 0 0) (bs.getD 1 0)) bs (sh.parse bs) := by
  refine parse_usesBytes_of_one hnil (fun b m => Nat.le_of_succ_le (hcount b m)) (fun b bs => ?_) bs
  match bs with
  | [] => exact hone b ▸ hcount b 0
  | m :: bs => exact h b m bs

/-- A shape parses exactly the streams that are as long as its format, told from their first two bytes. -/
theorem Shape.parse_usesBytes (sh : Shape) :
    ∀ bs, UsesBytes (sh.byteCount (bs.getD 0 0) (bs.getD 1 0)) bs (sh.parse bs) := by
  have hle (n k : Nat) : n ≤ k + n := Nat.le_add_left n k
  cases sh with
  | rmr mk =>
    exact parse_usesBytes_of_two rfl (fun _ => rfl) (fun _ _ => hle ..) fun b m bs =>
      (((parseRmReg_usesBytes b m bs).map (mk (Dir.ofBit (dsBit b)))).cons m).cons b
  | rmr0 mk =>
    exact parse_usesBytes_of_two rfl (fun _ => rfl) (fun _ _ => hle ..) fun b m bs =>
      (((parseRmReg_usesBytes b m bs).map mk).cons m).cons b
  | rmi mk =>
    exact parse_usesBytes_of_two rfl (fun _ => rfl) (fun _ _ => hle ..) fun b m bs =>
      (((parseRmImmS_usesBytes b m bs).map mk).cons m).cons b
  | rmi0 mk =>
    exact parse_usesBytes_of_two rfl (fun _ => rfl) (fun _ _ => hle ..) fun b m bs =>
      (((parseRmImm_usesBytes b m bs).map mk).cons m).cons b
  | acci mk =>
    exact parse_usesBytes_of_one rfl (fun _ _ => hle ..) fun b bs => ((parseAccImm_usesBytes b bs).map mk).cons b
  | rmxw mk =>
    exact parse_usesBytes_of_two rfl (fun _ => rfl) (fun _ _ => hle ..) fun b m bs =>
      (((parseRmX_usesBytes b m bs).map mk).cons m).cons b
  | rmx mk =>
    exact parse_usesBytes_of_two rfl (fun _ => rfl) (fun _ _ => hle ..) fun b m bs =>
      (((parseRm_usesBytes Reg16.ofCode m bs).map mk).cons m).cons b
  | none i => exact parse_usesBytes_of_one rfl (fun _ _ => hle 1 0) fun b bs => Nat.add_comm bs.length 1
  | fix2 i =>
    exact parse_usesBytes_of_two rfl (fun _ => rfl) (fun _ _ => hle 2 0) fun b m bs => Nat.add_comm bs.length 2
  | rel16 mk =>
    exact parse_usesBytes_of_one rfl (fun _ _ => hle 1 2) fun b bs => ((takeWord_usesBytes bs).map mk).cons b
  | fard mk =>
    exact parse_usesBytes_of_one rfl (fun _ _ => hle 1 4) fun b bs =>
      ((takeWord_usesBytes bs).bind fun q => (takeWord_usesBytes q.2).map (mk q.1)).cons b

end Sys2Proof
end

section
/-! Which streams match (`30_encoding.md` R103, R108, R112): the table against the written lists. -/

namespace Sys2Proof

open Machine (specDispBytes specLength inScope)

/-! ## The table against the scope and the lengths of R103 and R108 -/

/-- A byte under a mask that leaves at most bits 1:0 to fields is the literal bits and those of bits 1:0. -/
theorem exists_low_of_and_eq {b key mask : Byte} (hmask : 3 &&& ~~~mask = ~~~mask) (h : b &&& mask = key) :
    ∃ low ∈ [0, 1, 2, 3], b = key ||| low &&& ~~~mask := by
  have hlow : ∀ c : Byte, c &&& 3 ∈ [0, 1, 2, 3] := by decide
  refine ⟨b &&& 3, hlow b, ?_⟩
  rw [BitVec.and_assoc, hmask, ← h, ← BitVec.and_or_distrib_left, BitVec.or_not_self, BitVec.and_allOnes]

/-- The table's literal bits of a ModRM byte. -/
theorem and_0x38_eq_iff_fields (m ext : Byte) :
    m &&& 0x38 = ext ↔ modField ext = 0 ∧ regField m = regField ext ∧ rmField ext = 0 := by
  have hand : m &&& 0x38 = modrm 0 (regField m) 0 := and_0x38 m
  constructor
  · rintro rfl
    rw [hand]
    simp
  · rintro ⟨hmod, hreg, hrm⟩
    rw [hand, ← modrm_fields ext, hmod, hreg, hrm]

/-- Each row with each of its opcode bytes, whatever the ModRM byte. -/
theorem opcodeTable_spec : ∀ r ∈ opcodeTable, ∃ key mask fs,
    r.fixed = (key, mask) :: fs ∧ 3 &&& ~~~mask = ~~~mask ∧ ∀ low ∈ [0, 1, 2, 3], ∀ m, matchesFixed fs [m] = true →
      inScope (key ||| low &&& ~~~mask) m = true ∧
        r.shape.byteCount (key ||| low &&& ~~~mask) m = specLength (key ||| low &&& ~~~mask) m := by
  simp only [opcodeTable, List.cons_append, List.nil_append, List.forall_mem_cons, List.not_mem_nil, false_imp_iff,
    implies_true, and_true]
  and_intros
  all_goals
    refine ⟨_, _, _, rfl, rfl, ?_⟩
    and_intros
  all_goals
    intro m h
    simp only [matchesFixed, Bool.and_true, beq_iff_eq, and_0x38_eq_iff_fields, and_0xFF] at h
    simp +arith +decide [inScope, specLength, Shape.byteCount, wBit, h]

/-- The first two bytes of a row are in scope and have the row's length. -/
theorem row_spec {r : Row} (hr : r ∈ opcodeTable) {b m : Byte} (h : matchesFixed r.fixed [b, m] = true) :
    inScope b m = true ∧ r.shape.byteCount b m = specLength b m := by
  obtain ⟨key, mask, fs, hfixed, hmask, hspec⟩ := opcodeTable_spec r hr
  rw [hfixed, matchesFixed, Bool.and_eq_true, beq_iff_eq] at h
  obtain ⟨low, hlow, rfl⟩ := exists_low_of_and_eq hmask h.1
  exact hspec low hlow m h.2

/-- An opcode byte that has its row alone. -/
theorem exists_row_of_opcode : ∀ b : Byte,
    (b &&& 0xC4 = 0x00 ∨ b &&& 0xC6 = 0x04) ∨ (b = 0x27 ∨ b = 0x2F ∨ b = 0x37 ∨ b = 0x3F) ∨
      (b = 0x84 ∨ b = 0x85 ∨ b &&& 0xFC = 0x88) ∨
      (b = 0x9A ∨ b = 0xA8 ∨ b = 0xA9 ∨ b = 0xE8 ∨ b = 0xE9 ∨ b = 0xEA) →
    ∃ r ∈ opcodeTable, r.fixed.length = 1 ∧ matchesFixed r.fixed [b] = true := by
  decide

theorem exists_row_of_single {b : Byte} (m : Byte)
    (h : ∃ r ∈ opcodeTable, r.fixed.length = 1 ∧ matchesFixed r.fixed [b] = true) :
    ∃ r ∈ opcodeTable, matchesFixed r.fixed [b, m] = true := by
  obtain ⟨r, hr, hlen, hfixed⟩ := h
  obtain ⟨f, hf⟩ := List.length_eq_one_iff.mp hlen
  rw [hf] at hfixed
  exact ⟨r, hr, hf ▸ matchesFixed_one.mpr (matchesFixed_one.mp hfixed)⟩

/-- An opcode byte and a second byte with literal bits; `n` is the row's place in the table. -/
theorem exists_row_of_pair {b m key mask ext mask' : Byte} (n : Nat)
    (hrow : opcodeTable[n]?.map Row.fixed = some [(key, mask), (ext, mask')]) (hb : b &&& mask = key)
    (hm : m &&& mask' = ext) : ∃ r ∈ opcodeTable, matchesFixed r.fixed [b, m] = true := by
  obtain ⟨r, hr, hfixed⟩ := Option.map_eq_some_iff.mp hrow
  exact ⟨r, List.mem_of_getElem? hr, hfixed ▸ matchesFixed_pair.mpr ⟨hb, hm⟩⟩

/-- Every pair of first bytes in scope is a row's. -/
theorem exists_row_of_inScope {b m : Byte} (h : inScope b m = true) :
    ∃ r ∈ opcodeTable, matchesFixed r.fixed [b, m] = true := by
  have hext {k : BitVec 3} (ext : Byte) (hreg : regField m = k) (hfields : ext = modrm 0 k 0) : m &&& 0x38 = ext := by
    rw [and_0x38_eq_iff_fields, hfields, hreg]
    simp
  unfold inScope at h
  split_ifs at h with h1 h2 h3 h4 h5 h6 h7 h8
  · exact exists_row_of_single m (exists_row_of_opcode b (.inl h1))
  · exact exists_row_of_single m (exists_row_of_opcode b (.inr (.inl h2)))
  · obtain hb | hb := h3
    · have hgroup : ∀ k : BitVec 3, opcodeTable[3 * k.toNat + 2]?.map Row.fixed =
          some [(0x80, 0xFC), (modrm 0 k 0, 0x38)] := by decide
      exact exists_row_of_pair _ (hgroup (regField m)) hb (hext _ rfl rfl)
    · exact exists_row_of_single m (exists_row_of_opcode b (.inr (.inr (.inl hb))))
  · exact exists_row_of_single m (exists_row_of_opcode b (.inr (.inr (.inr h4))))
  · have hb : b &&& 0xFE = 0xC6 := by obtain rfl | rfl := h5 <;> rfl
    exact exists_row_of_pair 28 rfl hb (hext _ (of_decide_eq_true h) rfl)
  · have hb : b &&& 0xFE = 0xF6 := by obtain rfl | rfl := h6 <;> rfl
    obtain hreg | hreg | hreg := of_decide_eq_true h
    · exact exists_row_of_pair 26 rfl hb (hext _ hreg rfl)
    · exact exists_row_of_pair 35 rfl hb (hext _ hreg rfl)
    · exact exists_row_of_pair 36 rfl hb (hext _ hreg rfl)
  · have hb : b &&& 0xFF = 0xFF := by rw [h7]; rfl
    obtain hreg | hreg | hreg | hreg := of_decide_eq_true h
    · exact exists_row_of_pair 38 rfl hb (hext _ hreg rfl)
    · exact exists_row_of_pair 40 rfl hb (hext _ hreg rfl)
    · exact exists_row_of_pair 42 rfl hb (hext _ hreg rfl)
    · exact exists_row_of_pair 44 rfl hb (hext _ hreg rfl)
  · have hm : m &&& 0xFF = 0x0A := by rw [and_0xFF, of_decide_eq_true h]
    obtain rfl | rfl := h8
    · exact exists_row_of_pair 33 rfl rfl hm
    · exact exists_row_of_pair 34 rfl rfl hm

/-! ## Rows on the first two bytes of a stream -/

/-- A row's literal bits are those of two leading bytes at most, and its format has as many bytes at least. -/
theorem fixed_length_le {r : Row} (hr : r ∈ opcodeTable) :
    r.fixed.length ≤ 2 ∧ ∀ b m, r.fixed.length ≤ r.shape.byteCount b m := by
  cases opcodeTable_view r hr <;> simp [Shape.byteCount]

/-- On a stream that is long enough for them, literal bits are looked for in the first two bytes, with zero in the place
of a second one that is not there. -/
theorem matchesFixed_getD {fs : List (Byte × Byte)} {bs : List Byte} (hle : fs.length ≤ 2)
    (hlen : fs.length ≤ bs.length) : matchesFixed fs [bs.getD 0 0, bs.getD 1 0] = matchesFixed fs bs := by
  match fs, bs with
  | [], _ => rfl
  | [_], _ :: _ => simp [matchesFixed]
  | [_, _], _ :: _ :: _ => simp [matchesFixed]

theorem length_le_of_matchesFixed {fs : List (Byte × Byte)} {bs : List Byte} (h : matchesFixed fs bs = true) :
    fs.length ≤ bs.length := by
  induction fs generalizing bs with
  | nil => exact Nat.zero_le _
  | cons f fs ih =>
    cases bs with
    | nil => cases h
    | cons b bs =>
      rw [matchesFixed, Bool.and_eq_true] at h
      exact Nat.succ_le_succ (ih h.2)

/-- What matches has its first two bytes in scope, and is as long as the table of R108 says. -/
theorem spec_of_decode {bs rest : List Byte} {i : Instr} (h : decode bs = .matched i rest) :
    inScope (bs.getD 0 0) (bs.getD 1 0) = true ∧
      bs.length = specLength (bs.getD 0 0) (bs.getD 1 0) + rest.length := by
  obtain ⟨r, hr, hfixed, hparse⟩ := exists_row_of_decode h
  obtain ⟨hle, -⟩ := fixed_length_le hr
  rw [← matchesFixed_getD hle (length_le_of_matchesFixed hfixed)] at hfixed
  obtain ⟨hscope, hcount⟩ := row_spec hr hfixed
  have huses := r.shape.parse_usesBytes bs
  rw [hparse, hcount] at huses
  exact ⟨hscope, huses⟩

/-- A stream with its first two bytes in scope matches if it is as long as the table of R108 says. -/
theorem decode_ne_noMatch {bs : List Byte} (hscope : inScope (bs.getD 0 0) (bs.getD 1 0) = true)
    (hlen : specLength (bs.getD 0 0) (bs.getD 1 0) ≤ bs.length) : decode bs ≠ .noMatch := by
  obtain ⟨r, hr, hfixed⟩ := exists_row_of_inScope hscope
  obtain ⟨hle, hcount⟩ := fixed_length_le hr
  rw [← (row_spec hr hfixed).2] at hlen
  rw [matchesFixed_getD hle ((hcount _ _).trans hlen)] at hfixed
  obtain ⟨⟨i, rest⟩, hparse⟩ := Option.isSome_iff_exists.mp ((r.shape.parse_usesBytes bs).isSome_iff.mpr hlen)
  rw [decode_of_row hr hfixed hparse]
  exact DecodeOutcome.noConfusion

theorem specLength_pos (b m : Byte) : 1 ≤ specLength b m := by
  unfold specLength
  split_ifs <;> omega

theorem decode_ne_malformedField (bs : List Byte) : decode bs ≠ .malformedField := by
  unfold decode
  split
  · exact DecodeOutcome.noConfusion
  · exact DecodeOutcome.noConfusion

/-! ## The classes of `mod` (R84) -/

theorem specBase_eq_ofCode : ∀ c : BitVec 3, Machine.specBase c = Base.ofCode c := by decide

/-- With two bytes after it, a ModRM byte gives the operand of its class, and leaves the bytes that the class does not
use. -/
theorem parseRm_eq_specRm {R : Type} (ofCode : BitVec 3 → R) (m x y : Byte) (rest : List Byte) :
    parseRm ofCode m (x :: y :: rest) =
      some (Machine.specRm ofCode m x y, (x :: y :: rest).drop (specDispBytes m)) := by
  unfold parseRm
  split
  · next hmod => simp [Machine.specRm, specDispBytes, hmod]
  · next hmod =>
    split
    · next hrm => simp [Machine.specRm, specDispBytes, hmod, hrm, takeWord, wordOf_eq_append]
    · next hrm =>
      have hrm : rmField m ≠ 6#3 := hrm
      simp [Machine.specRm, specDispBytes, hmod, hrm, specBase_eq_ofCode]
  · next hmod => simp [Machine.specRm, specDispBytes, hmod, specBase_eq_ofCode]
  · next hmod => simp [Machine.specRm, specDispBytes, hmod, takeWord, wordOf_eq_append, specBase_eq_ofCode]

end Sys2Proof

namespace Sys2Proof.Machine

/-- Settles O4: every row takes the bytes of the table of R108, DAA one and an ADD of a word immediate to a directly
addressed word six. -/
theorem lengthFromFirstTwoBytes : Obligations.LengthFromFirstTwoBytes := by
  refine ⟨fun bs i rest h => ?_, ⟨[0x27], .daa, rfl, rfl⟩,
    ⟨[0x81, 0x06, 0x34, 0x12, 0x78, 0x56], .addRmImm (.word (.mem (.direct 0x1234)) 0x5678), rfl, rfl⟩⟩
  have hlen := decode_length h
  obtain ⟨-, hspec⟩ := spec_of_decode h
  have hi : i.len = specLength (bs.getD 0 0) (bs.getD 1 0) := by omega
  exact ⟨hi, hlen, hi ▸ specLength_pos _ _, len_le i⟩

/-- Settles O6: a stream matches exactly if its first two bytes are in scope and it is long enough for them. -/
theorem noMatchSet : Obligations.NoMatchSet := by
  refine ⟨fun bs => ?_, decode_ne_malformedField, fun s h => by rw [step, h]⟩
  rw [← Bool.not_eq_true, ← Nat.not_le]
  constructor
  · intro h
    by_contra hin
    obtain ⟨hscope, hlen⟩ := not_or.mp hin
    exact decode_ne_noMatch (not_not.mp hscope) (not_not.mp hlen) h
  · intro hout
    cases h : decode bs with
    | matched i rest =>
      obtain ⟨hscope, hlen⟩ := spec_of_decode h
      rw [hscope] at hout
      obtain hout | hout := hout
      · exact absurd rfl hout
      · omega
    | noMatch => rfl
    | malformedField => exact absurd h (decode_ne_malformedField bs)

/-- Settles O9: both words are ADD with the memory or register operand of the class. -/
theorem modRmClasses : Obligations.ModRmClasses := by
  intro m x y rest
  constructor
  · refine decode_of_row (List.mem_of_getElem? (i := 0) rfl) rfl ?_
    change (parseRmReg 0 m (x :: y :: rest)).map _ = _
    rw [parseRmReg, if_neg (by decide), parseRm_eq_specRm]
    rfl
  · refine decode_of_row (List.mem_of_getElem? (i := 0) rfl) rfl ?_
    change (parseRmReg 1 m (x :: y :: rest)).map _ = _
    rw [parseRmReg, if_pos (by decide), parseRm_eq_specRm]
    rfl

end Sys2Proof.Machine
end

section
/-! The views of bytes as text and numbers (`30_encoding.md` R96): digits of one base have one reading. -/

namespace Sys2Proof.Machine

/-! ## Digits of any base -/

section
variable {digit : Char → Option Nat} {base : Nat}

/-- The last digit is the least significant. -/
theorem digitsValue_concat (cs : List Char) (c : Char) :
    digitsValue digit base (cs ++ [c]) =
      (digitsValue digit base cs).bind fun n => (digit c).map fun d => n * base + d := by
  simp [digitsValue, List.foldl_append]

theorem digitsValue_concat_eq_some {cs : List Char} {c : Char} {n : Nat}
    (h : digitsValue digit base (cs ++ [c]) = some n) :
    ∃ q d, digitsValue digit base cs = some q ∧ digit c = some d ∧ q * base + d = n := by
  simpa only [digitsValue_concat, Option.bind_eq_some_iff, Option.map_eq_some_iff, exists_and_left] using h

/-- A number of `k` digits is below the base to the power of `k`. -/
theorem digitsValue_lt (hlt : ∀ c d, digit c = some d → d < base) (cs : List Char) :
    ∀ n, digitsValue digit base cs = some n → n < base ^ cs.length := by
  induction cs using List.reverseRecOn with
  | nil =>
    intro n h
    cases h
    exact Nat.one_pos
  | append_singleton cs c ih =>
    intro n h
    obtain ⟨q, d, hq, hd, rfl⟩ := digitsValue_concat_eq_some h
    have hd := hlt c d hd
    calc q * base + d
      _ < (q + 1) * base := by rw [Nat.add_mul]; omega
      _ ≤ base ^ cs.length * base := Nat.mul_le_mul_right _ (ih q hq)
      _ = base ^ (cs ++ [c]).length := by simp [Nat.pow_succ]

/-- Digit strings of one length with one value are the same, if a digit's value tells its character. -/
theorem digitsValue_inj {char : Nat → Char} (hlt : ∀ c d, digit c = some d → d < base)
    (hchar : ∀ c d, digit c = some d → char d = c) (cs : List Char) :
    ∀ cs' n, cs.length = cs'.length → digitsValue digit base cs = some n → digitsValue digit base cs' = some n →
      cs = cs' := by
  induction cs using List.reverseRecOn with
  | nil =>
    intro cs' n hlen _ _
    exact (List.length_eq_zero_iff.mp hlen.symm).symm
  | append_singleton cs c ih =>
    intro cs' n hlen h h'
    cases cs' using List.reverseRecOn with
    | nil => simp at hlen
    | append_singleton cs' c' =>
      obtain ⟨q, d, hq, hd, rfl⟩ := digitsValue_concat_eq_some h
      obtain ⟨q', d', hq', hd', hn⟩ := digitsValue_concat_eq_some h'
      have hdlt := hlt c d hd
      have hbase := Nat.zero_lt_of_lt hdlt
      obtain ⟨hdiv, hmod⟩ := (Nat.div_mod_unique (a := q * base + d) hbase).mpr
        ⟨by rw [Nat.mul_comm, Nat.add_comm], hdlt⟩
      obtain ⟨hdiv', hmod'⟩ := (Nat.div_mod_unique (a := q * base + d) hbase).mpr
        ⟨by rw [← hn, Nat.mul_comm, Nat.add_comm], hlt c' d' hd'⟩
      obtain rfl : q' = q := hdiv'.symm.trans hdiv
      obtain rfl : d' = d := hmod'.symm.trans hmod
      rw [ih cs' q' (by simpa using hlen) hq hq', ← hchar c d' hd, ← hchar c' d' hd']

end

/-! ## Binary and hexadecimal digits -/

theorem binaryDigit_eq_some {c : Char} {d : Nat} (h : binaryDigit c = some d) :
    d < 2 ∧ (if d = 1 then '1' else '0') = c := by
  unfold binaryDigit at h
  split_ifs at h with h0 h1
  · cases h; exact ⟨by decide, h0.symm⟩
  · cases h; exact ⟨by decide, h1.symm⟩

/-- The hexadecimal digits by their codes. -/
theorem hexDigit_ofNat : ∀ n < 128,
    (hexDigit (Char.ofNat n)).all (fun d => d < 16 && hexChar d == Char.ofNat n) = true := by
  decide

theorem hexDigit_eq_some {c : Char} {d : Nat} (h : hexDigit c = some d) : d < 16 ∧ hexChar d = c := by
  have hascii : c.toNat < 128 := by
    unfold hexDigit at h
    split_ifs at h with hdigit hletter
    · exact Nat.lt_of_le_of_lt hdigit.2 (by decide)
    · exact Nat.lt_of_le_of_lt hletter.2 (by decide)
  have hall := hexDigit_ofNat c.toNat hascii
  rw [Char.ofNat_toNat, h] at hall
  simpa using hall

theorem digitsValue_binaryText (b : Byte) : digitsValue binaryDigit 2 (binaryText b) = some b.toNat := by
  revert b; decide

theorem byteOfBinary_binaryText (b : Byte) : byteOfBinary (binaryText b) = some b := by
  rw [byteOfBinary, if_pos (binaryText_length b), digitsValue_binaryText, Option.map_some, BitVec.ofNat_toNat,
    BitVec.setWidth_eq]

theorem byteOfHex_hexByte (b : Byte) : byteOfHex (hexByte b) = some b := by
  rw [byteOfHex, if_pos (by rfl), digitsValue_hexByte, Option.map_some, BitVec.ofNat_toNat, BitVec.setWidth_eq]

theorem byteOfDecimal_toNat (b : Byte) : byteOfDecimal b.toNat = some b := by
  rw [byteOfDecimal, if_pos b.isLt, BitVec.ofNat_toNat, BitVec.setWidth_eq]

theorem binaryText_of_byteOfBinary {cs : List Char} {b : Byte} (h : byteOfBinary cs = some b) : binaryText b = cs := by
  rw [byteOfBinary, Option.ite_none_right_eq_some] at h
  obtain ⟨hlen, h⟩ := h
  obtain ⟨n, hn, rfl⟩ := Option.map_eq_some_iff.mp h
  have hlt : n < 2 ^ 8 := hlen ▸ digitsValue_lt (fun _ _ hd => (binaryDigit_eq_some hd).1) cs n hn
  refine digitsValue_inj (fun _ _ hd => (binaryDigit_eq_some hd).1) (fun _ _ hd => (binaryDigit_eq_some hd).2) _ _ n
    hlen.symm ?_ hn
  rw [digitsValue_binaryText, BitVec.toNat_ofNat, Nat.mod_eq_of_lt hlt]

theorem hexByte_of_byteOfHex {cs : List Char} {b : Byte} (h : byteOfHex cs = some b) : hexByte b = cs := by
  rw [byteOfHex, Option.ite_none_right_eq_some] at h
  obtain ⟨hlen, h⟩ := h
  obtain ⟨n, hn, rfl⟩ := Option.map_eq_some_iff.mp h
  have hlt : n < 2 ^ 8 := (hlen ▸ digitsValue_lt (fun _ _ hd => (hexDigit_eq_some hd).1) cs n hn : n < 16 ^ 2)
  refine digitsValue_inj (fun _ _ hd => (hexDigit_eq_some hd).1) (fun _ _ hd => (hexDigit_eq_some hd).2) _ _ n
    hlen.symm ?_ hn
  rw [digitsValue_hexByte, BitVec.toNat_ofNat, Nat.mod_eq_of_lt hlt]

theorem toNat_of_byteOfDecimal {n : Nat} {b : Byte} (h : byteOfDecimal n = some b) : b.toNat = n := by
  rw [byteOfDecimal, Option.ite_none_right_eq_some] at h
  obtain ⟨hlt, h⟩ := h
  cases h
  rw [BitVec.toNat_ofNat, Nat.mod_eq_of_lt hlt]

theorem binaryText_getElem? (b : Byte) {k : Nat} (hk : k < 8) :
    (binaryText b)[k]? = some (if b.getLsbD (7 - k) then '1' else '0') := by
  simp [binaryText, hk]

/-- Settles O8: each view reads back, and no other text or number reads as the byte. -/
theorem byteViews : Obligations.ByteViews :=
  ⟨fun b => ⟨binaryText_length b, fun _ hk => binaryText_getElem? b hk⟩, byteOfBinary_binaryText,
    fun _ _ => binaryText_of_byteOfBinary, fun b => ⟨rfl, byteOfHex_hexByte b⟩, fun _ _ => hexByte_of_byteOfHex,
    byteOfDecimal_toNat, fun _ _ => toNat_of_byteOfDecimal, rfl⟩

/-- The bytes that a match has consumed are the encoding of its instruction. -/
theorem take_len_of_decode {bs rest : List Byte} {i : Instr} (h : decode bs = .matched i rest) :
    bs.take i.len = encode i := by
  obtain ⟨hwf, rfl⟩ := encodeDecode bs i rest h
  rw [← encode_length hwf, List.take_left]

/-- Settles O12: the views are of the encoding, which is the bytes consumed. -/
theorem resultViews : Obligations.ResultViews := by
  intro bs i rest h
  have hlen := decode_length h
  obtain ⟨hwf, -⟩ := encodeDecode bs i rest h
  rw [take_len_of_decode h]
  refine ⟨⟨?_, ?_, ?_⟩, ?_, rfl, fun _ => rfl⟩
  · simp [result, Function.comp_def, byteOfBinary_binaryText]
  · simp [result, Function.comp_def, byteOfHex_hexByte]
  · simp [result, Function.comp_def, byteOfDecimal_toNat]
  · simp [result, encode_length hwf, hlen]

end Sys2Proof.Machine
end

section
/-! The matcher on binary strings (`30_encoding.md` R80, R100): the templates of a row accept the leading bytes that its
literal bits accept. -/

namespace Sys2Proof.Machine

/-! ## A byte's digits by its fields -/

/-- The digit of one bit. -/
def bitChar (b : Bool) : Char := if b then '1' else '0'

theorem bitChar_inj {x y : Bool} (h : bitChar x = bitChar y) : x = y := by
  revert x y; decide

theorem bitsText_inj {n : Nat} {v w : BitVec n} (h : bitsText v = bitsText w) : v = w := by
  apply BitVec.eq_of_getLsbD_eq
  intro i hi
  have hdigit := congrArg (·[n - 1 - i]?) h
  have hlt : n - 1 - i < n := by omega
  have hi' : n - 1 - (n - 1 - i) = i := by omega
  simp only [bitsText, List.getElem?_map, List.getElem?_range hlt, Option.map_some, hi', Option.some.injEq] at hdigit
  exact bitChar_inj hdigit

theorem mem_bitsText {n : Nat} {v : BitVec n} {c : Char} (h : c ∈ bitsText v) : c = '0' ∨ c = '1' := by
  obtain ⟨i, -, rfl⟩ := List.mem_map.mp h
  split
  · exact .inr rfl
  · exact .inl rfl

theorem binaryText_opcode2 (b : Byte) :
    binaryText b = bitsText (b.extractLsb' 2 6) ++ [bitChar (dsBit b), bitChar (wBit b)] := by
  simp [binaryText, bitsText, List.range_succ, dsBit, wBit, bitChar]

theorem binaryText_opcode1 (b : Byte) : binaryText b = bitsText (b.extractLsb' 1 7) ++ [bitChar (wBit b)] := by
  simp [binaryText, bitsText, List.range_succ, wBit, bitChar]

theorem binaryText_modrm (m : Byte) :
    binaryText m = bitsText (modField m) ++ (bitsText (regField m) ++ bitsText (rmField m)) := by
  simp [binaryText, bitsText, List.range_succ, modField, regField, rmField]

/-! ## What a template accepts -/

theorem literal_of_mem_bitsText {n : Nat} {v : BitVec n} {c : Char} (h : c ∈ bitsText v) :
    (c != '0' && c != '1') = false := by
  obtain rfl | rfl := mem_bitsText h <;> rfl

/-- Literals accept their own digits. -/
theorem templateMatches_literals (ls cs ts ds : List Char) (hls : ∀ c ∈ ls, (c != '0' && c != '1') = false)
    (hlen : ls.length = cs.length) :
    templateMatches (ls ++ ts) (cs ++ ds) = (ls == cs && templateMatches ts ds) := by
  induction ls generalizing cs with
  | nil => simp [List.length_eq_zero_iff.mp hlen.symm]
  | cons l ls ih =>
    cases cs with
    | nil => cases hlen
    | cons c cs =>
      have hl := hls l (by simp)
      have ih := ih cs (fun d hd => hls d (by simp [hd])) (Nat.succ.inj hlen)
      simp only [List.cons_append, templateMatches, hl, Bool.or_false, ih, List.cons_beq_cons, Bool.and_assoc]

/-- Field letters accept any digits. -/
theorem templateMatches_letters (ls cs ts ds : List Char) (hls : ∀ c ∈ ls, (c != '0' && c != '1') = true)
    (hlen : ls.length = cs.length) : templateMatches (ls ++ ts) (cs ++ ds) = templateMatches ts ds := by
  induction ls generalizing cs with
  | nil => simp [List.length_eq_zero_iff.mp hlen.symm]
  | cons l ls ih =>
    cases cs with
    | nil => cases hlen
    | cons c cs =>
      have hl := hls l (by simp)
      have ih := ih cs (fun d hd => hls d (by simp [hd])) (Nat.succ.inj hlen)
      simp only [List.cons_append, templateMatches, hl, Bool.or_true, ih, Bool.true_and]

theorem templateMatches_bitsText {n : Nat} (v w : BitVec n) (ts ds : List Char) :
    templateMatches (bitsText v ++ ts) (bitsText w ++ ds) = (w == v && templateMatches ts ds) := by
  rw [templateMatches_literals _ _ _ _ (fun _ h => literal_of_mem_bitsText h) (by simp)]
  congr 1
  rw [Bool.eq_iff_iff, beq_iff_eq, beq_iff_eq]
  exact ⟨fun h => (bitsText_inj h).symm, fun h => congrArg bitsText h.symm⟩

section
variable {key : Byte} {ts : List Char}

theorem templateMatches_opcode2 (hkey : key &&& 0xFC = key) (x : Char) (hx : (x != '0' && x != '1') = true)
    (ht : ts = bitsText (key.extractLsb' 2 6) ++ [x, 'w']) (b : Byte) :
    templateMatches ts (binaryText b) = (b &&& 0xFC == key) := by
  rw [ht, binaryText_opcode2, templateMatches_bitsText, Bool.eq_iff_iff, beq_iff_eq, and_0xFC_eq_iff hkey]
  simp [templateMatches, hx]

theorem templateMatches_opcode1 (hkey : key &&& 0xFE = key) (ht : ts = bitsText (key.extractLsb' 1 7) ++ ['w'])
    (b : Byte) : templateMatches ts (binaryText b) = (b &&& 0xFE == key) := by
  rw [ht, binaryText_opcode1, templateMatches_bitsText, Bool.eq_iff_iff, beq_iff_eq, and_0xFE_eq_iff hkey]
  simp [templateMatches]

theorem templateMatches_opcode0 (ht : ts = bitsText key) (b : Byte) :
    templateMatches ts (binaryText b) = (b &&& 0xFF == key) := by
  have h := templateMatches_bitsText key b [] []
  rw [List.append_nil, List.append_nil] at h
  rw [ht, binaryText_eq_bitsText, h, and_0xFF]
  simp [templateMatches]

theorem templateMatches_ext {ext : Byte} (hext : ext &&& 0x38 = ext) (ht : ts = extTemplate ext) (m : Byte) :
    templateMatches ts (binaryText m) = (m &&& 0x38 == ext) := by
  rw [ht, extTemplate, binaryText_modrm, templateMatches_letters _ _ _ _ (by simp) (bitsText_length _).symm,
    templateMatches_bitsText, Bool.eq_iff_iff, beq_iff_eq, and_0x38_eq_iff hext]
  have hrm : templateMatches ['b', 'b', 'b'] (bitsText (rmField m)) = true := by
    exact templateMatches_letters ['b', 'b', 'b'] (bitsText (rmField m)) [] [] (by simp) (bitsText_length _).symm
  simp [hrm]

end

theorem templateMatches_modrm (m : Byte) :
    templateMatches ['m', 'm', 'r', 'r', 'r', 'b', 'b', 'b'] (binaryText m) = true := by
  exact templateMatches_letters ['m', 'm', 'r', 'r', 'r', 'b', 'b', 'b'] (binaryText m) [] [] (by simp)
    (binaryText_length m).symm

/-- A row's templates accept the leading bytes that its literal bits accept. -/
theorem templatesMatch_of_view {r : Row} (hview : RowView r) {bs : List Byte} (hlen : r.templates.length ≤ bs.length) :
    templatesMatch r.templates bs = matchesFixed r.fixed bs := by
  cases hview with
  | rmr hkey ht =>
    match bs, hlen with
    | b :: m :: bs, _ =>
      simp [templatesMatch, matchesFixed, templateMatches_opcode2 hkey 'd' rfl ht, templateMatches_modrm]
  | rmr0 hkey ht =>
    match bs, hlen with
    | b :: m :: bs, _ =>
      simp [templatesMatch, matchesFixed, templateMatches_opcode1 hkey ht, templateMatches_modrm]
  | rmi hkey hext ht hu =>
    match bs, hlen with
    | b :: m :: bs, _ =>
      simp [templatesMatch, matchesFixed, templateMatches_opcode2 hkey 's' rfl ht, templateMatches_ext hext hu]
  | rmi0 hkey hext ht hu | rmxw hkey hext ht hu =>
    match bs, hlen with
    | b :: m :: bs, _ =>
      simp [templatesMatch, matchesFixed, templateMatches_opcode1 hkey ht, templateMatches_ext hext hu]
  | acci hkey ht =>
    match bs, hlen with
    | b :: bs, _ => simp [templatesMatch, matchesFixed, templateMatches_opcode1 hkey ht]
  | rmx hext ht hu =>
    match bs, hlen with
    | b :: m :: bs, _ =>
      simp [templatesMatch, matchesFixed, templateMatches_opcode0 ht, templateMatches_ext hext hu]
  | none ht | rel16 ht | fard ht =>
    match bs, hlen with
    | b :: bs, _ => simp [templatesMatch, matchesFixed, templateMatches_opcode0 ht]
  | fix2 ht hu =>
    match bs, hlen with
    | b :: m :: bs, _ => simp [templatesMatch, matchesFixed, templateMatches_opcode0 ht, templateMatches_opcode0 hu]

end Sys2Proof.Machine
end

section
/-! What a row's templates capture, and the names of the bytes after them (`30_encoding.md` R83 to R94, R100). -/

namespace Sys2Proof.Machine

/-! ## Captures -/

/-- The fields of a raw field map. -/
def RawFieldMap.names (m : RawFieldMap) : List FieldName := m.map Prod.fst

section
variable {m : RawFieldMap} {f : FieldName} {c : Char} {t cs : List Char}

theorem capture_of_not_mem (hf : f ∉ m.names) : capture m f cs = m ++ [(f, cs)] := by
  induction m with
  | nil => rfl
  | cons p m ih =>
    obtain ⟨g, u⟩ := p
    obtain ⟨hg, hf⟩ := not_or.mp (mt List.mem_cons.mpr hf)
    rw [capture, if_neg (Ne.symm hg), ih hf]
    rfl

theorem capture_append_of_not_mem (hf : f ∉ m.names) : capture (m ++ [(f, t)]) f cs = m ++ [(f, t ++ cs)] := by
  induction m with
  | nil => exact if_pos rfl
  | cons p m ih =>
    obtain ⟨g, u⟩ := p
    obtain ⟨hg, hf⟩ := not_or.mp (mt List.mem_cons.mpr hf)
    rw [List.cons_append, capture, if_neg (Ne.symm hg), ih hf]
    rfl

/-- Literals capture nothing. -/
theorem captureTemplate_literals (ls ts ds : List Char) (hls : ∀ c ∈ ls, FieldName.ofLetter c = none)
    (hlen : ls.length = cs.length) : captureTemplate m (ls ++ ts) (cs ++ ds) = captureTemplate m ts ds := by
  induction ls generalizing cs with
  | nil => rw [List.length_eq_zero_iff.mp hlen.symm]; rfl
  | cons l ls ih =>
    cases cs with
    | nil => cases hlen
    | cons c cs =>
      rw [List.cons_append, List.cons_append, captureTemplate, hls l (by simp)]
      exact ih (fun d hd => hls d (by simp [hd])) (Nat.succ.inj hlen)

theorem captureTemplate_bitsText {n : Nat} (v w : BitVec n) (ts ds : List Char) :
    captureTemplate m (bitsText v ++ ts) (bitsText w ++ ds) = captureTemplate m ts ds :=
  captureTemplate_literals _ _ _ (fun c hc => by obtain rfl | rfl := mem_bitsText hc <;> rfl) (by simp)

end

/-! ## Leading fields -/

/-- The fields of the ModRM byte whose `reg` bits are a field. -/
def modRegRm (m : Byte) : RawFieldMap :=
  [(.mod, bitsText (modField m)), (.reg, bitsText (regField m)), (.rm, bitsText (rmField m))]

/-- The fields of the ModRM byte whose `reg` bits are literal. -/
def modRm (m : Byte) : RawFieldMap := [(.mod, bitsText (modField m)), (.rm, bitsText (rmField m))]

/-- The fields of a format's leading bytes. -/
def leadingOf (b m : Byte) : Shape → RawFieldMap
  | .rmr _ => [(.d, [bitChar (dsBit b)]), (.w, [bitChar (wBit b)])] ++ modRegRm m
  | .rmr0 _ => [(.w, [bitChar (wBit b)])] ++ modRegRm m
  | .rmi _ => [(.s, [bitChar (dsBit b)]), (.w, [bitChar (wBit b)])] ++ modRm m
  | .rmi0 _ | .rmxw _ => [(.w, [bitChar (wBit b)])] ++ modRm m
  | .acci _ => [(.w, [bitChar (wBit b)])]
  | .rmx _ => modRm m
  | .none _ | .fix2 _ | .rel16 _ | .fard _ => []

theorem captureTemplate_opcode0 {key : Byte} {ts : List Char} (ht : ts = bitsText key) (m : RawFieldMap) (b : Byte) :
    captureTemplate m ts (binaryText b) = m := by
  have h := captureTemplate_bitsText (m := m) key b [] []
  rw [List.append_nil, List.append_nil] at h
  rw [ht, binaryText_eq_bitsText, h]
  rfl

theorem captureTemplate_ext {M : RawFieldMap} {ext : Byte} {ts : List Char} (ht : ts = extTemplate ext)
    (hmod : .mod ∉ M.names) (hrm : .rm ∉ M.names) (m : Byte) :
    captureTemplate M ts (binaryText m) = M ++ modRm m := by
  have hrm' (t : List Char) : .rm ∉ RawFieldMap.names (M ++ [(.mod, t)]) := by
    simpa [RawFieldMap.names] using hrm
  have hmods (x y : Char) (tl tl' : List Char) :
      captureTemplate M ('m' :: 'm' :: tl) (x :: y :: tl') = captureTemplate (M ++ [(.mod, [x, y])]) tl tl' := by
    change captureTemplate (capture (capture M .mod [x]) .mod [y]) tl tl' = _
    rw [capture_of_not_mem hmod, capture_append_of_not_mem hmod]
    rfl
  have hrms (t : List Char) (x y z : Char) :
      captureTemplate (M ++ [(.mod, t)]) ['b', 'b', 'b'] [x, y, z] = M ++ [(.mod, t)] ++ [(.rm, [x, y, z])] := by
    change capture (capture (capture (M ++ [(.mod, t)]) .rm [x]) .rm [y]) .rm [z] = _
    rw [capture_of_not_mem (hrm' t), capture_append_of_not_mem (hrm' t), capture_append_of_not_mem (hrm' t)]
    rfl
  rw [ht, extTemplate, binaryText_modrm]
  refine (hmods _ _ _ _).trans ((captureTemplate_bitsText _ _ _ _).trans ((hrms _ _ _ _).trans ?_))
  rw [List.append_assoc]
  rfl

theorem leadingFields_of_view {r : Row} (hview : RowView r) {bs : List Byte} (hlen : r.templates.length ≤ bs.length) :
    Row.leadingFields r bs = leadingOf (bs.getD 0 0) (bs.getD 1 0) r.shape := by
  unfold Row.leadingFields
  cases hview with
  | rmr hkey ht =>
    match bs, hlen with
    | b :: m :: bs, _ =>
      rw [captureTemplates, ht, binaryText_opcode2, captureTemplate_bitsText, captureTemplates, binaryText_modrm]
      rfl
  | rmr0 hkey ht =>
    match bs, hlen with
    | b :: m :: bs, _ =>
      rw [captureTemplates, ht, binaryText_opcode1, captureTemplate_bitsText, captureTemplates, binaryText_modrm]
      rfl
  | rmi hkey hext ht hu =>
    match bs, hlen with
    | b :: m :: bs, _ =>
      rw [captureTemplates, ht, binaryText_opcode2, captureTemplate_bitsText]
      exact captureTemplate_ext (M := [(.s, [bitChar (dsBit b)]), (.w, [bitChar (wBit b)])]) hu
        (by simp [RawFieldMap.names]) (by simp [RawFieldMap.names]) m
  | rmi0 hkey hext ht hu | rmxw hkey hext ht hu =>
    match bs, hlen with
    | b :: m :: bs, _ =>
      rw [captureTemplates, ht, binaryText_opcode1, captureTemplate_bitsText]
      exact captureTemplate_ext (M := [(.w, [bitChar (wBit b)])]) hu (by simp [RawFieldMap.names])
        (by simp [RawFieldMap.names]) m
  | acci hkey ht =>
    match bs, hlen with
    | b :: bs, _ =>
      rw [captureTemplates, ht, binaryText_opcode1, captureTemplate_bitsText]
      rfl
  | rmx hext ht hu =>
    match bs, hlen with
    | b :: m :: bs, _ =>
      rw [captureTemplates, captureTemplate_opcode0 ht]
      exact captureTemplate_ext hu (by decide) (by decide) m
  | none ht | rel16 ht | fard ht =>
    match bs, hlen with
    | b :: bs, _ => exact captureTemplate_opcode0 ht [] b
  | fix2 ht hu =>
    match bs, hlen with
    | b :: m :: bs, _ =>
      rw [captureTemplates, captureTemplate_opcode0 ht]
      exact captureTemplate_opcode0 hu [] m

/-! ## The names of the bytes after the leading ones -/

/-- The fields of the displacement or direct-address bytes by the classes of `mod` (R84, R86). -/
def dispNames (m : Byte) : List FieldName :=
  if modField m = 0 ∧ rmField m = 6 then [.ea, .ea]
  else if modField m = 2 then [.disp, .disp]
  else if modField m = 1 then [.disp]
  else []

/-- The fields of the immediate bytes. -/
def immNames (word : Bool) : List FieldName := if word then [.val, .val] else [.val]

theorem immNames_length (word : Bool) : (immNames word).length = if word = true then 2 else 1 := by
  cases word <;> rfl

/-- The fields of a format's bytes after the leading ones. -/
def trailingOf (b m : Byte) : Shape → List FieldName
  | .rmr _ | .rmr0 _ | .rmxw _ | .rmx _ => dispNames m
  | .rmi _ => dispNames m ++ immNames (wBit b && !dsBit b)
  | .rmi0 _ => dispNames m ++ immNames (wBit b)
  | .acci _ => immNames (wBit b)
  | .none _ | .fix2 _ => []
  | .rel16 _ => [.val, .val]
  | .fard _ => [.val, .val, .val2, .val2]

theorem dispNames_length (m : Byte) : (dispNames m).length = specDispBytes m := by
  unfold dispNames specDispBytes
  split_ifs <;> simp_all

/-- The first variant that fits gives the bytes of its class. -/
theorem dispFields_eq {M : RawFieldMap} {m : Byte} (hmod : M.lookup .mod = some (bitsText (modField m)))
    (hrm : M.lookup .rm = some (bitsText (rmField m))) : dispFields M = dispNames m := by
  unfold dispFields dispNames
  simp only [RmVariant.fits, hmod, hrm]
  generalize modField m = x
  generalize rmField m = y
  revert x y
  decide

theorem immFields_word (w : Bool) :
    (if some [bitChar w] = some ['1'] then [FieldName.val, .val] else [.val]) = immNames w := by
  cases w <;> rfl

theorem immFields_sign (s w : Bool) :
    (if some [bitChar s] = some ['0'] ∧ some [bitChar w] = some ['1'] then [FieldName.val, .val] else [.val]) =
      immNames (w && !s) := by
  cases s <;> cases w <;> rfl

theorem trailing_of_view {r : Row} (hview : RowView r) {bs : List Byte} (hlen : r.templates.length ≤ bs.length) :
    Row.trailing r bs = trailingOf (bs.getD 0 0) (bs.getD 1 0) r.shape := by
  rw [Row.trailing, leadingFields_of_view hview hlen]
  generalize bs.getD 0 0 = b
  generalize bs.getD 1 0 = m
  cases hview with
  | rmr | rmr0 | rmxw | rmx =>
    exact congrArg (· ++ []) (dispFields_eq rfl rfl) |>.trans (List.append_nil _)
  | rmi => exact congr_arg₂ (· ++ ·) (dispFields_eq rfl rfl) (immFields_sign _ _)
  | rmi0 => exact congr_arg₂ (· ++ ·) (dispFields_eq rfl rfl) (immFields_word _)
  | acci => exact immFields_word _
  | none | fix2 | rel16 | fard => rfl

/-- The templates of a row's leading and trailing bytes are as many as its format has bytes. -/
theorem trailingOf_length {r : Row} (hview : RowView r) (b m : Byte) :
    r.templates.length + (trailingOf b m r.shape).length = r.shape.byteCount b m := by
  cases hview with
  | rmr | rmr0 | rmxw | rmx => simp [trailingOf, Shape.byteCount, dispNames_length, Nat.add_comm]
  | rmi | rmi0 | acci =>
    simp [trailingOf, Shape.byteCount, dispNames_length, immNames_length, Nat.add_comm]
  | none | fix2 | rel16 | fard => rfl

/-! ## Where a row matches -/

theorem parse_isSome_iff (r : Row) (bs : List Byte) :
    (r.shape.parse bs).isSome = true ↔ r.shape.byteCount (bs.getD 0 0) (bs.getD 1 0) ≤ bs.length :=
  (r.shape.parse_usesBytes bs).isSome_iff

/-- The matcher on binary strings accepts what the row decodes. -/
theorem test_of_view {r : Row} (hview : RowView r) (bs : List Byte) : Row.test r bs = (r.decode bs).isSome := by
  have hcount := trailingOf_length hview (bs.getD 0 0) (bs.getD 1 0)
  have hparse := parse_isSome_iff r bs
  rw [row_test_eq, Bool.eq_iff_iff, Bool.and_eq_true, decide_eq_true_iff, Row.decode]
  by_cases hlen : r.templates.length ≤ bs.length
  · rw [templatesMatch_of_view hview hlen, trailing_of_view hview hlen]
    by_cases hfixed : matchesFixed r.fixed bs = true
    · rw [if_pos hfixed, hparse]
      simp only [hfixed, true_and]
      omega
    · simp [hfixed]
  · have hno : (r.shape.parse bs).isSome ≠ true := by
      rw [Ne, hparse]
      omega
    have hshort : templatesMatch r.templates bs ≠ true := fun h => hlen (templatesMatch_length _ _ h)
    simp only [Bool.not_eq_true, Option.isSome_eq_false_iff, Option.isNone_iff_eq_none] at hno
    simp [hshort, hno]

/-- Settles O7: a row's templates have the literal digits of its `match` and mask, and as many bytes as its format. -/
theorem templatesAgreeWithMasks : Obligations.TemplatesAgreeWithMasks := by
  intro r hr bs
  have hview := opcodeTable_view r hr
  refine ⟨templatesMatch_of_view hview, fun hshort => ?_, test_of_view hview bs, ?_⟩
  · rw [← Bool.not_eq_true]
    exact fun h => absurd (templatesMatch_length _ _ h) (Nat.not_le.mpr hshort)
  · rw [rawFields_isSome, test_of_view hview bs]

end Sys2Proof.Machine
end

section
/-! Typed fields and the raw fields that the matcher captures (`30_encoding.md` R81, R87, R91 to R95, R100): fields are
added one after another, each spelt by the bytes that follow those of the fields before it. -/

namespace Sys2Proof.Machine

/-! ## Fields spelt by bytes -/

/-- Names and binary texts of typed fields. -/
def spelling (fs : List TypedField) : RawFieldMap := fs.map fun f => (f.name, f.binaryText)

/-- The binary texts of the fields of whole bytes. -/
def trailingText (fs : List TypedField) : List Char :=
  (fs.filter fun f => f.name.isTrailing).flatMap TypedField.binaryText

@[simp] theorem spelling_append (fs gs : List TypedField) : spelling (fs ++ gs) = spelling fs ++ spelling gs :=
  List.map_append

@[simp] theorem trailingText_append (fs gs : List TypedField) :
    trailingText (fs ++ gs) = trailingText fs ++ trailingText gs := by
  simp [trailingText]

@[simp] theorem spelling_nil : spelling [] = [] := rfl

@[simp] theorem spelling_bitField (name : FieldName) (x : Bool) (fs : List TypedField) :
    spelling (bitField name x :: fs) = (name, [bitChar x]) :: spelling fs := rfl

@[simp] theorem spelling_wField (word : Bool) (fs : List TypedField) :
    spelling (wField word :: fs) = (.w, [bitChar word]) :: spelling fs := rfl

@[simp] theorem spelling_namedField {n : Nat} (name : FieldName) (text : String) (code : BitVec n)
    (fs : List TypedField) : spelling (namedField name text code :: fs) = (name, bitsText code) :: spelling fs := rfl

@[simp] theorem spelling_extField (k : BitVec 3) (fs : List TypedField) :
    spelling (extField k :: fs) = (.ext, bitsText k) :: spelling fs := rfl

@[simp] theorem bitField_name (name : FieldName) (x : Bool) : (bitField name x).name = name := rfl

@[simp] theorem wField_name (word : Bool) : (wField word).name = .w := rfl

@[simp] theorem namedField_name {n : Nat} (name : FieldName) (text : String) (code : BitVec n) :
    (namedField name text code).name = name := rfl

/-- The fields `fs` are spelt by the captures `M` of the leading bytes and by the bytes `bs` after them, which `names`
names. -/
structure Spells (M : RawFieldMap) (names : List FieldName) (bs : List Byte) (fs : List TypedField) : Prop where
  length_eq : names.length = bs.length
  captured : captureBytes M names bs = spelling fs
  trailing : trailingText fs = bs.flatMap binaryText

theorem captureBytes_append {M : RawFieldMap} {names more : List FieldName} {bs cs : List Byte}
    (h : names.length = bs.length) :
    captureBytes M (names ++ more) (bs ++ cs) = captureBytes (captureBytes M names bs) more cs := by
  induction names generalizing M bs with
  | nil => rw [List.length_eq_zero_iff.mp h.symm]; rfl
  | cons f names ih =>
    cases bs with
    | nil => cases h
    | cons b bs => exact ih (Nat.succ.inj h)

theorem captureBytes_nil (M : RawFieldMap) (bs : List Byte) : captureBytes M [] bs = M := by
  cases bs <;> rfl

namespace Spells

variable {M : RawFieldMap} {names : List FieldName} {bs : List Byte} {fs : List TypedField}

/-- Fields of the leading bytes alone. -/
theorem leading (h : ∀ f ∈ fs, f.name.isTrailing = false) : Spells (spelling fs) [] [] fs where
  length_eq := rfl
  captured := captureBytes_nil _ _
  trailing := by
    rw [trailingText, List.filter_eq_nil_iff.mpr fun f hf => by simp [h f hf]]
    rfl

/-- One more field, of one byte. -/
theorem byte (h : Spells M names bs fs) {f : TypedField} {v : Byte} (hf : f.binaryText = binaryText v)
    (hname : f.name.isTrailing = true) (hfresh : f.name ∉ fs.map TypedField.name) :
    Spells M (names ++ [f.name]) (bs ++ [v]) (fs ++ [f]) where
  length_eq := by simp [h.length_eq]
  captured := by
    rw [captureBytes_append h.length_eq, h.captured]
    change capture (spelling fs) f.name (binaryText v) = _
    rw [capture_of_not_mem, spelling_append, ← hf]
    · rfl
    · simpa [spelling, RawFieldMap.names] using hfresh
  trailing := by
    rw [trailingText_append, h.trailing]
    simp [trailingText, hname, hf]

/-- One more field, of one word. -/
theorem word (h : Spells M names bs fs) {f : TypedField} {v : Word} (hf : f.binaryText = wordBinaryText v)
    (hname : f.name.isTrailing = true) (hfresh : f.name ∉ fs.map TypedField.name) :
    Spells M (names ++ [f.name, f.name]) (bs ++ wordBytes v) (fs ++ [f]) where
  length_eq := by simp [h.length_eq]
  captured := by
    have hfresh : f.name ∉ (spelling fs).names := by simpa [spelling, RawFieldMap.names] using hfresh
    rw [captureBytes_append h.length_eq, h.captured]
    change capture (capture (spelling fs) f.name (binaryText (lowByte v))) f.name (binaryText (highByte v)) = _
    rw [capture_of_not_mem hfresh, capture_append_of_not_mem hfresh, spelling_append]
    simp [spelling, hf, wordBinaryText]
  trailing := by
    rw [trailingText_append, h.trailing]
    simp [trailingText, hname, hf, wordBinaryText, wordBytes]

end Spells

/-! ## Operands with a ModRM byte -/

/-- The spelling of the fields of a ModRM byte, `reg` among them. -/
def modrmSpelling (pre reg : List TypedField) (m : Byte) : RawFieldMap :=
  spelling pre ++ ((.mod, bitsText (modField m)) :: spelling reg ++ [(.rm, bitsText (rmField m))])

section
variable {pre reg : List TypedField} (hpre : ∀ f ∈ pre, f.name.isTrailing = false)
  (hreg : ∀ f ∈ reg, f.name.isTrailing = false)
include hpre hreg

/-- The fields of the leading bytes of an operand with a ModRM byte. -/
theorem Spells.modrm {m : Byte} {x y : TypedField} (hx : x = plainField .mod (modField m)) (hname : y.name = .rm)
    (htext : y.binaryText = bitsText (rmField m)) :
    Spells (modrmSpelling pre reg m) [] [] (pre ++ (x :: reg ++ [y])) ∧
      ∀ f : FieldName, f.isTrailing = true → f ∉ (pre ++ (x :: reg ++ [y])).map TypedField.name := by
  have hleading : ∀ f ∈ pre ++ (x :: reg ++ [y]), f.name.isTrailing = false := by
    simp only [List.mem_append, List.mem_cons, List.not_mem_nil, or_false]
    rintro f (hf | (rfl | hf) | rfl)
    · exact hpre f hf
    · rw [hx]; rfl
    · exact hreg f hf
    · rw [hname]; rfl
  constructor
  · have hspelling : modrmSpelling pre reg m = spelling (pre ++ (x :: reg ++ [y])) := by
      simp [modrmSpelling, spelling, hx, hname, htext, plainField]
    exact hspelling ▸ Spells.leading hleading
  · intro f hf hmem
    obtain ⟨g, hg, rfl⟩ := List.mem_map.mp hmem
    rw [hleading g hg] at hf
    cases hf

/-- The bytes of an `rm` operand spell its fields, after those of the opcode byte. -/
theorem exists_spells_rmFields {R : Type} (name : R → String) (code : R → BitVec 3) (k : BitVec 3) {rm : Rm R}
    (hw : rm.wf = true) :
    ∃ m tl, encodeRm code k rm = m :: tl ∧ regField m = k ∧
      Spells (modrmSpelling pre reg m) (dispNames m) tl (pre ++ rmFields name code reg rm) := by
  cases rm with
  | reg r =>
    obtain ⟨h, -⟩ := Spells.modrm hpre hreg (m := modrm 3 k (code r)) (x := plainField .mod 3#2)
      (y := namedField .rm (name r) (code r)) (by simp) rfl (by simp [namedField])
    exact ⟨_, _, rfl, by simp, by simpa [dispNames, rmFields] using h⟩
  | mem op =>
    cases op with
    | direct ea =>
      obtain ⟨h, hfresh⟩ := Spells.modrm hpre hreg (m := modrm 0 k 6) (x := plainField .mod 0#2)
        (y := plainField .rm 6#3) (by simp) rfl (by simp [plainField])
      have h := h.word (f := ⟨.ea, some (hexWord ea), wordBinaryText ea, some ea.toNat⟩) rfl rfl (hfresh _ rfl)
      exact ⟨_, _, rfl, by simp, by simpa [dispNames, rmFields] using h⟩
    | noDisp b =>
      have hb : b.code ≠ 6#3 := by
        intro hb
        cases b <;> cases hb
        cases hw
      obtain ⟨h, -⟩ := Spells.modrm hpre hreg (m := modrm 0 k b.code) (x := plainField .mod 0#2)
        (y := namedField .rm b.name b.code) (by simp) rfl (by simp [namedField])
      exact ⟨_, _, rfl, by simp, by simpa [dispNames, rmFields, hb] using h⟩
    | disp8 b d =>
      obtain ⟨h, hfresh⟩ := Spells.modrm hpre hreg (m := modrm 1 k b.code) (x := plainField .mod 1#2)
        (y := namedField .rm b.name b.code) (by simp) rfl (by simp [namedField])
      have h := h.byte (f := ⟨.disp, some (signedByteText d), binaryText d, some (sext16 d).toNat⟩) rfl rfl
        (hfresh _ rfl)
      exact ⟨_, _, rfl, by simp, by simpa [dispNames, rmFields] using h⟩
    | disp16 b d =>
      obtain ⟨h, hfresh⟩ := Spells.modrm hpre hreg (m := modrm 2 k b.code) (x := plainField .mod 2#2)
        (y := namedField .rm b.name b.code) (by simp) rfl (by simp [namedField])
      have h := h.word (f := ⟨.disp, some ('+' :: hexWord d), wordBinaryText d, some d.toNat⟩) rfl rfl (hfresh _ rfl)
      exact ⟨_, _, rfl, by simp, by simpa [dispNames, rmFields] using h⟩

end

/-- No field of an `rm` operand is an immediate. -/
theorem val_not_mem_rmFields {R : Type} (name : R → String) (code : R → BitVec 3) (rm : Rm R) :
    .val ∉ (rmFields name code [] rm).map TypedField.name := by
  cases rm with
  | reg r => simp [rmFields, plainField, namedField]
  | mem op => cases op <;> simp [rmFields, plainField, namedField]

/-- The fields of an opcode byte in front of those of an `rm` operand. -/
theorem val_not_mem_append {pre : List TypedField} (hpre : ∀ f ∈ pre, f.name.isTrailing = false) {R : Type}
    (name : R → String) (code : R → BitVec 3) (rm : Rm R) :
    .val ∉ (pre ++ rmFields name code [] rm).map TypedField.name := by
  rw [List.map_append, List.mem_append]
  rintro (h | h)
  · obtain ⟨f, hf, hname⟩ := List.mem_map.mp h
    have := hpre f hf
    rw [hname] at this
    cases this
  · exact val_not_mem_rmFields name code rm h

/-! ## Formats -/

@[simp] theorem dsBit_opcode2 (op : BitVec 6) (x w : BitVec 1) : dsBit (op ++ x ++ w) = x.getLsbD 0 := by
  revert op x w; decide

@[simp] theorem wBit_opcode2 (op : BitVec 6) (x w : BitVec 1) : wBit (op ++ x ++ w) = w.getLsbD 0 := by
  revert op x w; decide

@[simp] theorem wBit_opcode1 (op : BitVec 7) (w : BitVec 1) : wBit (op ++ w) = w.getLsbD 0 := by
  revert op w; decide

@[simp] theorem bit_getElem_zero (x : Bool) : (bit x)[0] = x := by
  cases x <;> rfl

/-- The encoded bytes spell the fields of a format, after its leading bytes. -/
def SpellsEncoding (sh : Shape) (leading : Nat) (bytes : List Byte) (fs : List TypedField) : Prop :=
  ∀ rest, Spells (leadingOf ((bytes ++ rest).getD 0 0) ((bytes ++ rest).getD 1 0) sh)
    (trailingOf ((bytes ++ rest).getD 0 0) ((bytes ++ rest).getD 1 0) sh) (bytes.drop leading) fs

section
variable {op6 : BitVec 6} {op7 : BitVec 7} {ext : BitVec 3}

theorem spellsEncoding_rmr (mk : Dir → RmReg → Instr) (d : Dir) {o : RmReg} (hw : o.wf = true) :
    SpellsEncoding (.rmr mk) 2 (encodeRmr op6 d o) (bitField .d d.bit :: rmRegFields o) := by
  intro rest
  cases o with
  | byte rm reg =>
    obtain ⟨m, tl, henc, hreg, h⟩ := exists_spells_rmFields (pre := [bitField .d d.bit, wField false])
      (reg := [namedField .reg reg.name reg.code]) (by simp [FieldName.isTrailing]) (by simp [FieldName.isTrailing])
      Reg8.name Reg8.code reg.code hw
    simpa [encodeRmr, henc, leadingOf, modRegRm, modrmSpelling, hreg, trailingOf, rmRegFields] using h
  | word rm reg =>
    obtain ⟨m, tl, henc, hreg, h⟩ := exists_spells_rmFields (pre := [bitField .d d.bit, wField true])
      (reg := [namedField .reg reg.name reg.code]) (by simp [FieldName.isTrailing]) (by simp [FieldName.isTrailing])
      Reg16.name Reg16.code reg.code hw
    simpa [encodeRmr, henc, leadingOf, modRegRm, modrmSpelling, hreg, trailingOf, rmRegFields] using h

theorem spellsEncoding_rmr0 (mk : RmReg → Instr) {o : RmReg} (hw : o.wf = true) :
    SpellsEncoding (.rmr0 mk) 2 (encodeRmr0 op7 o) (rmRegFields o) := by
  intro rest
  cases o with
  | byte rm reg =>
    obtain ⟨m, tl, henc, hreg, h⟩ := exists_spells_rmFields (pre := [wField false])
      (reg := [namedField .reg reg.name reg.code]) (by simp [FieldName.isTrailing]) (by simp [FieldName.isTrailing])
      Reg8.name Reg8.code reg.code hw
    simpa [encodeRmr0, henc, leadingOf, modRegRm, modrmSpelling, hreg, trailingOf, rmRegFields] using h
  | word rm reg =>
    obtain ⟨m, tl, henc, hreg, h⟩ := exists_spells_rmFields (pre := [wField true])
      (reg := [namedField .reg reg.name reg.code]) (by simp [FieldName.isTrailing]) (by simp [FieldName.isTrailing])
      Reg16.name Reg16.code reg.code hw
    simpa [encodeRmr0, henc, leadingOf, modRegRm, modrmSpelling, hreg, trailingOf, rmRegFields] using h

theorem spellsEncoding_rmi (mk : RmImmS → Instr) {o : RmImmS} (hw : o.wf = true) :
    SpellsEncoding (.rmi mk) 2 (encodeRmi op6 ext o) (rmImmSFields o) := by
  intro rest
  cases o with
  | byte s rm v =>
    have hpre : ∀ f ∈ [bitField .s s, wField false], f.name.isTrailing = false := by simp [FieldName.isTrailing]
    obtain ⟨m, tl, henc, -, h⟩ := exists_spells_rmFields hpre (reg := []) (by simp) Reg8.name Reg8.code ext hw
    have h := h.byte (f := valByte s v) rfl rfl (val_not_mem_append hpre Reg8.name Reg8.code rm)
    simpa [encodeRmi, henc, leadingOf, modRm, modrmSpelling, trailingOf, rmImmSFields, immNames, rm8Fields, valByte]
      using h
  | word rm v =>
    have hpre : ∀ f ∈ [bitField .s false, wField true], f.name.isTrailing = false := by simp [FieldName.isTrailing]
    obtain ⟨m, tl, henc, -, h⟩ := exists_spells_rmFields hpre (reg := []) (by simp) Reg16.name Reg16.code ext hw
    have h := h.word (f := wordField .val v) rfl rfl (val_not_mem_append hpre Reg16.name Reg16.code rm)
    simpa [encodeRmi, henc, leadingOf, modRm, modrmSpelling, trailingOf, rmImmSFields, immNames, rm16Fields, wordField]
      using h
  | wordSext rm v =>
    have hpre : ∀ f ∈ [bitField .s true, wField true], f.name.isTrailing = false := by simp [FieldName.isTrailing]
    obtain ⟨m, tl, henc, -, h⟩ := exists_spells_rmFields hpre (reg := []) (by simp) Reg16.name Reg16.code ext hw
    have h := h.byte (f := valByte true v) rfl rfl (val_not_mem_append hpre Reg16.name Reg16.code rm)
    simpa [encodeRmi, henc, leadingOf, modRm, modrmSpelling, trailingOf, rmImmSFields, immNames, rm16Fields, valByte]
      using h

theorem spellsEncoding_rmi0 (mk : RmImm → Instr) {o : RmImm} (hw : o.wf = true) :
    SpellsEncoding (.rmi0 mk) 2 (encodeRmi0 op7 ext o) (rmImmFields o) := by
  intro rest
  cases o with
  | byte rm v =>
    have hpre : ∀ f ∈ [wField false], f.name.isTrailing = false := by simp [FieldName.isTrailing]
    obtain ⟨m, tl, henc, -, h⟩ := exists_spells_rmFields hpre (reg := []) (by simp) Reg8.name Reg8.code ext hw
    have h := h.byte (f := valByte false v) rfl rfl (val_not_mem_append hpre Reg8.name Reg8.code rm)
    simpa [encodeRmi0, henc, leadingOf, modRm, modrmSpelling, trailingOf, rmImmFields, immNames, rm8Fields, valByte]
      using h
  | word rm v =>
    have hpre : ∀ f ∈ [wField true], f.name.isTrailing = false := by simp [FieldName.isTrailing]
    obtain ⟨m, tl, henc, -, h⟩ := exists_spells_rmFields hpre (reg := []) (by simp) Reg16.name Reg16.code ext hw
    have h := h.word (f := wordField .val v) rfl rfl (val_not_mem_append hpre Reg16.name Reg16.code rm)
    simpa [encodeRmi0, henc, leadingOf, modRm, modrmSpelling, trailingOf, rmImmFields, immNames, rm16Fields, wordField]
      using h

theorem spellsEncoding_rmxw (mk : RmX → Instr) {o : RmX} (hw : o.wf = true) :
    SpellsEncoding (.rmxw mk) 2 (encodeRmxw op7 ext o) (rmXFields o) := by
  intro rest
  cases o with
  | byte rm =>
    obtain ⟨m, tl, henc, -, h⟩ := exists_spells_rmFields (pre := [wField false]) (reg := [])
      (by simp [FieldName.isTrailing]) (by simp) Reg8.name Reg8.code ext hw
    simpa [encodeRmxw, henc, leadingOf, modRm, modrmSpelling, trailingOf, rmXFields, rm8Fields] using h
  | word rm =>
    obtain ⟨m, tl, henc, -, h⟩ := exists_spells_rmFields (pre := [wField true]) (reg := [])
      (by simp [FieldName.isTrailing]) (by simp) Reg16.name Reg16.code ext hw
    simpa [encodeRmxw, henc, leadingOf, modRm, modrmSpelling, trailingOf, rmXFields, rm16Fields] using h

theorem spellsEncoding_rmx (mk : Rm Reg16 → Instr) (key : Byte) {rm : Rm Reg16} (hw : rm.wf = true) :
    SpellsEncoding (.rmx mk) 2 (key :: encodeRm Reg16.code ext rm) (rm16Fields rm) := by
  intro rest
  obtain ⟨m, tl, henc, -, h⟩ := exists_spells_rmFields (pre := []) (reg := []) (by simp) (by simp) Reg16.name Reg16.code
    ext hw
  simpa [henc, leadingOf, modRm, modrmSpelling, trailingOf, rm16Fields] using h

theorem spellsEncoding_acci (mk : AccImm → Instr) (o : AccImm) :
    SpellsEncoding (.acci mk) 1 (encodeAcci op7 o) (accImmFields o) := by
  intro rest
  cases o with
  | byte v =>
    have h := (Spells.leading (fs := [wField false]) (by simp [FieldName.isTrailing])).byte (f := valByte false v) rfl
      rfl (by simp [valByte])
    simpa [encodeAcci, leadingOf, trailingOf, immNames, accImmFields, valByte] using h
  | word v =>
    have h := (Spells.leading (fs := [wField true]) (by simp [FieldName.isTrailing])).word (f := wordField .val v) rfl
      rfl (by simp [wordField])
    simpa [encodeAcci, leadingOf, trailingOf, immNames, accImmFields, wordField] using h

theorem spells_nil : Spells [] [] [] [] := Spells.leading (fs := []) (by simp)

theorem spellsEncoding_rel16 (mk : Word → Instr) (key : Byte) (v : Word) :
    SpellsEncoding (.rel16 mk) 1 (key :: wordBytes v) [wordField .val v] :=
  fun _ => spells_nil.word (f := wordField .val v) rfl rfl (by simp)

theorem spellsEncoding_fard (mk : Word → Word → Instr) (key : Byte) (v v2 : Word) :
    SpellsEncoding (.fard mk) 1 (key :: wordBytes v ++ wordBytes v2) [wordField .val v, wordField .val2 v2] :=
  fun _ => (spells_nil.word (f := wordField .val v) rfl rfl (by simp)).word (f := wordField .val2 v2) rfl rfl
    (by simp [wordField])

end

/-! ## Rows -/

/-- The typed fields of a row's instruction are the injected ones and those that its encoding spells. -/
theorem spellsEncoding_of_view {r : Row} (hview : RowView r) {i : Instr} (hmakes : r.shape.Makes i) (hw : i.wf = true) :
    ∃ dflt fs, typedFields i = dflt ++ fs ∧ Row.defaults r = spelling dflt ∧ trailingText dflt = [] ∧
      SpellsEncoding r.shape r.templates.length (encode i) fs := by
  cases hview with
  | rmr _ _ hwf henc hfields =>
    obtain ⟨d, o, rfl⟩ := hmakes
    exact ⟨[], _, hfields d o, rfl, rfl, henc d o ▸ spellsEncoding_rmr _ d (hwf d o ▸ hw)⟩
  | rmr0 _ _ hwf henc hfields =>
    obtain ⟨o, rfl⟩ := hmakes
    exact ⟨[], _, hfields o, rfl, rfl, henc o ▸ spellsEncoding_rmr0 _ (hwf o ▸ hw)⟩
  | rmi _ _ _ hu hwf henc hfields =>
    obtain ⟨o, rfl⟩ := hmakes
    refine ⟨[_], _, hfields o, ?_, rfl, henc o ▸ spellsEncoding_rmi _ (hwf o ▸ hw)⟩
    simp [Row.defaults, hu, extTemplate]
  | rmi0 _ _ _ hu hwf henc hfields =>
    obtain ⟨o, rfl⟩ := hmakes
    refine ⟨[_], _, hfields o, ?_, rfl, henc o ▸ spellsEncoding_rmi0 _ (hwf o ▸ hw)⟩
    simp [Row.defaults, hu, extTemplate]
  | acci _ _ _ henc hfields =>
    obtain ⟨o, rfl⟩ := hmakes
    exact ⟨[], _, hfields o, rfl, rfl, henc o ▸ spellsEncoding_acci _ o⟩
  | rmxw _ _ _ hu hwf henc hfields =>
    obtain ⟨o, rfl⟩ := hmakes
    refine ⟨[_], _, hfields o, ?_, rfl, henc o ▸ spellsEncoding_rmxw _ (hwf o ▸ hw)⟩
    simp [Row.defaults, hu, extTemplate]
  | rmx _ _ hu hwf henc hfields =>
    obtain ⟨rm, rfl⟩ := hmakes
    refine ⟨[_], _, hfields rm, ?_, rfl, henc rm ▸ spellsEncoding_rmx _ _ (hwf rm ▸ hw)⟩
    simp [Row.defaults, hu, extTemplate]
  | none _ _ henc hfields =>
    obtain rfl := hmakes
    exact ⟨[], [], hfields, rfl, rfl, henc ▸ fun _ => spells_nil⟩
  | fix2 _ _ _ henc hfields =>
    obtain rfl := hmakes
    exact ⟨[], [], hfields, rfl, rfl, henc ▸ fun _ => spells_nil⟩
  | rel16 _ _ henc hfields =>
    obtain ⟨v, rfl⟩ := hmakes
    exact ⟨[], _, hfields v, rfl, rfl, henc v ▸ spellsEncoding_rel16 _ _ v⟩
  | fard _ _ henc hfields =>
    obtain ⟨v, v2, rfl⟩ := hmakes
    exact ⟨[], _, hfields v v2, rfl, rfl, henc v v2 ▸ spellsEncoding_fard _ _ v v2⟩

/-- Captured bytes do not depend on those that follow. -/
theorem Spells.captured_append {M : RawFieldMap} {names : List FieldName} {bs : List Byte} {fs : List TypedField}
    (h : Spells M names bs fs) (rest : List Byte) : captureBytes M names (bs ++ rest) = spelling fs := by
  rw [← List.append_nil names, captureBytes_append h.length_eq, captureBytes_nil, h.captured]

/-- Settles O13: the decoding row captures the spelling of its instruction's fields. -/
theorem typedFieldBits : Obligations.TypedFieldBits := by
  intro bs i rest h
  obtain ⟨r, hr, hfixed, hparse⟩ := exists_row_of_decode h
  have hview := opcodeTable_view r hr
  have hrow : r.decode bs = some (i, rest) := (if_pos hfixed).trans hparse
  have htest : Row.test r bs = true := by rw [test_of_view hview, hrow]; rfl
  obtain ⟨hwf, hbytes⟩ := encodeDecode bs i rest h
  obtain ⟨dflt, fs, hfields, hdefaults, hdflt, hspells⟩ :=
    spellsEncoding_of_view hview (Shape.makes_of_parse hparse) hwf
  have hspells := hspells rest
  rw [← hbytes] at hspells
  have hleading : r.templates.length ≤ (encode i).length := by
    have hcount := trailingOf_length hview (bs.getD 0 0) (bs.getD 1 0)
    have huses := r.shape.parse_usesBytes bs
    rw [hparse] at huses
    have huses : bs.length = r.shape.byteCount (bs.getD 0 0) (bs.getD 1 0) + rest.length := huses
    rw [hspells.length_eq, List.length_drop] at hcount
    have hlen : bs.length = (encode i).length + rest.length := by rw [hbytes, List.length_append]
    omega
  have hlen : r.templates.length ≤ bs.length := by
    rw [hbytes, List.length_append]
    omega
  refine ⟨r, hr, hrow, ?_, ?_⟩
  · have hdrop : bs.drop r.templates.length = (encode i).drop r.templates.length ++ rest := by
      rw [hbytes, List.drop_append_of_le_length hleading]
    rw [Row.rawFields, if_pos htest, hdefaults, leadingFields_of_view hview hlen, trailing_of_view hview hlen, hdrop,
      hspells.captured_append, hfields, ← spelling_append]
    rfl
  · rw [take_len_of_decode h, ← hspells.trailing, hfields]
    change trailingText (dflt ++ fs) = _
    rw [trailingText_append, hdflt, List.nil_append]

end Sys2Proof.Machine
end

section
/-! Reading a line (`30_encoding.md` R120): a letter enters a word in upper case, whichever case it is written in. -/

namespace Sys2Proof.Machine

/-- A letter is no space, tab or punctuation. -/
theorem punctuation_of_isAlpha {c : Char} (h : c.isAlpha = true) :
    ¬(c = ' ' ∨ c = '\t') ∧ punctuation c = none := by
  constructor
  · rintro (rfl | rfl) <;> cases h
  · unfold punctuation
    split_ifs with h1 h2 h3 h4 h5 h6
    any_goals subst c; cases h
    rfl

theorem lexFrom_alpha {c : Char} (h : c.isAlpha = true) (acc cs : List Char) :
    lexFrom acc (c :: cs) = lexFrom (acc ++ [c.toUpper]) cs := by
  obtain ⟨hspace, hpunct⟩ := punctuation_of_isAlpha h
  have halnum : c.isAlphanum = true := by rw [Char.isAlphanum, h, Bool.true_or]
  rw [lexFrom, if_neg hspace, hpunct]
  exact if_pos halnum

/-- A line is read the same after any change of the case of its letters. -/
theorem lexFrom_map {f : Char → Char} (hfix : ∀ c, c.isAlpha = false → f c = c)
    (halpha : ∀ c, (f c).isAlpha = c.isAlpha) (hupper : ∀ c, (f c).toUpper = c.toUpper) (acc line : List Char) :
    lexFrom acc (line.map f) = lexFrom acc line := by
  induction line generalizing acc with
  | nil => rfl
  | cons c cs ih =>
    rw [List.map_cons]
    cases h : c.isAlpha with
    | true => rw [lexFrom_alpha ((halpha c).trans h), lexFrom_alpha h, hupper, ih]
    | false => simp only [hfix c h, lexFrom, ih]

theorem toLower_eq_self {c : Char} (h : c.isAlpha = false) : c.toLower = c := by
  rw [Char.isAlpha, Bool.or_eq_false_iff] at h
  exact Char.toLower_eq_of_not_isUpper (by simp [h.1])

theorem toUpper_eq_self {c : Char} (h : c.isAlpha = false) : c.toUpper = c := by
  rw [Char.isAlpha, Bool.or_eq_false_iff] at h
  exact Char.toUpper_eq_of_not_isLower (by simp [h.2])

/-- Settles O11: the outcome depends on the tokens of the line alone. -/
theorem textIgnoresCase : Obligations.TextIgnoresCase := by
  intro line
  constructor
  · rw [assemble, assemble, lexFrom_map (fun _ => toLower_eq_self) Char.isAlpha_toLower_eq_isAlpha
      Char.toUpper_toLower_eq_toUpper]
  · rw [assemble, assemble, lexFrom_map (fun _ => toUpper_eq_self) Char.isAlpha_toUpper_eq_isAlpha
      Char.toUpper_toUpper_eq_toUpper]

end Sys2Proof.Machine
end

section
/-! The texts of operands are read back (`30_encoding.md` R121, R122): each piece of a text gives its tokens, and the
tokens of an operand parse to the operand. -/

namespace Sys2Proof.Machine

/-! ## Tokens of a text -/

/-- The text does not go on with the word before it. -/
def EndsWord : List Char → Prop
  | [] => True
  | c :: _ => c = ' ' ∨ (punctuation c).isSome = true

/-- The text is read as the tokens, whatever follows that does not go on with its last word. -/
def Lexes (cs : List Char) (ts : List Tok) : Prop :=
  ∀ rest, EndsWord rest → lexFrom [] (cs ++ rest) = (lexFrom [] rest).map (ts ++ ·)

theorem EndsWord.append {cs ds : List Char} (hcs : EndsWord cs) (hds : EndsWord ds) : EndsWord (cs ++ ds) := by
  cases cs with
  | nil => exact hds
  | cons c cs => exact hcs

theorem not_space_of_punctuation {c : Char} {t : Tok} (h : punctuation c = some t) : c ≠ ' ' ∧ c ≠ '\t' := by
  constructor
  · rintro rfl; cases h
  · rintro rfl; cases h

theorem endWord_nil : endWord [] = id := rfl

/-- A word that has been read ends. -/
theorem lexFrom_endsWord {acc rest : List Char} (hacc : acc ≠ []) (h : EndsWord rest) :
    lexFrom acc rest = (lexFrom [] rest).map (.word acc :: ·) := by
  have hend : endWord acc = (.word acc :: ·) := funext fun ts => if_neg hacc
  cases rest with
  | nil => simp [lexFrom, hend, endWord_nil]
  | cons c cs =>
    obtain rfl | hpunct := h
    · rw [lexFrom_space, lexFrom_space, hend, endWord_nil, Option.map_id, id]
    · obtain ⟨t, ht⟩ := Option.isSome_iff_exists.mp hpunct
      have hspace := not_space_of_punctuation ht
      rw [lexFrom_punctuation _ _ _ _ ht hspace, lexFrom_punctuation _ _ _ _ ht hspace, hend, endWord_nil,
        Option.map_map]
      rfl

namespace Lexes

variable {cs ds : List Char} {ts us : List Tok}

theorem nil : Lexes [] [] := fun _ _ => by simp

theorem word (hne : cs ≠ []) (h : ∀ c ∈ cs, isWordChar c = true) : Lexes cs [.word cs] := fun rest hrest => by
  rw [lexFrom_word [] cs rest h, List.nil_append, lexFrom_endsWord hne hrest]
  rfl

theorem punct {c : Char} {t : Tok} (hc : punctuation c = some t) (h : Lexes cs ts) : Lexes (c :: cs) (t :: ts) :=
  fun rest hrest => by
    rw [List.cons_append, lexFrom_punctuation _ _ _ _ hc (not_space_of_punctuation hc), h rest hrest, Option.map_map]
    rfl

theorem space (h : Lexes cs ts) : Lexes (' ' :: cs) ts := fun rest hrest => by
  rw [List.cons_append, lexFrom_space, h rest hrest, endWord_nil, Option.map_id, id]

theorem append (h : Lexes cs ts) (h' : Lexes ds us) (hds : EndsWord ds) : Lexes (cs ++ ds) (ts ++ us) :=
  fun rest hrest => by
    rw [List.append_assoc, h _ (hds.append hrest), h' rest hrest, Option.map_map]
    congr 1
    funext vs
    exact (List.append_assoc ts us vs).symm

theorem lexFrom_eq (h : Lexes cs ts) : lexFrom [] cs = some ts := by
  have := h [] trivial
  simpa [lexFrom, endWord_nil] using this

end Lexes

theorem lexes_hexByte (v : Byte) : Lexes (hexByte v) [.word (hexByte v)] := .word (by simp [hexByte]) (hexByte_word v)

theorem lexes_hexWord (v : Word) : Lexes (hexWord v) [.word (hexWord v)] :=
  .word (by simp [hexWord, hexByte]) (hexWord_word v)

theorem lexes_name {name : String} (hne : name.toList ≠ []) (h : name.toList.all isWordChar = true) :
    Lexes name.toList [.word name.toList] :=
  .word hne (List.all_eq_true.mp h)

theorem lexes_reg8 (r : Reg8) : Lexes r.name.toList [.word r.name.toList] :=
  lexes_name (by cases r <;> decide) (reg8_word r)

theorem lexes_reg16 (r : Reg16) : Lexes r.name.toList [.word r.name.toList] :=
  lexes_name (by cases r <;> decide) (reg16_word r)

theorem lexes_mnemonic (i : Instr) : Lexes i.mnemonic.toList [.word i.mnemonic.toList] :=
  lexes_name (by cases i <;> simp [Instr.mnemonic]) (mnemonic_word i)

/-! ## Numbers -/

theorem isName_reg8 (r : Reg8) : isName r.name.toList = true := by cases r <;> decide

/-- A number is no register's name. -/
theorem parseWord_of_hexNumber {cs : List Char} {digits v : Nat} (h : hexNumber cs = some (digits, v)) :
    parseWord cs = .num digits v := by
  have hname : isName cs = false := by rw [isName, h]; rfl
  have h8 : allReg8.find? (fun r => r.name.toList == cs) = none := by
    refine List.find?_eq_none.mpr fun r _ hr => ?_
    rw [← eq_of_beq hr, isName_reg8] at hname
    cases hname
  have h16 : allReg16.find? (fun r => r.name.toList == cs) = none := by
    refine List.find?_eq_none.mpr fun r _ hr => ?_
    rw [← eq_of_beq hr, isName_reg16] at hname
    cases hname
  rw [parseWord, h8, h16, h]

theorem wordNumber_hexWord (v : Word) : wordNumber (hexWord v) = some v := by
  rw [wordNumber, hexNumber_hexWord]
  simp

theorem signedByte_hexWord (neg : Bool) (v : Word) : signedByte neg (hexWord v) = none := by
  rw [signedByte, hexNumber_hexWord]
  rfl

/-! ## Memory operands -/

theorem displaced_signedByteText (b : Base) {neg : Bool} {cs : List Char} {d : Byte} (h : signedByte neg cs = some d) :
    displaced b neg cs = some (.disp8 b d) := by
  rw [displaced, h]

theorem displaced_hexWord (b : Base) (d : Word) : displaced b false (hexWord d) = some (.disp16 b d) := by
  have hlen : (hexWord d).length = 4 := rfl
  rw [displaced, signedByte_hexWord]
  simp [hlen, wordNumber_hexWord]

/-- The tokens of a base: a name, then names joined by `+`, with which nothing after them is joined. -/
structure BaseTokens (b : Base) (a : List Char) (us : List Tok) : Prop where
  lexes : Lexes b.name.toList (.word a :: us)
  comma_not_mem : .comma ∉ us
  isName : isName a = true
  joined : ∀ tail, joinedNames tail = ([], tail) →
    joinNames a (joinedNames (us ++ tail)).1 = b.name.toList ∧ (joinedNames (us ++ tail)).2 = tail

theorem baseTokens_single {b : Base} {x : Reg16} (hb : b.name.toList = x.name.toList) :
    BaseTokens b x.name.toList [] where
  lexes := hb ▸ lexes_reg16 x
  comma_not_mem := List.not_mem_nil
  isName := isName_reg16 x
  joined tail htail := by
    rw [List.nil_append, htail, hb]
    exact ⟨rfl, rfl⟩

theorem baseTokens_pair {b : Base} {x y : Reg16} (hb : b.name.toList = x.name.toList ++ '+' :: y.name.toList) :
    BaseTokens b x.name.toList [.plus, .word y.name.toList] where
  lexes := hb ▸ (lexes_reg16 x).append ((lexes_reg16 y).punct rfl) (.inr rfl)
  comma_not_mem := by simp
  isName := isName_reg16 x
  joined tail htail := by
    rw [List.cons_append, List.cons_append, List.nil_append, joinedNames_name _ _ (isName_reg16 y), htail, hb]
    exact ⟨rfl, rfl⟩

theorem exists_baseTokens (b : Base) : ∃ a us, BaseTokens b a us := by
  cases b with
  | bxsi => exact ⟨_, _, baseTokens_pair (x := .bx) (y := .si) rfl⟩
  | bxdi => exact ⟨_, _, baseTokens_pair (x := .bx) (y := .di) rfl⟩
  | bpsi => exact ⟨_, _, baseTokens_pair (x := .bp) (y := .si) rfl⟩
  | bpdi => exact ⟨_, _, baseTokens_pair (x := .bp) (y := .di) rfl⟩
  | si => exact ⟨_, _, baseTokens_single (x := .si) rfl⟩
  | di => exact ⟨_, _, baseTokens_single (x := .di) rfl⟩
  | bp => exact ⟨_, _, baseTokens_single (x := .bp) rfl⟩
  | bx => exact ⟨_, _, baseTokens_single (x := .bx) rfl⟩

theorem withBase_name (b : Base) (f : Base → Option MemOp) : withBase b.name.toList f = (f b).map .mem := by
  rw [withBase, baseNamed_name]

namespace BaseTokens

variable {b : Base} {a : List Char} {us : List Tok} (h : BaseTokens b a us)
include h

theorem parseInner_noDisp (hb : b ≠ .bp) : parseInner (.word a :: us) = some (.mem (.noDisp b)) := by
  obtain ⟨hnames, htail⟩ := h.joined [] rfl
  rw [List.append_nil] at hnames htail
  rw [parseInner, if_pos h.isName, htail]
  simp [hnames, withBase_name, hb]

theorem parseInner_plus {n : List Char} (hn : Machine.isName n = false) :
    parseInner (.word a :: (us ++ [.plus, .word n])) = (displaced b false n).map .mem := by
  obtain ⟨hnames, htail⟩ := h.joined [.plus, .word n] (joinedNames_number n [] hn)
  rw [parseInner, if_pos h.isName, htail]
  simp [hnames, withBase_name]

theorem parseInner_minus (n : List Char) :
    parseInner (.word a :: (us ++ [.minus, .word n])) = (displaced b true n).map .mem := by
  obtain ⟨hnames, htail⟩ := h.joined [.minus, .word n] rfl
  rw [parseInner, if_pos h.isName, htail]
  simp [hnames, withBase_name]

end BaseTokens

/-- The tokens of a memory operand after its opening bracket. -/
structure MemTokens (m : MemOp) (ts : List Tok) : Prop where
  lexes : Lexes (memText m) (.lbr :: ts)
  comma_not_mem : .comma ∉ ts
  parsed : parseMem (.lbr :: ts) = some (.mem m)

theorem memTokens_of_inner {m : MemOp} {cs : List Char} {ts : List Tok} (htext : memText m = '[' :: (cs ++ [']']))
    (hlexes : Lexes cs ts) (hcomma : .comma ∉ ts) (hparsed : parseInner ts = some (.mem m)) :
    MemTokens m (ts ++ [.rbr]) where
  lexes := htext ▸ (hlexes.append (Lexes.nil.punct rfl) (.inr rfl)).punct rfl
  comma_not_mem := by simpa using hcomma
  parsed := by simp [parseMem, hparsed]

theorem exists_memTokens {m : MemOp} (hw : m.wf = true) : ∃ ts, MemTokens m ts := by
  cases m with
  | direct ea =>
    refine ⟨_, memTokens_of_inner rfl (lexes_hexWord ea) (by simp) ?_⟩
    simp [parseInner, isName_hexWord, wordNumber_hexWord]
  | noDisp b =>
    obtain ⟨a, us, h⟩ := exists_baseTokens b
    have hb : b ≠ .bp := by rintro rfl; cases hw
    exact ⟨_, memTokens_of_inner rfl h.lexes (by simpa using h.comma_not_mem) (h.parseInner_noDisp hb)⟩
  | disp8 b d =>
    obtain ⟨a, us, h⟩ := exists_baseTokens b
    obtain ⟨neg, cs, htext, hsigned, n, -, rfl⟩ := signedByte_signedByteText d
    have hd := displaced_signedByteText b hsigned
    cases neg with
    | true =>
      refine ⟨_, memTokens_of_inner (by rw [memText, htext]; rfl)
        (h.lexes.append ((lexes_hexByte _).punct rfl) (.inr rfl)) (by simpa using h.comma_not_mem) ?_⟩
      exact (h.parseInner_minus _).trans (by rw [hd]; rfl)
    | false =>
      refine ⟨_, memTokens_of_inner (by rw [memText, htext]; rfl)
        (h.lexes.append ((lexes_hexByte _).punct rfl) (.inr rfl)) (by simpa using h.comma_not_mem) ?_⟩
      exact (h.parseInner_plus (isName_hexByte _)).trans (by rw [hd]; rfl)
  | disp16 b d =>
    obtain ⟨a, us, h⟩ := exists_baseTokens b
    refine ⟨_, memTokens_of_inner rfl (h.lexes.append ((lexes_hexWord d).punct rfl) (.inr rfl))
      (by simpa using h.comma_not_mem) ?_⟩
    exact (h.parseInner_plus (isName_hexWord d)).trans (by rw [displaced_hexWord]; rfl)

/-! ## Operands -/

/-- The text is that of an operand, which it is parsed to. -/
def Writes (cs : List Char) (x : TextOp) : Prop :=
  ∃ ts, Lexes cs ts ∧ .comma ∉ ts ∧ parseOperand ts = some x

theorem writes_reg8 (r : Reg8) : Writes r.name.toList (.reg8 r) :=
  ⟨_, lexes_reg8 r, by simp, by rw [parseOperand, parseWord_reg8]⟩

theorem writes_reg16 (r : Reg16) : Writes r.name.toList (.reg16 r) :=
  ⟨_, lexes_reg16 r, by simp, by rw [parseOperand, parseWord_reg16]⟩

theorem writes_hexByte (v : Byte) : Writes (hexByte v) (.num 2 v.toNat) :=
  ⟨_, lexes_hexByte v, by simp, by rw [parseOperand, parseWord_of_hexNumber (hexNumber_hexByte v)]⟩

theorem writes_hexWord (v : Word) : Writes (hexWord v) (.num 4 v.toNat) :=
  ⟨_, lexes_hexWord v, by simp, by rw [parseOperand, parseWord_of_hexNumber (hexNumber_hexWord v)]⟩

theorem writes_signedByteText (v : Byte) : Writes (signedByteText v) (.signed v) := by
  obtain ⟨neg, cs, htext, hsigned, n, -, rfl⟩ := signedByte_signedByteText v
  rw [htext]
  cases neg with
  | true => exact ⟨_, (lexes_hexByte _).punct rfl, by simp, by rw [parseOperand, hsigned]; rfl⟩
  | false => exact ⟨_, (lexes_hexByte _).punct rfl, by simp, by rw [parseOperand, hsigned]; rfl⟩

theorem writes_segOff (seg off : Word) : Writes (hexWord seg ++ ':' :: hexWord off) (.segOff seg off) := by
  refine ⟨_, (lexes_hexWord seg).append ((lexes_hexWord off).punct rfl) (.inr rfl), by simp, ?_⟩
  simp [parseOperand, wordNumber_hexWord]

theorem writes_mem {m : MemOp} (hw : m.wf = true) : Writes (memText m) (.mem m) := by
  obtain ⟨ts, h⟩ := exists_memTokens hw
  exact ⟨_, h.lexes, by simpa using h.comma_not_mem, h.parsed⟩

/-- The word in front of an operand. -/
theorem lexes_leadingWord {w cs : List Char} {ts : List Tok} (hne : w ≠ []) (hw : w.all isWordChar = true)
    (h : Lexes cs ts) : Lexes (w ++ ' ' :: cs) (.word w :: ts) :=
  (Lexes.word hne (List.all_eq_true.mp hw)).append h.space (.inl rfl)

theorem writes_sized (word : Bool) {m : MemOp} (hw : m.wf = true) :
    Writes (widthPrefix word ++ memText m) (.sized word m) := by
  obtain ⟨ts, h⟩ := exists_memTokens hw
  have hptr := lexes_leadingWord (w := "PTR".toList) (by simp) rfl h.lexes
  cases word with
  | false =>
    refine ⟨_, lexes_leadingWord (w := "BYTE".toList) (by simp) rfl hptr, by simpa using h.comma_not_mem, ?_⟩
    simp [parseOperand, h.parsed, sizedOperand]
  | true =>
    refine ⟨_, lexes_leadingWord (w := "WORD".toList) (by simp) rfl hptr, by simpa using h.comma_not_mem, ?_⟩
    simp [parseOperand, h.parsed, sizedOperand]

theorem writes_farMem {m : MemOp} (hw : m.wf = true) : Writes ("FAR ".toList ++ memText m) (.farMem m) := by
  obtain ⟨ts, h⟩ := exists_memTokens hw
  refine ⟨_, lexes_leadingWord (w := "FAR".toList) (by simp) rfl h.lexes, by simpa using h.comma_not_mem, ?_⟩
  simp [parseOperand, h.parsed, farOperand]

theorem writes_farReg16 (r : Reg16) : Writes ("FAR ".toList ++ r.name.toList) (.farReg16 r) := by
  refine ⟨_, lexes_leadingWord (w := "FAR".toList) (by simp) rfl (lexes_reg16 r), by simp, ?_⟩
  simp [parseOperand, farOperand]

end Sys2Proof.Machine
end

section
/-! Lines of canonical text and the families that read them (`30_encoding.md` R110, R121 to R124, R128 (b)). -/

namespace Sys2Proof.Machine

/-! ## Lines -/

theorem splitCommas_ne_nil (ts : List Tok) : splitCommas ts ≠ [] := by
  cases ts with
  | nil => simp [splitCommas]
  | cons t ts =>
    rw [splitCommas]
    split
    · simp
    · split <;> simp

/-- Tokens without a comma are one operand. -/
theorem splitCommas_single {ts : List Tok} (h : .comma ∉ ts) : splitCommas ts = [ts] := by
  induction ts with
  | nil => rfl
  | cons t ts ih =>
    obtain ⟨ht, hts⟩ := not_or.mp (mt List.mem_cons.mpr h)
    rw [splitCommas, ih hts]
    exact if_neg (Ne.symm ht)

theorem splitCommas_comma {ts : List Tok} (h : .comma ∉ ts) (us : List Tok) :
    splitCommas (ts ++ .comma :: us) = ts :: splitCommas us := by
  induction ts with
  | nil =>
    rw [List.nil_append, splitCommas]
    cases hus : splitCommas us with
    | nil => exact absurd hus (splitCommas_ne_nil us)
    | cons o os => exact if_pos rfl
  | cons t ts ih =>
    obtain ⟨ht, hts⟩ := not_or.mp (mt List.mem_cons.mpr h)
    rw [List.cons_append, splitCommas, ih hts]
    exact if_neg (Ne.symm ht)

theorem ne_nil_of_parseOperand {ts : List Tok} {x : TextOp} (h : parseOperand ts = some x) : ts ≠ [] := by
  rintro rfl
  cases h

/-- Operands' texts with commas between them are read as the operands. -/
theorem exists_operand_tokens {texts : List (List Char)} {xs : List TextOp} (h : List.Forall₂ Writes texts xs)
    (hne : texts ≠ []) :
    ∃ ts, Lexes (List.intersperse ", ".toList texts).flatten ts ∧ ts ≠ [] ∧
      (splitCommas ts).mapM parseOperand = some xs := by
  induction h with
  | nil => exact absurd rfl hne
  | @cons text x texts xs hx hxs ih =>
    obtain ⟨ts, hlexes, hcomma, hparse⟩ := hx
    cases texts with
    | nil =>
      cases hxs
      refine ⟨ts, by simpa using hlexes, ne_nil_of_parseOperand hparse, ?_⟩
      simp [splitCommas_single hcomma, hparse]
    | cons text' texts =>
      obtain ⟨us, hus, -, hmap⟩ := ih (List.cons_ne_nil _ _)
      refine ⟨ts ++ .comma :: us, ?_, by simp, ?_⟩
      · rw [List.intersperse_cons_cons, List.flatten_cons, List.flatten_cons]
        exact hlexes.append (hus.space.punct rfl) (.inr rfl)
      · simp [splitCommas_comma hcomma, hparse, hmap]

/-- The families that a mnemonic stands for. -/
def HasFamily (name : String) (f : Family) : Prop :=
  families.find? (fun p => p.1.toList == name.toList) = some (name, f)

/-- Canonical text is the mnemonic's families tried on the operands that it writes. -/
theorem assemble_toText {i : Instr} {f : Family} {xs : List TextOp} (hf : HasFamily i.mnemonic f)
    (h : List.Forall₂ Writes (operandTexts i) xs) : assemble (toText i) = matchOperands f xs := by
  have hmnemonic := lexes_mnemonic i
  rw [toText]
  cases hops : operandTexts i with
  | nil =>
    rw [hops] at h
    cases h
    have hf : families.find? (fun p => p.1.toList == i.mnemonic.toList) = some (i.mnemonic, f) := hf
    simp only [assemble, hmnemonic.lexFrom_eq, hf]
    rfl
  | cons text texts =>
    rw [hops] at h
    obtain ⟨ts, hlexes, hne, hmap⟩ := exists_operand_tokens h (List.cons_ne_nil _ _)
    have hline := (hmnemonic.append hlexes.space (.inl rfl)).lexFrom_eq
    have hparse : parseOperands ts = some xs := (if_neg hne).trans hmap
    have hf : families.find? (fun p => p.1.toList == i.mnemonic.toList) = some (i.mnemonic, f) := hf
    simp only [assemble, hline, List.cons_append, List.nil_append, hf, hparse]

/-- The text of the instruction is read as the first registered one with the same text. -/
def RoundTrips (i : Instr) : Prop :=
  assemble (toText i) = .matched (registeredFirst i) [] ∧ toText (registeredFirst i) = toText i

theorem roundTrips_of_match {i j : Instr} {f : Family} {xs : List TextOp} (hf : HasFamily i.mnemonic f)
    (h : List.Forall₂ Writes (operandTexts i) xs) (hmatch : matchOperands f xs = .matched j [])
    (hfirst : registeredFirst i = j) (hmnemonic : j.mnemonic = i.mnemonic) (htexts : operandTexts j = operandTexts i) :
    RoundTrips i := by
  rw [RoundTrips, hfirst, assemble_toText hf h, hmatch, toText, hmnemonic, htexts]
  exact ⟨rfl, rfl⟩

/-! ## The operands that the formats' texts write -/

/-- An `rm` operand that states no width. -/
def plainOp {R : Type} (reg : R → TextOp) : Rm R → TextOp
  | .reg r => reg r
  | .mem m => .mem m

/-- An `rm` operand that states a width where it is in memory. -/
def sizedOp {R : Type} (reg : R → TextOp) (word : Bool) : Rm R → TextOp
  | .reg r => reg r
  | .mem m => .sized word m

@[simp] theorem sizedOp_reg {R : Type} (reg : R → TextOp) (word : Bool) (r : R) :
    sizedOp reg word (.reg r) = reg r := rfl

@[simp] theorem sizedOp_mem {R : Type} (reg : R → TextOp) (word : Bool) (m : MemOp) :
    sizedOp reg word (.mem m) = .sized word m := rfl

section
variable {R : Type} {name : R → String} {reg : R → TextOp} (hreg : ∀ r, Writes (name r).toList (reg r)) {rm : Rm R}
  (hw : rm.wf = true)
include hreg hw

theorem writes_plainOp : Writes (rmText name [] rm) (plainOp reg rm) := by
  cases rm with
  | reg r => exact hreg r
  | mem m => exact writes_mem hw

theorem writes_sizedOp (word : Bool) : Writes (rmText name (widthPrefix word) rm) (sizedOp reg word rm) := by
  cases rm with
  | reg r => exact hreg r
  | mem m => exact writes_sized word hw

end

/-- What `rmRegTexts` writes. -/
def rmRegOps : Dir → RmReg → List TextOp
  | .toRm, .byte rm reg => [plainOp .reg8 rm, .reg8 reg]
  | .toRm, .word rm reg => [plainOp .reg16 rm, .reg16 reg]
  | .toReg, .byte rm reg => [.reg8 reg, plainOp .reg8 rm]
  | .toReg, .word rm reg => [.reg16 reg, plainOp .reg16 rm]

theorem writes_rmRegTexts (d : Dir) {o : RmReg} (hw : o.wf = true) :
    List.Forall₂ Writes (rmRegTexts d o) (rmRegOps d o) := by
  cases o with
  | byte rm reg =>
    have hrm : Writes _ _ := writes_plainOp writes_reg8 hw
    cases d with
    | toRm => exact .cons hrm (.cons (writes_reg8 reg) .nil)
    | toReg => exact .cons (writes_reg8 reg) (.cons hrm .nil)
  | word rm reg =>
    have hrm : Writes _ _ := writes_plainOp writes_reg16 hw
    cases d with
    | toRm => exact .cons hrm (.cons (writes_reg16 reg) .nil)
    | toReg => exact .cons (writes_reg16 reg) (.cons hrm .nil)

/-- What `accImmTexts` writes. -/
def accImmOps : AccImm → List TextOp
  | .byte v => [.reg8 .al, .num 2 v.toNat]
  | .word v => [.reg16 .ax, .num 4 v.toNat]

theorem writes_accImmTexts (o : AccImm) : List.Forall₂ Writes (accImmTexts o) (accImmOps o) := by
  cases o with
  | byte v => exact .cons (writes_reg8 .al) (.cons (writes_hexByte v) .nil)
  | word v => exact .cons (writes_reg16 .ax) (.cons (writes_hexWord v) .nil)

/-- What `rmImmSTexts` writes. -/
def rmImmSOps : RmImmS → List TextOp
  | .byte false rm v => [sizedOp .reg8 false rm, .num 2 v.toNat]
  | .byte true rm v => [sizedOp .reg8 false rm, .signed v]
  | .word rm v => [sizedOp .reg16 true rm, .num 4 v.toNat]
  | .wordSext rm v => [sizedOp .reg16 true rm, .signed v]

theorem writes_rmImmSTexts {o : RmImmS} (hw : o.wf = true) : List.Forall₂ Writes (rmImmSTexts o) (rmImmSOps o) := by
  cases o with
  | byte s rm v =>
    have hrm := writes_sizedOp writes_reg8 hw false
    cases s with
    | false => exact .cons hrm (.cons (writes_hexByte v) .nil)
    | true => exact .cons hrm (.cons (writes_signedByteText v) .nil)
  | word rm v => exact .cons (writes_sizedOp writes_reg16 hw true) (.cons (writes_hexWord v) .nil)
  | wordSext rm v => exact .cons (writes_sizedOp writes_reg16 hw true) (.cons (writes_signedByteText v) .nil)

/-- What `rmImmTexts` writes. -/
def rmImmOps : RmImm → List TextOp
  | .byte rm v => [sizedOp .reg8 false rm, .num 2 v.toNat]
  | .word rm v => [sizedOp .reg16 true rm, .num 4 v.toNat]

theorem writes_rmImmTexts {o : RmImm} (hw : o.wf = true) : List.Forall₂ Writes (rmImmTexts o) (rmImmOps o) := by
  cases o with
  | byte rm v => exact .cons (writes_sizedOp writes_reg8 hw false) (.cons (writes_hexByte v) .nil)
  | word rm v => exact .cons (writes_sizedOp writes_reg16 hw true) (.cons (writes_hexWord v) .nil)

/-- What `rmXTexts` writes. -/
def rmXOps : RmX → List TextOp
  | .byte rm => [sizedOp .reg8 false rm]
  | .word rm => [sizedOp .reg16 true rm]

theorem writes_rmXTexts {o : RmX} (hw : o.wf = true) : List.Forall₂ Writes (rmXTexts o) (rmXOps o) := by
  cases o with
  | byte rm => exact .cons (writes_sizedOp writes_reg8 hw false) .nil
  | word rm => exact .cons (writes_sizedOp writes_reg16 hw true) .nil

/-! ## Immediates -/

@[simp] theorem immByte_num (v : Byte) : immByte (.num 2 v.toNat) = some v := by
  simp [immByte]

@[simp] theorem immWord_num (v : Word) : immWord (.num 4 v.toNat) = some v := by
  simp [immWord]

/-! ## First registered instructions -/

/-- Of two registers, the first is the `rm` operand (R110, class (a)). -/
def firstRmReg (mk : Dir → RmReg → Instr) (d : Dir) (o : RmReg) : Instr :=
  match d, o with
  | .toReg, .byte (.reg r) q => mk .toRm (.byte (.reg q) r)
  | .toReg, .word (.reg r) q => mk .toRm (.word (.reg q) r)
  | .toReg, .byte (.mem m) q => mk .toReg (.byte (.mem m) q)
  | .toReg, .word (.mem m) q => mk .toReg (.word (.mem m) q)
  | .toRm, o => mk .toRm o

/-- The accumulator's own form comes before that of an `rm` operand (R110, class (c)). -/
def firstRmImmS (mk : RmImmS → Instr) (acc : AccImm → Instr) (o : RmImmS) : Instr :=
  match o with
  | .byte false (.reg .al) v => acc (.byte v)
  | .word (.reg .ax) v => acc (.word v)
  | o => mk o


/-- The operands of a two-operand form without an immediate fit its template for the first registered instruction. -/
theorem exists_rmRegOps (d : Dir) (o : RmReg) :
    ∃ x y p, rmRegOps d o = [x, y] ∧ textRmReg x y = some p ∧ rmRegTexts p.1 p.2 = rmRegTexts d o ∧
      ∀ mk, firstRmReg mk d o = mk p.1 p.2 := by
  cases d with
  | toRm =>
    cases o with
    | byte rm reg => cases rm <;> exact ⟨_, _, _, rfl, rfl, rfl, fun _ => rfl⟩
    | word rm reg => cases rm <;> exact ⟨_, _, _, rfl, rfl, rfl, fun _ => rfl⟩
  | toReg =>
    cases o with
    | byte rm reg => cases rm <;> exact ⟨_, _, _, rfl, rfl, rfl, fun _ => rfl⟩
    | word rm reg => cases rm <;> exact ⟨_, _, _, rfl, rfl, rfl, fun _ => rfl⟩

/-! ## Templates that the operands fit -/

theorem matchOperands_pair {f : Family} {x y : TextOp} {i : Instr} (h : textBinary f x y = some i) :
    matchOperands f [x, y] = .matched i [] := by
  rw [matchOperands, h]
  rfl

@[simp] theorem textRmReg_num (x : TextOp) (digits v : Nat) : textRmReg x (.num digits v) = none := by
  cases x <;> rfl

@[simp] theorem textRmReg_signed (x : TextOp) (v : Byte) : textRmReg x (.signed v) = none := by
  cases x <;> rfl

@[simp] theorem textAccImm_signed (x : TextOp) (v : Byte) : textAccImm x (.signed v) = none := by
  cases x with
  | reg8 r => cases r <;> rfl
  | reg16 r => cases r <;> rfl
  | _ => rfl

section
variable (rr : Dir → RmReg → Instr) (ai : AccImm → Instr) (ri : RmImmS → Instr)

theorem matchOperands_accImmOps (o : AccImm) :
    matchOperands (.alu rr ai ri) (accImmOps o) = .matched (ai o) [] := by
  cases o with
  | byte v => exact matchOperands_pair (by simp [textBinary, textAccImm])
  | word v => exact matchOperands_pair (by simp [textBinary, textAccImm])

theorem matchOperands_rmImmSOps (o : RmImmS) :
    matchOperands (.alu rr ai ri) (rmImmSOps o) = .matched (firstRmImmS ri ai o) [] := by
  cases o with
  | byte s rm v =>
    cases s with
    | false =>
      cases rm with
      | reg r =>
        refine matchOperands_pair ?_
        cases r <;> simp [textBinary, textAccImm, textRmImmS, textRmImm, firstRmImmS]
      | mem m =>
        exact matchOperands_pair (by
          simp [textBinary, textAccImm, textRmImmS, textRmImm, firstRmImmS])
    | true =>
      cases rm with
      | reg r | mem m =>
        exact matchOperands_pair (by
          simp [textBinary, textRmImmS, firstRmImmS])
  | word rm v =>
    cases rm with
    | reg r =>
      refine matchOperands_pair ?_
      cases r <;> simp [textBinary, textAccImm, textRmImmS, textRmImm, firstRmImmS]
    | mem m =>
      exact matchOperands_pair (by
        simp [textBinary, textAccImm, textRmImmS, textRmImm, firstRmImmS])
  | wordSext rm v =>
    cases rm with
    | reg r | mem m =>
      exact matchOperands_pair (by
        simp [textBinary, textRmImmS, firstRmImmS])

end

/-! ## Group-1 mnemonics -/

/-- The mnemonic of a family has the three forms, whose texts are the formats'. -/
structure Group (name : String) (rr : Dir → RmReg → Instr) (ai : AccImm → Instr) (ri : RmImmS → Instr) : Prop where
  family : HasFamily name (.alu rr ai ri)
  rmReg : ∀ d o, (rr d o).mnemonic = name ∧ operandTexts (rr d o) = rmRegTexts d o ∧
    registeredFirst (rr d o) = firstRmReg rr d o
  accImm : ∀ o, (ai o).mnemonic = name ∧ operandTexts (ai o) = accImmTexts o ∧ registeredFirst (ai o) = ai o
  rmImm : ∀ o, (ri o).mnemonic = name ∧ operandTexts (ri o) = rmImmSTexts o ∧
    registeredFirst (ri o) = firstRmImmS ri ai o

namespace Group

variable {name : String} {rr : Dir → RmReg → Instr} {ai : AccImm → Instr} {ri : RmImmS → Instr}
  (h : Group name rr ai ri)
include h

theorem roundTrips_rmReg (d : Dir) {o : RmReg} (hw : o.wf = true) : RoundTrips (rr d o) := by
  obtain ⟨hmnemonic, htexts, hfirst⟩ := h.rmReg d o
  obtain ⟨x, y, p, hops, hfits, htexts', hmk⟩ := exists_rmRegOps d o
  obtain ⟨hmnemonic', htexts'', -⟩ := h.rmReg p.1 p.2
  have hwrites := writes_rmRegTexts d hw
  rw [hops, ← htexts] at hwrites
  refine roundTrips_of_match (hmnemonic ▸ h.family) hwrites (matchOperands_pair (i := rr p.1 p.2) ?_)
    (hfirst.trans (hmk rr)) (hmnemonic'.trans hmnemonic.symm) (by rw [htexts'', htexts, htexts'])
  simp [textBinary, hfits]

theorem roundTrips_accImm (o : AccImm) : RoundTrips (ai o) := by
  obtain ⟨hmnemonic, htexts, hfirst⟩ := h.accImm o
  exact roundTrips_of_match (hmnemonic ▸ h.family) (htexts ▸ writes_accImmTexts o) (matchOperands_accImmOps rr ai ri o)
    hfirst rfl rfl

theorem roundTrips_rmImm {o : RmImmS} (hw : o.wf = true) : RoundTrips (ri o) := by
  obtain ⟨hmnemonic, htexts, hfirst⟩ := h.rmImm o
  have hsame : (firstRmImmS ri ai o).mnemonic = name ∧ operandTexts (firstRmImmS ri ai o) = rmImmSTexts o := by
    unfold firstRmImmS
    split
    · exact ⟨(h.accImm _).1, (h.accImm _).2.1⟩
    · exact ⟨(h.accImm _).1, (h.accImm _).2.1⟩
    · exact ⟨hmnemonic, htexts⟩
  exact roundTrips_of_match (hmnemonic ▸ h.family) (htexts ▸ writes_rmImmSTexts hw) (matchOperands_rmImmSOps rr ai ri o)
    hfirst (hsame.1.trans hmnemonic.symm) (hsame.2.trans htexts.symm)

end Group

theorem group_add : Group "ADD" .addRmReg .addAccImm .addRmImm :=
  ⟨rfl, fun _ _ => ⟨rfl, rfl, rfl⟩, fun _ => ⟨rfl, rfl, rfl⟩, fun _ => ⟨rfl, rfl, rfl⟩⟩

theorem group_or : Group "OR" .orRmReg .orAccImm .orRmImm :=
  ⟨rfl, fun _ _ => ⟨rfl, rfl, rfl⟩, fun _ => ⟨rfl, rfl, rfl⟩, fun _ => ⟨rfl, rfl, rfl⟩⟩

theorem group_adc : Group "ADC" .adcRmReg .adcAccImm .adcRmImm :=
  ⟨rfl, fun _ _ => ⟨rfl, rfl, rfl⟩, fun _ => ⟨rfl, rfl, rfl⟩, fun _ => ⟨rfl, rfl, rfl⟩⟩

theorem group_sbb : Group "SBB" .sbbRmReg .sbbAccImm .sbbRmImm :=
  ⟨rfl, fun _ _ => ⟨rfl, rfl, rfl⟩, fun _ => ⟨rfl, rfl, rfl⟩, fun _ => ⟨rfl, rfl, rfl⟩⟩

theorem group_and : Group "AND" .andRmReg .andAccImm .andRmImm :=
  ⟨rfl, fun _ _ => ⟨rfl, rfl, rfl⟩, fun _ => ⟨rfl, rfl, rfl⟩, fun _ => ⟨rfl, rfl, rfl⟩⟩

theorem group_sub : Group "SUB" .subRmReg .subAccImm .subRmImm :=
  ⟨rfl, fun _ _ => ⟨rfl, rfl, rfl⟩, fun _ => ⟨rfl, rfl, rfl⟩, fun _ => ⟨rfl, rfl, rfl⟩⟩

theorem group_xor : Group "XOR" .xorRmReg .xorAccImm .xorRmImm :=
  ⟨rfl, fun _ _ => ⟨rfl, rfl, rfl⟩, fun _ => ⟨rfl, rfl, rfl⟩, fun _ => ⟨rfl, rfl, rfl⟩⟩

theorem group_cmp : Group "CMP" .cmpRmReg .cmpAccImm .cmpRmImm :=
  ⟨rfl, fun _ _ => ⟨rfl, rfl, rfl⟩, fun _ => ⟨rfl, rfl, rfl⟩, fun _ => ⟨rfl, rfl, rfl⟩⟩

/-! ## TEST and MOV -/

theorem hasFamily_test : HasFamily "TEST" .test := rfl

theorem hasFamily_mov : HasFamily "MOV" .mov := rfl

theorem exists_rmImmOps (o : RmImm) :
    ∃ x digits v, rmImmOps o = [x, .num digits v] ∧ textRmImm x (.num digits v) = some o := by
  cases o with
  | byte rm v => cases rm <;> exact ⟨_, _, _, rfl, by simp [textRmImm]⟩
  | word rm v => cases rm <;> exact ⟨_, _, _, rfl, by simp [textRmImm]⟩

theorem roundTrips_testRmReg {o : RmReg} (hw : o.wf = true) : RoundTrips (.testRmReg o) := by
  obtain ⟨x, y, ⟨d, o'⟩, hops, hfits, -, hmk⟩ := exists_rmRegOps .toRm o
  cases hmk .addRmReg
  refine roundTrips_of_match (j := .testRmReg o') hasFamily_test (hops ▸ writes_rmRegTexts .toRm hw)
    (matchOperands_pair ?_) rfl rfl rfl
  simp [textBinary, hfits]

theorem roundTrips_testAccImm (o : AccImm) : RoundTrips (.testAccImm o) := by
  refine roundTrips_of_match (j := .testAccImm o) hasFamily_test (writes_accImmTexts o) ?_ rfl rfl rfl
  cases o with
  | byte v => exact matchOperands_pair (by simp [textBinary, textAccImm])
  | word v => exact matchOperands_pair (by simp [textBinary, textAccImm])

/-- TEST of an operand and an immediate is the accumulator's form for AL and AX, and itself for all others. -/
theorem textBinary_testRmImm (o : RmImm) :
    ∃ x y, rmImmOps o = [x, y] ∧ textBinary .test x y = some (registeredFirst (.testRmImm o)) ∧
      (registeredFirst (.testRmImm o)).mnemonic = "TEST" ∧
      operandTexts (registeredFirst (.testRmImm o)) = rmImmTexts o := by
  cases o with
  | byte rm v =>
    cases rm with
    | reg r =>
      cases r <;>
        exact ⟨_, _, rfl, by simp [textBinary, textAccImm, textRmImm, registeredFirst], rfl, rfl⟩
    | mem m =>
      exact ⟨_, _, rfl, by simp [textBinary, textAccImm, textRmImm, registeredFirst], rfl, rfl⟩
  | word rm v =>
    cases rm with
    | reg r =>
      cases r <;>
        exact ⟨_, _, rfl, by simp [textBinary, textAccImm, textRmImm, registeredFirst], rfl, rfl⟩
    | mem m =>
      exact ⟨_, _, rfl, by simp [textBinary, textAccImm, textRmImm, registeredFirst], rfl, rfl⟩

theorem roundTrips_testRmImm {o : RmImm} (hw : o.wf = true) : RoundTrips (.testRmImm o) := by
  obtain ⟨x, y, hops, hfits, hmnemonic, htexts⟩ := textBinary_testRmImm o
  exact roundTrips_of_match hasFamily_test (hops ▸ writes_rmImmTexts hw) (matchOperands_pair hfits) rfl hmnemonic htexts

theorem roundTrips_movRmReg (d : Dir) {o : RmReg} (hw : o.wf = true) : RoundTrips (.movRmReg d o) := by
  obtain ⟨x, y, p, hops, hfits, htexts, hmk⟩ := exists_rmRegOps d o
  refine roundTrips_of_match hasFamily_mov (hops ▸ writes_rmRegTexts d hw) (matchOperands_pair ?_) (hmk .movRmReg) rfl
    htexts
  simp [textBinary, hfits]

theorem roundTrips_movRmImm {o : RmImm} (hw : o.wf = true) : RoundTrips (.movRmImm o) := by
  obtain ⟨x, digits, v, hops, hfits⟩ := exists_rmImmOps o
  refine roundTrips_of_match (j := .movRmImm o) hasFamily_mov (hops ▸ writes_rmImmTexts hw) (matchOperands_pair ?_) rfl
    rfl rfl
  simp [textBinary, hfits]

/-! ## Mnemonics with one operand or none -/

theorem writes_none : List.Forall₂ Writes [] [] := .nil

theorem writes_one {cs : List Char} {x : TextOp} (h : Writes cs x) : List.Forall₂ Writes [cs] [x] := .cons h .nil

/-- A mnemonic without operands. -/
theorem roundTrips_nullary {i : Instr} (hf : HasFamily i.mnemonic (.nullary i)) (htexts : operandTexts i = [])
    (hfirst : registeredFirst i = i) : RoundTrips i :=
  roundTrips_of_match hf (htexts ▸ writes_none) rfl hfirst rfl rfl

/-- DIV and IDIV. -/
theorem roundTrips_divide {mk : RmX → Instr} {o : RmX} (hf : HasFamily (mk o).mnemonic (.divide mk))
    (htexts : operandTexts (mk o) = rmXTexts o) (hfirst : registeredFirst (mk o) = mk o) (hw : o.wf = true) :
    RoundTrips (mk o) := by
  refine roundTrips_of_match hf (htexts ▸ writes_rmXTexts hw) ?_ hfirst rfl rfl
  cases o with
  | byte rm => cases rm <;> rfl
  | word rm => cases rm <;> rfl

section
variable {near : Word → Instr} {rm : Rm Reg16 → Instr} {far : Word → Word → Instr} {farRm : Rm Reg16 → Instr}
  {i : Instr} (hf : HasFamily i.mnemonic (.transfer near rm far farRm)) (hfirst : registeredFirst i = i)
include hf hfirst

theorem roundTrips_near {v : Word} (hi : i = near v) (htexts : operandTexts i = [hexWord v]) : RoundTrips i := by
  refine roundTrips_of_match hf (htexts ▸ writes_one (writes_hexWord v)) ?_ hfirst rfl rfl
  simp [matchOperands, textUnary, textOutcome, hi]

theorem roundTrips_nearRm {o : Rm Reg16} (hi : i = rm o) (htexts : operandTexts i = [rmText Reg16.name [] o])
    (hw : o.wf = true) : RoundTrips i := by
  refine roundTrips_of_match hf (htexts ▸ writes_one (writes_plainOp writes_reg16 hw)) ?_ hfirst rfl rfl
  cases o <;> simp [matchOperands, textUnary, textOutcome, plainOp, hi]

theorem roundTrips_far {v v2 : Word} (hi : i = far v v2) (htexts : operandTexts i = [hexWord v2 ++ ':' :: hexWord v]) :
    RoundTrips i := by
  refine roundTrips_of_match hf (htexts ▸ writes_one (writes_segOff v2 v)) ?_ hfirst rfl rfl
  simp [matchOperands, textUnary, textOutcome, hi]

theorem roundTrips_farRm {o : Rm Reg16} (hi : i = farRm o)
    (htexts : operandTexts i = ["FAR ".toList ++ rmText Reg16.name [] o]) (hw : o.wf = true) : RoundTrips i := by
  cases o with
  | reg r =>
    refine roundTrips_of_match hf (htexts ▸ writes_one (writes_farReg16 r)) ?_ hfirst rfl rfl
    simp [matchOperands, textUnary, textOutcome, hi]
  | mem m =>
    refine roundTrips_of_match hf (htexts ▸ writes_one (writes_farMem hw)) ?_ hfirst rfl rfl
    simp [matchOperands, textUnary, textOutcome, hi]

end

theorem hasFamily_div : HasFamily "DIV" (.divide .div) := rfl

theorem hasFamily_idiv : HasFamily "IDIV" (.divide .idiv) := rfl

theorem hasFamily_call : HasFamily "CALL" (.transfer .callNear .callRm .callFar .callFarRm) := rfl

theorem hasFamily_jmp : HasFamily "JMP" (.transfer .jmpNear .jmpRm .jmpFar .jmpFarRm) := rfl

/-- Settles O10: every form's text is read by its mnemonic's families as the first registered instruction. -/
theorem textRoundTrip : Obligations.TextRoundTrip := by
  intro i hw
  cases i with
  | addRmReg d o => exact group_add.roundTrips_rmReg d hw
  | addAccImm o => exact group_add.roundTrips_accImm o
  | addRmImm o => exact group_add.roundTrips_rmImm hw
  | orRmReg d o => exact group_or.roundTrips_rmReg d hw
  | orAccImm o => exact group_or.roundTrips_accImm o
  | orRmImm o => exact group_or.roundTrips_rmImm hw
  | adcRmReg d o => exact group_adc.roundTrips_rmReg d hw
  | adcAccImm o => exact group_adc.roundTrips_accImm o
  | adcRmImm o => exact group_adc.roundTrips_rmImm hw
  | sbbRmReg d o => exact group_sbb.roundTrips_rmReg d hw
  | sbbAccImm o => exact group_sbb.roundTrips_accImm o
  | sbbRmImm o => exact group_sbb.roundTrips_rmImm hw
  | andRmReg d o => exact group_and.roundTrips_rmReg d hw
  | andAccImm o => exact group_and.roundTrips_accImm o
  | andRmImm o => exact group_and.roundTrips_rmImm hw
  | subRmReg d o => exact group_sub.roundTrips_rmReg d hw
  | subAccImm o => exact group_sub.roundTrips_accImm o
  | subRmImm o => exact group_sub.roundTrips_rmImm hw
  | xorRmReg d o => exact group_xor.roundTrips_rmReg d hw
  | xorAccImm o => exact group_xor.roundTrips_accImm o
  | xorRmImm o => exact group_xor.roundTrips_rmImm hw
  | cmpRmReg d o => exact group_cmp.roundTrips_rmReg d hw
  | cmpAccImm o => exact group_cmp.roundTrips_accImm o
  | cmpRmImm o => exact group_cmp.roundTrips_rmImm hw
  | testRmReg o => exact roundTrips_testRmReg hw
  | testAccImm o => exact roundTrips_testAccImm o
  | testRmImm o => exact roundTrips_testRmImm hw
  | movRmReg d o => exact roundTrips_movRmReg d hw
  | movRmImm o => exact roundTrips_movRmImm hw
  | daa | das | aaa | aas | aam | aad => exact roundTrips_nullary rfl rfl rfl
  | div o => exact roundTrips_divide hasFamily_div rfl rfl hw
  | idiv o => exact roundTrips_divide hasFamily_idiv rfl rfl hw
  | callNear v => exact roundTrips_near hasFamily_call rfl rfl rfl
  | callRm rm => exact roundTrips_nearRm hasFamily_call rfl rfl rfl hw
  | callFar v v2 => exact roundTrips_far hasFamily_call rfl rfl rfl
  | callFarRm rm => exact roundTrips_farRm hasFamily_call rfl rfl rfl hw
  | jmpNear v => exact roundTrips_near hasFamily_jmp rfl rfl rfl
  | jmpRm rm => exact roundTrips_nearRm hasFamily_jmp rfl rfl rfl hw
  | jmpFar v v2 => exact roundTrips_far hasFamily_jmp rfl rfl rfl
  | jmpFarRm rm => exact roundTrips_farRm hasFamily_jmp rfl rfl rfl hw

end Sys2Proof.Machine
end
